-- ==== Sys2Proof/Word.lean ====
section
/-! DEFINITION. The two word types of the block. Nothing in it is signed (00_scope.md section 6); the only
multi-bit quantities that are treated as bits are bytes, the 1-bit mode and the fields of a command or a
control request. Indices and counts are naturals (R14). -/

namespace Sys2Proof

/-- `byte`: an unsigned 8-bit value, 0 to 255 (00_scope.md section 6). -/
abbrev Byte := BitVec 8

/-- One bit: `mode_live`, `nv[0]`, the operand of SET_AND_COMMIT (R26, R27, R113). -/
abbrev Bit := BitVec 1

end Sys2Proof
end

