-- ==== Sys2Proof/Config.lean ====
section
/-! DEFINITION. What the implementation fixes (the parameters of 00_scope.md section 4), what the environment may
do next (R9, R162), and the free values: opaque constants with no body, so that nothing in Lean can evaluate one
or prove a value of it (assumption log 2, 5, 7, 8, 9, 29). -/

namespace Sys2Proof

/-- The two buffer instances of R2: `H2D`, host to device, and `D2H`, device to host. -/
inductive BufId where
  | h2d
  | d2h
  deriving DecidableEq, Repr

/-- The five agents of R9. -/
inductive Agent where
  /-- `FG`, the foreground loop: boot, the poll iteration and the dispatcher. -/
  | fg
  /-- `UISR`, the UART-receive-complete interrupt. -/
  | uisr
  /-- `TISR`, the periodic timer interrupt. -/
  | tisr
  /-- `HOST`, the excluded USB transport and the host behind it. -/
  | host
  /-- `RST`, the hardware reset. -/
  | rst
  deriving DecidableEq, Repr

/-- The named parameters of 00_scope.md section 4 (R4 to R8), as one record: "Each is a named parameter the model
takes as an argument (a field of its configuration record)". -/
structure Params where
  /-- `CAP[H2D]` (R4). -/
  capH2D : Nat
  /-- `CAP[D2H]` (R4). -/
  capD2H : Nat
  /-- `MAXPKT` (R5). -/
  maxPkt : Nat
  /-- `NV_ADDR` (R7); no rule depends on its value. -/
  nvAddr : Nat
  /-- `RESET_DELAY_MS` (R6); timing, read by no rule (R184). -/
  resetDelayMs : Nat
  /-- `WEBUSB_CODE` (R8). -/
  webusbCode : BitVec 8
  /-- `MSOS_CODE` (R8). -/
  msosCode : BitVec 8
  /-- `IDX_GET_URL` (R8). -/
  idxGetUrl : BitVec 16
  /-- `IDX_ENABLE` (R8). -/
  idxEnable : BitVec 16
  /-- `IDX_MSOS_DESC` (R8). -/
  idxMsosDesc : BitVec 16
  /-- `IDX_ALT_ENUM` (R8). -/
  idxAltEnum : BitVec 16
  /-- `LANDING_PAGE` (R8). -/
  landingPage : BitVec 16
  /-- `ALT_ENUM_CODE` (R8). -/
  altEnumCode : BitVec 8
  /-- `ALT_ENUM_FALLTHROUGH` (R8, R129), `false` by default. -/
  altEnumFallthrough : Bool
  deriving DecidableEq, Repr

/-- `CAP[f]` (R4). -/
def Params.cap (p : Params) : BufId → Nat
  | .h2d => p.capH2D
  | .d2h => p.capD2H

/-- The constraints the spec puts on the parameters: `CAP[f] >= 1` (R4), `MAXPKT >= 1` (R5), and the two
inequalities of R8. -/
abbrev Params.Valid (p : Params) : Prop :=
  1 ≤ p.capH2D ∧ 1 ≤ p.capD2H ∧ 1 ≤ p.maxPkt ∧ p.webusbCode ≠ p.msosCode ∧ p.idxMsosDesc ≠ p.idxAltEnum

/-- What may happen next: the step of one agent, with the input it brings (R9, R10, R153, R162). -/
inductive Stimulus where
  /-- `FG` takes the foreground step that `fg_pc` selects (R69). -/
  | fg
  /-- `UISR`: the UART receive interrupt delivers the byte `b` (R95, R146). -/
  | uartRx (b : Byte)
  /-- `TISR`: the periodic timer interrupt (R148). -/
  | timer
  /-- `HOST` delivers a control request, its eight SETUP bytes as one word, first byte lowest (R71, R139). -/
  | setup (w : BitVec 64)
  /-- `RST`: the watchdog or a power-on reset (R118, R166). -/
  | reset
  /-- A buffer operation requested by agent `a` at a port of a buffer (R58, R59, R63). -/
  | fcmd (a : Agent) (w : BitVec 12)
  deriving DecidableEq, Repr, Inhabited

/-! ## The configuration of the machine after reset
The spec gives no value (D2, D11, D22, D28), so these are opaque; what it demands of them is built in: a capacity
is one more than a free natural, and two codes that must differ do so by a free nonzero amount. -/

/-- How many cells `H2D` has beyond the one it must have (R4). -/
opaque Config.extraCellsH2D : Nat
/-- How many cells `D2H` has beyond the one it must have (R4). -/
opaque Config.extraCellsD2H : Nat
/-- How far `MAXPKT` lies above 1 (R5). -/
opaque Config.extraPacketBytes : Nat
/-- `NV_ADDR` (R7). -/
opaque Config.nvAddr : Nat
/-- `WEBUSB_CODE` (R8). -/
opaque Config.webusbCode : BitVec 8
/-- `MSOS_CODE` lies this amount plus one above `WEBUSB_CODE`, so the two differ (R8). -/
opaque Config.msosCodeStep : Fin 255
/-- `IDX_GET_URL` (R8). -/
opaque Config.idxGetUrl : BitVec 16
/-- `IDX_ENABLE` (R8). -/
opaque Config.idxEnable : BitVec 16
/-- `IDX_MSOS_DESC` (R8). -/
opaque Config.idxMsosDesc : BitVec 16
/-- `IDX_ALT_ENUM` lies this amount plus one above `IDX_MSOS_DESC`, so the two differ (R8). -/
opaque Config.idxAltEnumStep : Fin 65535
/-- `LANDING_PAGE` (R8). -/
opaque Config.landingPage : BitVec 16
/-- `ALT_ENUM_CODE` (R8). -/
opaque Config.altEnumCode : BitVec 8

/-- The configuration that `State.reset` carries: open in every parameter the spec leaves open, and with the two
values it states (`RESET_DELAY_MS = 2000`, R6; `ALT_ENUM_FALLTHROUGH = false` by default, R8, R129). -/
def Config.params : Params where
  capH2D := Config.extraCellsH2D + 1
  capD2H := Config.extraCellsD2H + 1
  maxPkt := Config.extraPacketBytes + 1
  nvAddr := Config.nvAddr
  resetDelayMs := 2000
  webusbCode := Config.webusbCode
  msosCode := Config.webusbCode + BitVec.ofNat 8 (Config.msosCodeStep.val + 1)
  idxGetUrl := Config.idxGetUrl
  idxEnable := Config.idxEnable
  idxMsosDesc := Config.idxMsosDesc
  idxAltEnum := Config.idxMsosDesc + BitVec.ofNat 16 (Config.idxAltEnumStep.val + 1)
  landingPage := Config.landingPage
  altEnumCode := Config.altEnumCode
  altEnumFallthrough := false

/-! ## Free values of a run
Each is a function of a plain counter of State, so that every use is a fresh unconstrained value. -/

/-- The agent that steps next, and its input, where State lists none: any order is admitted (R10, R151, U15). -/
opaque Config.schedule : Nat → Stimulus
/-- In boot number `n`, how many free values may have been drawn before the RESET that a commit owes is taken: any finite
number, so that the RESET is taken eventually and at no stated time (R118 (c), R184). -/
opaque Config.resetDueBy : (n : Nat) → Nat
/-- The answer of `usb_read_byte()` where State lists none (R12, U9). -/
opaque Config.usbRead : Nat → Option Byte
/-- The answer of `usb_in_ready()` where State lists none (R12, U9). -/
opaque Config.usbReady : Nat → Bool
/-- The answer of `usb_send_byte(b)` where State lists none, `true` for the source's `ok` (R12, U9). -/
opaque Config.usbSend : Nat → Bool
/-- The answer of `uart_send_ready()` where State lists none (R12, U9). -/
opaque Config.uartReady : Nat → Bool
/-- The draw between `ACK` (`true`) and `STALL` of R129 where State lists none (U6). -/
opaque Config.altEnumAck : Nat → Bool

/-- What a cell of `mem[f]` that nothing has written since RESET number `n` holds (R35, U4). -/
opaque Config.unwrittenCell : (n : Nat) → BufId → Nat → Byte
/-- `head[f]` after RESET number `n`, before INIT (R33, U11). -/
opaque Config.headAfterReset : (n : Nat) → BufId → Nat
/-- `tail[f]` after RESET number `n`, before INIT (R33, U11). -/
opaque Config.tailAfterReset : (n : Nat) → BufId → Nat
/-- `count[f]` after RESET number `n`, before INIT (R33, U11). -/
opaque Config.countAfterReset : (n : Nat) → BufId → Nat
/-- `mode_live` after RESET number `n`, before LOAD (R33, U11). -/
opaque Config.modeAfterReset : (n : Nat) → Bit
/-- `n_left` after RESET number `n`, before POLL_S2 (R33, U11). -/
opaque Config.nLeftAfterReset : (n : Nat) → Nat

end Sys2Proof
end

