-- ==== Sys2Proof/Syntax.lean ====
section
/-! DEFINITION. The operations of the block (30_encoding.md section 6), one constructor per row of
opcode_table.json, and the words they arrive as: one format per route (R58). -/

namespace Sys2Proof

/-- A control request, the record of R70 with the widths of R71. -/
structure CtrlReq where
  /-- `dir`: 0 host to device, 1 device to host. -/
  dir : BitVec 1
  /-- `type`: 0 standard, 1 class, 2 vendor, 3 reserved. -/
  typ : BitVec 2
  /-- `rcpt`: 0 device, 1 interface, 2 endpoint, 3 other, 4 to 31 reserved. -/
  rcpt : BitVec 5
  code : BitVec 8
  value : BitVec 16
  index : BitVec 16
  /-- `length`: carried and used by no rule (R135). -/
  length : BitVec 16
  deriving DecidableEq, Repr

/-- A control request whose `type` the instruction itself fixes: the other six fields. -/
structure CtrlBody where
  dir : BitVec 1
  rcpt : BitVec 5
  code : BitVec 8
  value : BitVec 16
  index : BitVec 16
  length : BitVec 16
  deriving DecidableEq, Repr

/-- The request with type `t` and the other fields of `r`. -/
def CtrlBody.withType (r : CtrlBody) (t : BitVec 2) : CtrlReq :=
  ⟨r.dir, t, r.rcpt, r.code, r.value, r.index, r.length⟩

/-- The other fields of a request. -/
def CtrlReq.body (r : CtrlReq) : CtrlBody :=
  ⟨r.dir, r.rcpt, r.code, r.value, r.index, r.length⟩

/-- The operations: one constructor per row of opcode_table.json. A control operation carries the fields its row
leaves open; the fields its row fixes are not operands. -/
inductive Instr where
  /-- INIT (R77). -/
  | init (f : BufId)
  /-- TRY_INSERT (R78). -/
  | tryInsert (f : BufId) (b : Byte)
  /-- TRY_REMOVE (R79). -/
  | tryRemove (f : BufId)
  /-- PEEK (R80). -/
  | peek (f : BufId)
  /-- COUNT (R81). -/
  | count (f : BufId)
  /-- IS_FULL (R82). -/
  | isFull (f : BufId)
  /-- IS_EMPTY (R83). -/
  | isEmpty (f : BufId)
  /-- UART_RX (R95). -/
  | uartRx (b : Byte)
  /-- BOOT (R96). -/
  | boot
  /-- POLL_S1 (R97). -/
  | pollS1
  /-- POLL_S2 (R99). -/
  | pollS2
  /-- POLL_S2L (R102). -/
  | pollS2l
  /-- POLL_S3 (R103). -/
  | pollS3
  /-- POLL_S4 (R104). -/
  | pollS4
  /-- LOAD (R112). -/
  | load
  /-- SET_AND_COMMIT (R113). -/
  | setAndCommit (v : Bit)
  /-- HALT_WAIT (R117). -/
  | haltWait
  /-- RESET (R118). -/
  | reset
  /-- GET_URL (R127). -/
  | getUrl (value length : BitVec 16)
  /-- GET_MSOS_DESC (R128). -/
  | getMsosDesc (value length : BitVec 16)
  /-- SET_ALT_ENUM (R129). -/
  | setAltEnum (value length : BitVec 16)
  /-- SET_WEBUSB_ENABLE (R130). -/
  | setWebusbEnable (value length : BitVec 16)
  /-- CDC_DELEGATE, the table's row for `type = 0`, standard (R136). -/
  | cdcDelegateStandard (r : CtrlBody)
  /-- CDC_DELEGATE, the table's row for `type = 1`, class (R136). -/
  | cdcDelegateClass (r : CtrlBody)
  /-- CDC_DELEGATE, the table's row for `type = 3`, reserved (R136, R74). -/
  | cdcDelegateReserved (r : CtrlBody)
  /-- VENDOR_STALL (R131). -/
  | vendorStall (r : CtrlBody)
  deriving DecidableEq, Repr

/-- An operation as it arrives: the four formats of R58, and the three selectors of R68 that carry no bits. -/
inductive OpWord where
  /-- Format FCMD, 12 bits (R59). -/
  | fcmd (w : BitVec 12)
  /-- Format EVT, one byte (R67). -/
  | evt (b : Byte)
  /-- Format SEQ selected by the 3-bit code of `fg_pc` (R69). -/
  | seq (c : BitVec 3)
  /-- Format CTRL, the 64-bit SETUP word (R71). -/
  | ctrl (w : BitVec 64)
  /-- The selector `LOAD` (R68). -/
  | load
  /-- The selector `SET_AND_COMMIT v` (R68). -/
  | setAndCommit (v : Bit)
  /-- The selector `RESET` (R68). -/
  | reset
  deriving DecidableEq, Repr

end Sys2Proof
end

