-- ==== Sys2Proof/WellFormed.lean ====
section
/-! DEFINITION. Which terms of Instr stand for an operation of the table. The only row with a side condition on its
operands is VENDOR_STALL: "`type=2` and no row above matches" (30_encoding.md section 6, R131). -/

namespace Sys2Proof

/-- `r`, read as a vendor request, has the selectors of GET_URL (R127). -/
def CtrlBody.hitsGetUrl (p : Params) (r : CtrlBody) : Bool :=
  r.dir == 1 && r.rcpt == 0 && r.code == p.webusbCode && r.index == p.idxGetUrl

/-- `r`, read as a vendor request, has the selectors of GET_MSOS_DESC (R128). -/
def CtrlBody.hitsGetMsosDesc (p : Params) (r : CtrlBody) : Bool :=
  r.dir == 1 && r.rcpt == 0 && r.code == p.msosCode && r.index == p.idxMsosDesc

/-- `r`, read as a vendor request, has the selectors of SET_ALT_ENUM (R129). -/
def CtrlBody.hitsSetAltEnum (p : Params) (r : CtrlBody) : Bool :=
  r.dir == 1 && r.rcpt == 0 && r.code == p.msosCode && r.index == p.idxAltEnum

/-- `r`, read as a vendor request, has the selectors of SET_WEBUSB_ENABLE (R130). -/
def CtrlBody.hitsSetWebusbEnable (p : Params) (r : CtrlBody) : Bool :=
  r.dir == 0 && r.rcpt == 0 && r.code == p.webusbCode && r.index == p.idxEnable

/-- A term is well formed under the parameters `p`; a VENDOR_STALL whose fields are those of a recognised flow is
not, since such a request is that flow (R73). -/
def WellFormed (p : Params) : Instr → Bool
  | .vendorStall r =>
      !r.hitsGetUrl p && !r.hitsGetMsosDesc p && !r.hitsSetAltEnum p && !r.hitsSetWebusbEnable p
  | .init _ | .tryInsert _ _ | .tryRemove _ | .peek _ | .count _ | .isFull _ | .isEmpty _ => true
  | .uartRx _ => true
  | .boot | .pollS1 | .pollS2 | .pollS2l | .pollS3 | .pollS4 => true
  | .load | .setAndCommit _ | .haltWait | .reset => true
  | .getUrl _ _ | .getMsosDesc _ _ | .setAltEnum _ _ | .setWebusbEnable _ _ => true
  | .cdcDelegateStandard _ | .cdcDelegateClass _ | .cdcDelegateReserved _ => true

end Sys2Proof
end

