-- ==== Sys2Proof/Decode.lean ====
section
/-! DEFINITION. The decoder, total on every word of every format and rejecting by name, and after it the encoder
(30_encoding.md). Both take the parameters of R8, with which `code` and `index` of a control request are compared. -/

namespace Sys2Proof

/-- Why a word is no operation. -/
inductive DecodeError where
  /-- A reserved FCMD word: `op = 7`, or `data` not 0 on an operation other than TRY_INSERT (R65). -/
  | reservedCommand
  /-- The `fg_pc` code 0b110, "unused and unreachable" (R69). -/
  | unusedPhase
  deriving DecidableEq, Repr

/-! ## Format FCMD (R59 to R65) -/

/-- The buffer selected by bit 11: 0 for `H2D`, 1 for `D2H` (R59). -/
def fcmdBuf (w : BitVec 12) : BufId :=
  if w.extractLsb' 11 1 = 1#1 then .d2h else .h2d

/-- `op`, bits 10:8 (R59). -/
def fcmdOp (w : BitVec 12) : BitVec 3 := w.extractLsb' 8 3

/-- `data`, bits 7:0 (R59). -/
def fcmdData (w : BitVec 12) : Byte := w.extractLsb' 0 8

/-- An FCMD word: `op` as in R60, every reserved word rejected (R65). -/
def decodeFcmd (w : BitVec 12) : Except DecodeError Instr :=
  if fcmdOp w = 1#3 then .ok (.tryInsert (fcmdBuf w) (fcmdData w))
  else if fcmdData w ≠ 0#8 then .error .reservedCommand
  else if fcmdOp w = 0#3 then .ok (.init (fcmdBuf w))
  else if fcmdOp w = 2#3 then .ok (.tryRemove (fcmdBuf w))
  else if fcmdOp w = 3#3 then .ok (.peek (fcmdBuf w))
  else if fcmdOp w = 4#3 then .ok (.count (fcmdBuf w))
  else if fcmdOp w = 5#3 then .ok (.isFull (fcmdBuf w))
  else if fcmdOp w = 6#3 then .ok (.isEmpty (fcmdBuf w))
  else .error .reservedCommand

/-! ## Format SEQ (R68, R69) -/

/-- The foreground step a 3-bit `fg_pc` code selects (R69). -/
def decodeSeq (c : BitVec 3) : Except DecodeError Instr :=
  if c = 0b000#3 then .ok .boot
  else if c = 0b001#3 then .ok .pollS1
  else if c = 0b010#3 then .ok .pollS2
  else if c = 0b011#3 then .ok .pollS2l
  else if c = 0b100#3 then .ok .pollS3
  else if c = 0b101#3 then .ok .pollS4
  else if c = 0b111#3 then .ok .haltWait
  else .error .unusedPhase

/-! ## Format CTRL (R70 to R74) -/

/-- The record a SETUP word packs (R71). -/
def unpackReq (w : BitVec 64) : CtrlReq where
  dir := w.extractLsb' 7 1
  typ := w.extractLsb' 5 2
  rcpt := w.extractLsb' 0 5
  code := w.extractLsb' 8 8
  value := w.extractLsb' 16 16
  index := w.extractLsb' 32 16
  length := w.extractLsb' 48 16

/-- The operation a control request is: `type` first, then the four recognised flows, then the explicit final case
(R73, R74). -/
def classify (p : Params) (r : CtrlReq) : Instr :=
  if r.typ = 0#2 then .cdcDelegateStandard r.body
  else if r.typ = 1#2 then .cdcDelegateClass r.body
  else if r.typ = 3#2 then .cdcDelegateReserved r.body
  else if r.dir = 1#1 ∧ r.rcpt = 0#5 ∧ r.code = p.webusbCode ∧ r.index = p.idxGetUrl then
    .getUrl r.value r.length
  else if r.dir = 1#1 ∧ r.rcpt = 0#5 ∧ r.code = p.msosCode ∧ r.index = p.idxMsosDesc then
    .getMsosDesc r.value r.length
  else if r.dir = 1#1 ∧ r.rcpt = 0#5 ∧ r.code = p.msosCode ∧ r.index = p.idxAltEnum then
    .setAltEnum r.value r.length
  else if r.dir = 0#1 ∧ r.rcpt = 0#5 ∧ r.code = p.webusbCode ∧ r.index = p.idxEnable then
    .setWebusbEnable r.value r.length
  else .vendorStall r.body

/-- The decoder: each route has its own format (R58). -/
def decode (p : Params) : OpWord → Except DecodeError Instr
  | .fcmd w => decodeFcmd w
  | .evt b => .ok (.uartRx b)
  | .seq c => decodeSeq c
  | .ctrl w => .ok (classify p (unpackReq w))
  | .load => .ok .load
  | .setAndCommit v => .ok (.setAndCommit v)
  | .reset => .ok .reset

/-! ## The encoder -/

/-- Bit 11 of an FCMD word (R59). -/
def bufBit : BufId → BitVec 1
  | .h2d => 0#1
  | .d2h => 1#1

/-- An FCMD word from its three fields, `f` highest (R59). -/
def fcmdWord (f : BufId) (op : BitVec 3) (data : Byte) : BitVec 12 := (bufBit f ++ op) ++ data

/-- The SETUP word of a request, `length` highest, `rcpt` lowest (R71). -/
def packReq (r : CtrlReq) : BitVec 64 :=
  r.length ++ (r.index ++ (r.value ++ (r.code ++ (r.dir ++ (r.typ ++ r.rcpt)))))

/-- The request that is a GET_URL with this `value` and `length` (R127). -/
def getUrlReq (p : Params) (value length : BitVec 16) : CtrlReq :=
  ⟨1#1, 2#2, 0#5, p.webusbCode, value, p.idxGetUrl, length⟩

/-- The request that is a GET_MSOS_DESC with this `value` and `length` (R128). -/
def getMsosDescReq (p : Params) (value length : BitVec 16) : CtrlReq :=
  ⟨1#1, 2#2, 0#5, p.msosCode, value, p.idxMsosDesc, length⟩

/-- The request that is a SET_ALT_ENUM with this `value` and `length` (R129). -/
def setAltEnumReq (p : Params) (value length : BitVec 16) : CtrlReq :=
  ⟨1#1, 2#2, 0#5, p.msosCode, value, p.idxAltEnum, length⟩

/-- The request that is a SET_WEBUSB_ENABLE with this `value` and `length` (R130). -/
def setWebusbEnableReq (p : Params) (value length : BitVec 16) : CtrlReq :=
  ⟨0#1, 2#2, 0#5, p.webusbCode, value, p.idxEnable, length⟩

/-- The word of an operation, by the tables of R59 to R61, R67 to R69 and R71. -/
def encode (p : Params) : Instr → OpWord
  | .init f => .fcmd (fcmdWord f 0#3 0#8)
  | .tryInsert f b => .fcmd (fcmdWord f 1#3 b)
  | .tryRemove f => .fcmd (fcmdWord f 2#3 0#8)
  | .peek f => .fcmd (fcmdWord f 3#3 0#8)
  | .count f => .fcmd (fcmdWord f 4#3 0#8)
  | .isFull f => .fcmd (fcmdWord f 5#3 0#8)
  | .isEmpty f => .fcmd (fcmdWord f 6#3 0#8)
  | .uartRx b => .evt b
  | .boot => .seq 0b000#3
  | .pollS1 => .seq 0b001#3
  | .pollS2 => .seq 0b010#3
  | .pollS2l => .seq 0b011#3
  | .pollS3 => .seq 0b100#3
  | .pollS4 => .seq 0b101#3
  | .load => .load
  | .setAndCommit v => .setAndCommit v
  | .haltWait => .seq 0b111#3
  | .reset => .reset
  | .getUrl value length => .ctrl (packReq (getUrlReq p value length))
  | .getMsosDesc value length => .ctrl (packReq (getMsosDescReq p value length))
  | .setAltEnum value length => .ctrl (packReq (setAltEnumReq p value length))
  | .setWebusbEnable value length => .ctrl (packReq (setWebusbEnableReq p value length))
  | .cdcDelegateStandard r => .ctrl (packReq (r.withType 0#2))
  | .cdcDelegateClass r => .ctrl (packReq (r.withType 1#2))
  | .cdcDelegateReserved r => .ctrl (packReq (r.withType 3#2))
  | .vendorStall r => .ctrl (packReq (r.withType 2#2))

/-! ## Words as the opcode table numbers them -/

/-- The operation word a table word of `nbits` bits stands for. The table does not say by which route a word comes,
so the number of bits must: more than 16 bits are a SETUP word, 9 to 16 an FCMD word. Of the one-byte words, 1 to 7
are `fg_pc` codes, the five first bytes that the CTRL rows fix stand for a SETUP word that is zero above them, and
every other byte is an EVT word (assumption log 13). DESIGN CHOICE. -/
def tableWord (nbits w : Nat) : Option OpWord :=
  if nbits = 0 then none
  else if 16 < nbits then some (.ctrl (BitVec.ofNat 64 w))
  else if 8 < nbits then (if w < 4096 then some (.fcmd (BitVec.ofNat 12 w)) else none)
  else if nbits ≤ 3 then some (.seq (BitVec.ofNat 3 w))
  else if 1 ≤ w ∧ w ≤ 7 then some (.seq (BitVec.ofNat 3 w))
  else if w = 0x00 ∨ w = 0x20 ∨ w = 0x40 ∨ w = 0x60 ∨ w = 0xC0 then some (.ctrl (BitVec.ofNat 64 w))
  else some (.evt (BitVec.ofNat 8 w))

/-- The instruction the decoder reads from a table word, with the parameters of the machine after reset. -/
def decodeTableWord (nbits w : Nat) : Option Instr :=
  match tableWord nbits w with
  | none => none
  | some o =>
    match decode Config.params o with
    | .ok i => some i
    | .error _ => none

end Sys2Proof
end

