-- ==== Sys2Proof/Machine/State.lean ====
section
/-! DEFINITION. The state of the block as plain data (10_state.md), the record of what it emitted and was given, the
reasons a step can stop, and the machine right after reset. -/

namespace Sys2Proof.Machine

open Sys2Proof

/-- The phases of the foreground sequencer, `fg_pc` (R21). -/
inductive Phase where
  | boot
  | s1
  | s2
  | s2l
  | s3
  | s4
  | halt
  deriving DecidableEq, Repr

/-- One Circular Byte Buffer (R13), and `inited`, which records its lifecycle (R20). -/
structure Buf where
  /-- `mem[f]`: the cells that have been written since the last RESET, by rising index (R31, R35). -/
  mem : List Host.Cell
  /-- `head[f]` (R14). -/
  head : Nat
  /-- `tail[f]` (R14). -/
  tail : Nat
  /-- `count[f]` (R14). -/
  count : Nat
  /-- `inited[f]` (R20). -/
  inited : Bool
  deriving DecidableEq, Repr

/-- The response to an FCMD (R62): `ok`, `val`, and the buffer whose port answered, which fixes the width. -/
structure Frsp where
  buf : BufId
  ok : Bool
  val : Nat
  deriving DecidableEq, Repr

/-- The three opaque payloads of R124. -/
inductive Payload where
  | urlDesc
  | msosFull
  | msosReduced
  deriving DecidableEq, Repr

/-- The outcomes of a dispatch (R123); `ACK` followed by SET_AND_COMMIT is `ack` and then the events of R115. -/
inductive CtrlOutcome where
  | payload (d : Payload)
  | ack
  | stall
  | delegateCdc
  deriving DecidableEq, Repr

/-- The events of the observable trace (R164). -/
inductive Event where
  /-- `UART_TX(b)` (R103). -/
  | uartTx (b : Byte)
  /-- `USB_IN(b)` (R102). -/
  | usbIn (b : Byte)
  /-- `CTRL(req, outcome)` (R123). -/
  | ctrl (r : CtrlReq) (o : CtrlOutcome)
  /-- `NV_WRITE(v)` (R115). -/
  | nvWrite (v : Bit)
  /-- `SHUTDOWN` (R115). -/
  | shutdown
  /-- `WDT_ARM` (R115). -/
  | wdtArm
  /-- `RESET` (R118). -/
  | reset
  deriving DecidableEq, Repr

/-- The inputs recorded beside the events: "`UART_RX(b)` with whether it was accepted, and each draw" (R164). -/
inductive Input where
  /-- `UART_RX(b)` and the result of its TRY_INSERT. -/
  | uartRx (b : Byte) (accepted : Bool)
  /-- The answer of `usb_read_byte()`. -/
  | usbRead (r : Option Byte)
  /-- The answer of `usb_in_ready()`. -/
  | usbReady (rdy : Bool)
  /-- The answer of `usb_send_byte(b)`, `true` for `ok`. -/
  | usbSend (ok : Bool)
  /-- The answer of `uart_send_ready()`. -/
  | uartReady (rdy : Bool)
  /-- The draw of R129 between `ACK` (`true`) and `STALL`. -/
  | altEnumAck (ack : Bool)
  deriving DecidableEq, Repr

/-- One entry of the model's record of a run. -/
inductive Record where
  | event (e : Event)
  | input (x : Input)
  deriving DecidableEq, Repr

/-- The collaborator answers that are already fixed, in the order in which the calls will get them (R12). Where a
list is empty the answer is a free value of Config. The MODEL's own: the answers are the environment's. -/
structure Answers where
  usbRead : List (Option Byte)
  usbReady : List Bool
  usbSend : List Bool
  uartReady : List Bool
  altEnumAck : List Bool
  deriving DecidableEq, Repr

/-- Everything the block holds (10_state.md), and after it the fields that are the MODEL's own. -/
structure State where
  /-- The parameters of 00_scope.md section 4: configuration, which no step writes (assumption log 1). -/
  params : Params
  /-- Buffer `H2D` (R13). -/
  h2d : Buf
  /-- Buffer `D2H` (R13). -/
  d2h : Buf
  /-- `mode_live` (R26): 0 is Plain, 1 is WebUSBEnabled. -/
  modeLive : Bit
  /-- `nv`, the non-volatile byte (R27). -/
  nv : Byte
  /-- `reset_pending` (R30): the transport is down and the watchdog armed while it is set. -/
  resetPending : Bool
  /-- `fg_pc` (R21). -/
  fgPc : Phase
  /-- `n_left` (R23). -/
  nLeft : Nat
  /-- The last response given at a buffer's port (R62); none before the first FCMD. -/
  frsp : Option Frsp
  /-- The agent that takes the current step: it decides the port of an FCMD (R63). -/
  agent : Agent
  /-- The stimuli already fixed, in order (R10, R162); where there is none the next one is a free value. -/
  stimuli : List Stimulus
  /-- The collaborator answers already fixed (R12). -/
  answers : Answers
  /-- How many free values have been drawn so far. -/
  draws : Nat
  /-- How many RESET steps there have been. -/
  resets : Nat
  /-- The record of the run, oldest first: the events of R164 and the inputs beside them. -/
  log : List Record
  deriving DecidableEq, Repr

/-- What the block reaches that the source forbids (R11). A fault is an outcome of the model and not of the hardware,
which detects none of these. -/
inductive Fault where
  /-- Raised by INIT, TRY_INSERT, TRY_REMOVE and PEEK for an agent that does not own the port (R87, R176). Safe: the
  model stops where the source promises nothing. -/
  | contractViolation (a : Agent) (f : BufId)
  /-- Raised by a memory access outside `0 .. CAP[f]-1`, which the block never issues (R40, R42). Safe: it is reached
  only from states no run reaches. -/
  | noSuchCell (f : BufId) (i : Nat)
  /-- Raised by POLL_S2L entered with `n_left = 0` or an empty `D2H`, which R102 excludes. Safe: it is reached only
  from states no run of the block's own agents reaches. -/
  | burstUnderrun
  deriving DecidableEq, Repr

/-- What the model gives no meaning to (R11); the state does not change. -/
inductive Refusal where
  /-- Raised by `exec` for an instruction not modelled yet. Safe. -/
  | notModelled (mnemonic : String)
  /-- Raised by the step for a reserved FCMD word (R65). Safe: the refusal is the spec's. -/
  | reservedCommand
  /-- Raised by the step for the `fg_pc` code that no phase has (R69). Safe: no state yields it. -/
  | unusedPhase
  /-- Raised by every buffer operation but INIT before INIT (R86). Safe: the refusal is the spec's. -/
  | notInitialised (f : BufId)
  /-- Raised by a second INIT before the next RESET (R86). Safe: the refusal is the spec's. -/
  | alreadyInitialised (f : BufId)
  /-- Raised by a step that is not enabled in this phase, or while a reset is in flight (R153, R169, U17, U18). Safe:
  the spec gives such a step no behaviour. -/
  | notEnabled
  /-- Raised by HALT_WAIT: `FG` "has no enabled step in `HALT`" (R117, U17). Safe: a stuck state. -/
  | stuckInHalt
  deriving DecidableEq, Repr

/-- A buffer before its first INIT: nothing written, not initialised. The zeros are the model's (log 3). -/
def Buf.reset : Buf := ⟨[], 0, 0, 0, false⟩

/-- No answer is fixed: every draw is free. -/
def Answers.none : Answers := ⟨[], [], [], [], []⟩

/-- The machine right after its first reset, before BOOT (R33, R36, R171): `fg_pc = BOOT`, `reset_pending = 0`,
`inited = 0` for both buffers, and `nv` never written. The registers the spec leaves unspecified are 0 (log 3). -/
def State.reset : State where
  params := Config.params
  h2d := Buf.reset
  d2h := Buf.reset
  modeLive := 0#1
  nv := 0x00#8
  resetPending := false
  fgPc := .boot
  nLeft := 0
  frsp := none
  agent := .fg
  stimuli := []
  answers := Answers.none
  draws := 0
  resets := 0
  log := []

/-- Buffer `f` of the state: the one home of its registers. -/
def State.buf (s : State) : BufId → Buf
  | .h2d => s.h2d
  | .d2h => s.d2h

/-- Buffer `f` replaced; the other untouched (R13: "no operation on one reads or writes the other"). -/
def State.setBuf (s : State) : BufId → Buf → State
  | .h2d, b => { s with h2d := b }
  | .d2h, b => { s with d2h := b }

end Sys2Proof.Machine
end

