-- ==== Sys2Proof/Machine/Operands.lean ====
section
/-! DEFINITION. Derived widths (R14, R62), codes (R69), parts of a control request (R72), and the addresses and
lengths the block computes (R92, R93, R99). -/

namespace Sys2Proof.Machine

open Sys2Proof

/-- `ceil(log2 n)` (R14), 0 for `n <= 1`. -/
def ceilLog2 (n : Nat) : Nat := if n ≤ 1 then 0 else Nat.log2 (n - 1) + 1

/-- `IDXW[f] = max(1, ceil(log2 CAP[f]))`, the width of `head[f]` and `tail[f]` (R14). -/
def idxWidth (p : Params) (f : BufId) : Nat := max 1 (ceilLog2 (p.cap f))

/-- `CNTW[f] = ceil(log2 (CAP[f]+1))`, the width of `count[f]` (R14). -/
def cntWidth (p : Params) (f : BufId) : Nat := ceilLog2 (p.cap f + 1)

/-- `RSPW[f] = max(8, CNTW[f])`, the width of a response's `val` (R62). -/
def rspWidth (p : Params) (f : BufId) : Nat := max 8 (cntWidth p f)

/-- The response packed as R62 says: `ok`, then `val`. -/
def frspWord (p : Params) (r : Frsp) : BitVec (1 + rspWidth p r.buf) :=
  BitVec.ofBool r.ok ++ BitVec.ofNat (rspWidth p r.buf) r.val

/-- The 3-bit code of a phase (R69). -/
def phaseCode : Phase → BitVec 3
  | .boot => 0b000#3
  | .s1 => 0b001#3
  | .s2 => 0b010#3
  | .s2l => 0b011#3
  | .s3 => 0b100#3
  | .s4 => 0b101#3
  | .halt => 0b111#3

/-- The phases of the running sequencer: `S1, S2, S2L, S3, S4` (R113, R139). -/
def Phase.running : Phase → Bool
  | .s1 | .s2 | .s2l | .s3 | .s4 => true
  | .boot | .halt => false

/-- `x + 1` modulo `CAP[f]`, the advance of `head` and `tail` (R92). -/
def nextIndex (p : Params) (f : BufId) (x : Nat) : Nat := (x + 1) % p.cap f

/-- `v = value[0]`, the desired mode of SET_WEBUSB_ENABLE (R72, R130). -/
def desiredMode (value : BitVec 16) : Bit := value.extractLsb' 0 1

/-- `value[15:8]`, the alternate-enumeration code of SET_ALT_ENUM (R72, R129). -/
def altCode (value : BitVec 16) : BitVec 8 := value.extractLsb' 8 8

/-- `nv[0]`, the significant bit of the non-volatile byte (R27, R112). -/
def nvMode (x : Byte) : Bit := x.extractLsb' 0 1

/-- `zext_8(v)`, the byte SET_AND_COMMIT persists (R115). -/
def nvByte (v : Bit) : Byte := v.zeroExtend 8

/-- The burst length `min(count, MAXPKT - 1)` (R99, R101). -/
def burstLength (p : Params) (count : Nat) : Nat := min count (p.maxPkt - 1)

/-- The producer of `f`: `FG` for `H2D`, `UISR` for `D2H` (R18). -/
def producer : BufId → Agent
  | .h2d => .fg
  | .d2h => .uisr

/-- The consumer of `f`: `FG` for both (R18). -/
def consumer : BufId → Agent
  | .h2d => .fg
  | .d2h => .fg

/-- Who may INIT `f`: the boot step's agent (R77, R96) and the producer port (R63). DEDUCED, log 10. -/
def mayInit (a : Agent) (f : BufId) : Bool := a == .fg || a == producer f

end Sys2Proof.Machine
end

