-- ==== Sys2Proof/Machine/Flags.lean ====
section
/-! DEFINITION. The two conditions of a buffer (R24): pure functions of `count`, with no storage of their own. No
operation leaves any other flag behind (R25). -/

namespace Sys2Proof.Machine

open Sys2Proof

/-- `empty(f) = (count[f] = 0)` (R24). -/
def State.empty (s : State) (f : BufId) : Bool := (s.buf f).count == 0

/-- `full(f) = (count[f] = CAP[f])` (R24). -/
def State.full (s : State) (f : BufId) : Bool := (s.buf f).count == s.params.cap f

end Sys2Proof.Machine
end

