-- ==== Sys2Proof/Machine/Ops.lean ====
section
/-! DEFINITION. The named operations over the memories, the registers, the collaborators and the record, and the
shared operations the meanings are made of: the seven buffer operations as the block itself calls them
(40_fifo_ops.md), LOAD and SET_AND_COMMIT (42_mode_state.md), the dispatch of a control request and the one `raise` of
the spec (43_control_dispatch.md). The block takes no trap: it saves nothing and returns from nothing (R155, R156). -/

namespace Sys2Proof.Machine

open Sys2Proof

/-! ## Results inside a step -/

/-- What an operation called inside a step answers: a value and the state, or the end of the step. -/
inductive Ret (α : Type) where
  | ok (a : α) (s : State)
  | fault (r : Fault)
  | refused (r : Refusal)

/-- Go on with the value and the state of an operation that completed. -/
def Ret.andThen {α β : Type} (x : Ret α) (k : α → State → Ret β) : Ret β :=
  match x with
  | .ok a s => k a s
  | .fault r => .fault r
  | .refused r => .refused r

/-- The outcome of a whole step (R11). -/
def Ret.finish (x : Ret Unit) : Host.Outcome State Fault Refusal :=
  match x with
  | .ok _ s => .next s
  | .fault r => .fault r
  | .refused r => .refused r

/-! ## The record (R164) -/

/-- `emit E` appends the event to the trace (00_scope.md section 6). -/
def State.emit (s : State) (e : Event) : State := { s with log := s.log ++ [.event e] }

/-- Note an input beside the events (R164). -/
def State.note (s : State) (x : Input) : State := { s with log := s.log ++ [.input x] }

/-- The event of a record, if it is one. -/
def Record.event? : Record → Option Event
  | .event e => some e
  | .input _ => none

/-- The observable trace: the events alone, oldest first (R164). -/
def State.trace (s : State) : List Event := s.log.filterMap Record.event?

/-! ## Memory (R40, R31): cells by rising index, each at most once -/

/-- The canonical form: strictly rising addresses. An unlisted address holds no value of its own, so no entry can
equal what an unlisted address reads as (log 4). -/
def Memory.wf : List Host.Cell → Bool
  | [] => true
  | [_] => true
  | c :: d :: rest => decide (c.1 < d.1) && Memory.wf (d :: rest)

/-- The byte at address `a`; none where nothing was written. -/
def Memory.read (m : List Host.Cell) (a : Nat) : Option Byte :=
  match m with
  | [] => none
  | c :: rest => if c.1 = a then some c.2 else Memory.read rest a

/-- The memory with byte `v` at address `a`, everything else unchanged. -/
def Memory.write (m : List Host.Cell) (a : Nat) (v : Byte) : List Host.Cell :=
  match m with
  | [] => [(a, v)]
  | c :: rest =>
    if a < c.1 then (a, v) :: c :: rest
    else if a = c.1 then (a, v) :: rest
    else c :: Memory.write rest a v

/-- Cell `i` of `mem[f]`: the byte last written there, or a free value since the last RESET (R35, U4). -/
def State.cell (s : State) (f : BufId) (i : Nat) : Byte :=
  (Memory.read (s.buf f).mem i).getD (Config.unwrittenCell s.resets f i)

/-- `MemRead(BUF[f]+i, 1)` (R40); there is no cell outside `0 .. CAP[f]-1` (R31). -/
def memRead (f : BufId) (i : Nat) (s : State) : Ret Byte :=
  if i < s.params.cap f then .ok (s.cell f i) s else .fault (.noSuchCell f i)

/-- `MemWrite(BUF[f]+i, 1, v)` (R40). -/
def memWrite (f : BufId) (i : Nat) (v : Byte) (s : State) : Ret Unit :=
  if i < s.params.cap f then
    .ok () (s.setBuf f { s.buf f with mem := Memory.write (s.buf f).mem i v })
  else .fault (.noSuchCell f i)

/-- `MemRead(NV+NV_ADDR, 1)` (R40). -/
def nvRead (s : State) : Byte := s.nv

/-- `MemWrite(NV+NV_ADDR, 1, v)` (R40). -/
def nvWrite (v : Byte) (s : State) : State := { s with nv := v }

/-! ## Collaborator answers (R12): the fixed answers in order, then free values -/

/-- The next answer: the first fixed one, or free value number `n`; with it the rest and the next number. -/
def nextAnswer {α : Type} (fixed : List α) (free : Nat → α) (n : Nat) : α × List α × Nat :=
  match fixed with
  | a :: rest => (a, rest, n)
  | [] => (free n, [], n + 1)

/-- `draw r <- usb_read_byte()` (R97). -/
def drawUsbRead (s : State) : Ret (Option Byte) :=
  let (r, rest, n) := nextAnswer s.answers.usbRead Config.usbRead s.draws
  .ok r ({ s with answers := { s.answers with usbRead := rest }, draws := n }.note (.usbRead r))

/-- `draw rdy <- usb_in_ready()` (R99). -/
def drawUsbReady (s : State) : Ret Bool :=
  let (r, rest, n) := nextAnswer s.answers.usbReady Config.usbReady s.draws
  .ok r ({ s with answers := { s.answers with usbReady := rest }, draws := n }.note (.usbReady r))

/-- `draw s <- usb_send_byte(b)` (R102); `true` is the source's `ok`. -/
def drawUsbSend (s : State) : Ret Bool :=
  let (r, rest, n) := nextAnswer s.answers.usbSend Config.usbSend s.draws
  .ok r ({ s with answers := { s.answers with usbSend := rest }, draws := n }.note (.usbSend r))

/-- `draw rdy <- uart_send_ready()` (R103). -/
def drawUartReady (s : State) : Ret Bool :=
  let (r, rest, n) := nextAnswer s.answers.uartReady Config.uartReady s.draws
  .ok r ({ s with answers := { s.answers with uartReady := rest }, draws := n }.note (.uartReady r))

/-- `draw outcome in {ACK, STALL}` (R129); `true` is `ACK`. -/
def drawAltEnumAck (s : State) : Ret Bool :=
  let (r, rest, n) := nextAnswer s.answers.altEnumAck Config.altEnumAck s.draws
  .ok r ({ s with answers := { s.answers with altEnumAck := rest }, draws := n }.note (.altEnumAck r))

/-! ## The buffer operations, issued by agent `a` (R76)
The checks come in the order of R144: lifecycle (R86), then ownership (R87). -/

/-- INIT (R77): `head`, `tail` and `count` become 0; no cell is written. -/
def initBuf (a : Agent) (f : BufId) (s : State) : Ret Unit :=
  if (s.buf f).inited then .refused (.alreadyInitialised f)
  else if !mayInit a f then .fault (.contractViolation a f)
  else .ok () (s.setBuf f { s.buf f with head := 0, tail := 0, count := 0, inited := true })

/-- The insertion into a buffer that is not full (R78): the cell first, `count` last (R47). -/
def insertByte (f : BufId) (b : Byte) (s : State) : Ret Bool :=
  (memWrite f (s.buf f).tail b s).andThen fun _ s =>
    .ok true (s.setBuf f { s.buf f with
      tail := nextIndex s.params f (s.buf f).tail, count := (s.buf f).count + 1 })

/-- TRY_INSERT (R78): "fails (returns false, no mutation) if full". -/
def tryInsert (a : Agent) (f : BufId) (b : Byte) (s : State) : Ret Bool :=
  if !(s.buf f).inited then .refused (.notInitialised f)
  else if a ≠ producer f then .fault (.contractViolation a f)
  else if s.full f then .ok false s
  else insertByte f b s

/-- The removal from a buffer that is not empty (R79): the cell is read first, `count` falls last (R47). -/
def removeByte (f : BufId) (s : State) : Ret (Option Byte) :=
  (memRead f (s.buf f).head s).andThen fun b s =>
    .ok (some b) (s.setBuf f { s.buf f with
      head := nextIndex s.params f (s.buf f).head, count := (s.buf f).count - 1 })

/-- TRY_REMOVE (R79): "fails if empty". -/
def tryRemove (a : Agent) (f : BufId) (s : State) : Ret (Option Byte) :=
  if !(s.buf f).inited then .refused (.notInitialised f)
  else if a ≠ consumer f then .fault (.contractViolation a f)
  else if s.empty f then .ok none s
  else removeByte f s

/-- PEEK (R80): "like remove but non-destructive". -/
def peekBuf (a : Agent) (f : BufId) (s : State) : Ret (Option Byte) :=
  if !(s.buf f).inited then .refused (.notInitialised f)
  else if a ≠ consumer f then .fault (.contractViolation a f)
  else if s.empty f then .ok none s
  else (memRead f (s.buf f).head s).andThen fun b s => .ok (some b) s

/-- COUNT (R81); any agent may ask (R63). -/
def countBuf (f : BufId) (s : State) : Ret Nat :=
  if !(s.buf f).inited then .refused (.notInitialised f) else .ok (s.buf f).count s

/-- IS_FULL (R82); any agent may ask (R63). -/
def isFullBuf (f : BufId) (s : State) : Ret Bool :=
  if !(s.buf f).inited then .refused (.notInitialised f) else .ok (s.full f) s

/-- IS_EMPTY (R83); any agent may ask (R63). -/
def isEmptyBuf (f : BufId) (s : State) : Ret Bool :=
  if !(s.buf f).inited then .refused (.notInitialised f) else .ok (s.empty f) s

/-- Answer an FCMD at a port of `f` (R62). -/
def respond (f : BufId) (ok : Bool) (val : Nat) (s : State) : Ret Unit :=
  .ok () { s with frsp := some ⟨f, ok, val⟩ }

/-- The response for an optional byte: `ok=1, val=zext(b)`, or `ok=0, val=0` (R62). -/
def respondByte (f : BufId) (r : Option Byte) (s : State) : Ret Unit :=
  match r with
  | some b => respond f true b.toNat s
  | none => respond f false 0 s

/-- The response for a predicate: `ok=1`, `val` 1 or 0 (R62). -/
def respondBool (f : BufId) (b : Bool) (s : State) : Ret Unit := respond f true b.toNat s

/-! ## The sequencer (R22) -/

/-- `fg_pc <- p`. -/
def goto (p : Phase) (s : State) : Ret Unit := .ok () { s with fgPc := p }

/-- A foreground step is selected by its phase (R69, R153); in any other phase it is not enabled. -/
def inPhase (p : Phase) (s : State) (k : Ret Unit) : Ret Unit :=
  if s.fgPc = p then k else .refused .notEnabled

/-! ## The mode (42_mode_state.md) -/

/-- LOAD, with the caller's store of the result in `mode_live` (R112, R43). -/
def loadMode (s : State) : State := { s with modeLive := nvMode (nvRead s) }

/-- The commit of a changed mode (R115), in the order of R116: the live value, the persistent write, the transport
shutdown, the watchdog. -/
def commitMode (v : Bit) (s : State) : State :=
  let s := { s with modeLive := v }
  let s := (nvWrite (nvByte v) s).emit (.nvWrite v)
  let s := (s.emit .shutdown).emit .wdtArm
  { s with resetPending := true, fgPc := .halt }

/-- A control request, or a commit, can be served: the transport is up and the sequencer runs (R113, R139). -/
def State.serving (s : State) : Bool := !s.resetPending && s.fgPc.running

/-- SET_AND_COMMIT (R113): a no-op for the current value (R114), the commit for the other (R115). -/
def setAndCommit (v : Bit) (s : State) : Ret Unit :=
  if !s.serving then .refused .notEnabled
  else if v = s.modeLive then .ok () s
  else .ok () (commitMode v s)

/-- RESET (R118): only `nv` survives (R167); every register it does not set is a free value of its width (R33, U11),
and so is every cell of both buffers (R35). -/
def resetMachine (s : State) : State :=
  let n := s.resets
  let buf (f : BufId) : Buf :=
    { mem := []
      head := Config.headAfterReset n f % 2 ^ idxWidth s.params f
      tail := Config.tailAfterReset n f % 2 ^ idxWidth s.params f
      count := Config.countAfterReset n f % 2 ^ cntWidth s.params f
      inited := false }
  { s.emit .reset with
    h2d := buf .h2d
    d2h := buf .d2h
    modeLive := Config.modeAfterReset n
    nLeft := Config.nLeftAfterReset n % 2 ^ cntWidth s.params .d2h
    resetPending := false
    fgPc := .boot
    resets := n + 1 }

/-- What the transport's descriptor lookup reads during enumeration: the current mode (R121). -/
def descriptorMode (s : State) : Bit := s.modeLive

/-! ## The dispatcher (43_control_dispatch.md) -/

/-- A dispatch is a step of `FG`, enabled while the block serves requests (R139). -/
def whenServing (s : State) (k : Ret Unit) : Ret Unit :=
  if s.serving then k else .refused .notEnabled

/-- End the dispatch of `req` with outcome `o`: one event `CTRL(req, outcome)` (R123). -/
def conclude (req : CtrlReq) (o : CtrlOutcome) (s : State) : Ret Unit := .ok () (s.emit (.ctrl req o))

/-- `raise Stall(req)`: the only raise of the spec. Nothing is saved, no mode changes, control goes nowhere, and there
is no return (R137, R155, R156). -/
def raiseStall (req : CtrlReq) (s : State) : Ret Unit := conclude req .stall s

/-! ## The periodic timer -/

/-- The timer interrupt's step changes nothing of this block (R148, D26). -/
def timerTick (s : State) : State := s

end Sys2Proof.Machine
end

