-- ==== Sys2Proof/Machine/Bridge.lean ====
section
/-! DEFINITION. The Serial Bridge Engine (41_bridge_engine.md): the UART receive interrupt, the boot step and the poll
sequencer. Each is one atomic step (R105). -/

namespace Sys2Proof.Machine

open Sys2Proof

/-- UART_RX (R95): one TRY_INSERT at the producer port of `D2H`, its result discarded; the byte is lost if `D2H` is
full, without record in the state of the block. Not enabled before BOOT is done (R153, R169). -/
def execUartRx (b : Byte) (s : State) : Host.Outcome State Fault Refusal :=
  (if s.fgPc = .boot then .refused .notEnabled
   else (tryInsert .uisr .d2h b s).andThen fun r s => .ok () (s.note (.uartRx b r))).finish

/-- BOOT (R96): both buffers are created empty and the mode is loaded. -/
def execBoot (s : State) : Host.Outcome State Fault Refusal :=
  (inPhase .boot s <|
    (initBuf .fg .h2d s).andThen fun _ s =>
    (initBuf .fg .d2h s).andThen fun _ s =>
    goto .s1 (loadMode s)).finish

/-- POLL_S1 (R97, R98): at most one byte from USB OUT into `H2D`; nothing is read while `H2D` is full. -/
def execPollS1 (s : State) : Host.Outcome State Fault Refusal :=
  (inPhase .s1 s <|
    (isFullBuf .h2d s).andThen fun full s =>
    if full then goto .s2 s
    else (drawUsbRead s).andThen fun r s =>
      match r with
      | none => goto .s2 s
      | some b => (tryInsert .fg .h2d b s).andThen fun _ s => goto .s2 s).finish

/-- POLL_S2 (R99, R100): the burst decision. -/
def execPollS2 (s : State) : Host.Outcome State Fault Refusal :=
  (inPhase .s2 s <|
    (isEmptyBuf .d2h s).andThen fun empty s =>
    if empty then goto .s3 s
    else (drawUsbReady s).andThen fun rdy s =>
      if !rdy then goto .s3 s
      else (countBuf .d2h s).andThen fun k s =>
        let n := burstLength s.params k
        goto (if n = 0 then .s3 else .s2l) { s with nLeft := n }).finish

/-- POLL_S2L (R102): peek, send, and remove only what was sent. -/
def execPollS2l (s : State) : Host.Outcome State Fault Refusal :=
  (inPhase .s2l s <|
    if s.nLeft = 0 then .fault .burstUnderrun
    else (peekBuf .fg .d2h s).andThen fun r s =>
      match r with
      | none => .fault .burstUnderrun
      | some b => (drawUsbSend s).andThen fun sent s =>
        if sent then
          (tryRemove .fg .d2h s).andThen fun _ s =>
          let n := s.nLeft - 1
          goto (if n = 0 then .s3 else .s2l) { s.emit (.usbIn b) with nLeft := n }
        else goto .s3 s).finish

/-- POLL_S3 (R103): at most one byte from `H2D` into the UART; the hand-off cannot fail. -/
def execPollS3 (s : State) : Host.Outcome State Fault Refusal :=
  (inPhase .s3 s <|
    (drawUartReady s).andThen fun rdy s =>
    (isEmptyBuf .h2d s).andThen fun empty s =>
    if !empty && rdy then
      (tryRemove .fg .h2d s).andThen fun r s =>
      match r with
      | none => goto .s4 s
      | some b => goto .s4 (s.emit (.uartTx b))
    else goto .s4 s).finish

/-- POLL_S4 (R104): the housekeeping call has no effect on this block's state. -/
def execPollS4 (s : State) : Host.Outcome State Fault Refusal :=
  (inPhase .s4 s <| goto .s1 s).finish

end Sys2Proof.Machine
end

