-- ==== Sys2Proof/Machine/Control.lean ====
section
/-! DEFINITION. The control-request flows (43_control_dispatch.md). Each is a step of `FG` enabled while the block
serves requests (R139), and produces exactly one outcome (R123). `length` is examined by none (R135). -/

namespace Sys2Proof.Machine

open Sys2Proof

/-- GET_URL (R127): the one configured landing page, any other index stalls. -/
def execGetUrl (value length : BitVec 16) (s : State) : Host.Outcome State Fault Refusal :=
  (whenServing s <|
    let req := getUrlReq s.params value length
    if value = s.params.landingPage then conclude req (.payload .urlDesc) s else raiseStall req s).finish

/-- GET_MSOS_DESC (R128): the reduced set in WebUSB mode, the full set otherwise. -/
def execGetMsosDesc (value length : BitVec 16) (s : State) : Host.Outcome State Fault Refusal :=
  (whenServing s <|
    let req := getMsosDescReq s.params value length
    if s.modeLive = 1#1 then conclude req (.payload .msosReduced) s
    else conclude req (.payload .msosFull) s).finish

/-- SET_ALT_ENUM (R129): completes if the code matches, or, with `ALT_ENUM_FALLTHROUGH`, as the draw says. -/
def execSetAltEnum (value length : BitVec 16) (s : State) : Host.Outcome State Fault Refusal :=
  (whenServing s <|
    let req := setAltEnumReq s.params value length
    if altCode value = s.params.altEnumCode then
      if s.params.altEnumFallthrough then
        (drawAltEnumAck s).andThen fun ack s => conclude req (if ack then .ack else .stall) s
      else conclude req .ack s
    else raiseStall req s).finish

/-- SET_WEBUSB_ENABLE (R130): the status stage completes first, then SET_AND_COMMIT of `value[0]`. -/
def execSetWebusbEnable (value length : BitVec 16) (s : State) : Host.Outcome State Fault Refusal :=
  (whenServing s <|
    (conclude (setWebusbEnableReq s.params value length) .ack s).andThen fun _ s =>
    setAndCommit (desiredMode value) s).finish

/-- CDC_DELEGATE of a standard request (R136): handed on unexamined. -/
def execCdcDelegateStandard (r : CtrlBody) (s : State) : Host.Outcome State Fault Refusal :=
  (whenServing s <| conclude (r.withType 0#2) .delegateCdc s).finish

/-- CDC_DELEGATE of a class request (R136). -/
def execCdcDelegateClass (r : CtrlBody) (s : State) : Host.Outcome State Fault Refusal :=
  (whenServing s <| conclude (r.withType 1#2) .delegateCdc s).finish

/-- CDC_DELEGATE of a request with the reserved type (R136, R74). -/
def execCdcDelegateReserved (r : CtrlBody) (s : State) : Host.Outcome State Fault Refusal :=
  (whenServing s <| conclude (r.withType 3#2) .delegateCdc s).finish

/-- VENDOR_STALL (R131): the explicit final case. -/
def execVendorStall (r : CtrlBody) (s : State) : Host.Outcome State Fault Refusal :=
  (whenServing s <| raiseStall (r.withType 2#2) s).finish

end Sys2Proof.Machine
end

