-- ==== Sys2Proof/Machine/Fifo.lean ====
section
/-! DEFINITION. The seven buffer operations as commands at a port (40_fifo_ops.md): the agent that takes the step is
the issuer, and each command answers with one response (R62, R63). -/

namespace Sys2Proof.Machine

open Sys2Proof

/-- INIT (R77): `ok=1, val=0`. -/
def execInit (f : BufId) (s : State) : Host.Outcome State Fault Refusal :=
  ((initBuf s.agent f s).andThen fun _ s => respond f true 0 s).finish

/-- TRY_INSERT (R78): `ok` is the source's Boolean. -/
def execTryInsert (f : BufId) (b : Byte) (s : State) : Host.Outcome State Fault Refusal :=
  ((tryInsert s.agent f b s).andThen fun r s => respond f r 0 s).finish

/-- TRY_REMOVE (R79). -/
def execTryRemove (f : BufId) (s : State) : Host.Outcome State Fault Refusal :=
  ((tryRemove s.agent f s).andThen fun r s => respondByte f r s).finish

/-- PEEK (R80). -/
def execPeek (f : BufId) (s : State) : Host.Outcome State Fault Refusal :=
  ((peekBuf s.agent f s).andThen fun r s => respondByte f r s).finish

/-- COUNT (R81). -/
def execCount (f : BufId) (s : State) : Host.Outcome State Fault Refusal :=
  ((countBuf f s).andThen fun k s => respond f true k s).finish

/-- IS_FULL (R82). -/
def execIsFull (f : BufId) (s : State) : Host.Outcome State Fault Refusal :=
  ((isFullBuf f s).andThen fun r s => respondBool f r s).finish

/-- IS_EMPTY (R83). -/
def execIsEmpty (f : BufId) (s : State) : Host.Outcome State Fault Refusal :=
  ((isEmptyBuf f s).andThen fun r s => respondBool f r s).finish

end Sys2Proof.Machine
end

