-- ==== Sys2Proof/Machine/Mode.lean ====
section
/-! DEFINITION. The Device Mode State operations, the terminal wait and the reset (42_mode_state.md). -/

namespace Sys2Proof.Machine

open Sys2Proof

/-- LOAD (R112): `mode_live <- nv[0]`, enabled in the boot phase. -/
def execLoad (s : State) : Host.Outcome State Fault Refusal :=
  (inPhase .boot s <| .ok () (loadMode s)).finish

/-- SET_AND_COMMIT (R113 to R116). -/
def execSetAndCommit (v : Bit) (s : State) : Host.Outcome State Fault Refusal := (setAndCommit v s).finish

/-- HALT_WAIT (R117): "Enabled when: never". In `HALT` the foreground is stuck; in any other phase the operation is not
the one `fg_pc` selects. -/
def execHaltWait (s : State) : Host.Outcome State Fault Refusal :=
  if s.fgPc = .halt then .refused .stuckInHalt else .refused .notEnabled

/-- RESET (R118): enabled at any time, as the armed watchdog's or as a power-on reset (R166). -/
def execReset (s : State) : Host.Outcome State Fault Refusal := .next (resetMachine s)

end Sys2Proof.Machine
end

