-- ==== Sys2Proof/Machine/Dispatch.lean ====
section
/-! DEFINITION. The meaning of every instruction: one direct call per constructor. -/

namespace Sys2Proof.Machine

open Sys2Proof

def exec (i : Instr) (s : State) : Host.Outcome State Fault Refusal :=
  match i with
  | .init f => Sys2Proof.Machine.execInit f s
  | .tryInsert f b => Sys2Proof.Machine.execTryInsert f b s
  | .tryRemove f => Sys2Proof.Machine.execTryRemove f s
  | .peek f => Sys2Proof.Machine.execPeek f s
  | .count f => Sys2Proof.Machine.execCount f s
  | .isFull f => Sys2Proof.Machine.execIsFull f s
  | .isEmpty f => Sys2Proof.Machine.execIsEmpty f s
  | .uartRx b => Sys2Proof.Machine.execUartRx b s
  | .boot => Sys2Proof.Machine.execBoot s
  | .pollS1 => Sys2Proof.Machine.execPollS1 s
  | .pollS2 => Sys2Proof.Machine.execPollS2 s
  | .pollS2l => Sys2Proof.Machine.execPollS2l s
  | .pollS3 => Sys2Proof.Machine.execPollS3 s
  | .pollS4 => Sys2Proof.Machine.execPollS4 s
  | .load => Sys2Proof.Machine.execLoad s
  | .setAndCommit v => Sys2Proof.Machine.execSetAndCommit v s
  | .haltWait => Sys2Proof.Machine.execHaltWait s
  | .reset => Sys2Proof.Machine.execReset s
  | .getUrl value length => Sys2Proof.Machine.execGetUrl value length s
  | .getMsosDesc value length => Sys2Proof.Machine.execGetMsosDesc value length s
  | .setAltEnum value length => Sys2Proof.Machine.execSetAltEnum value length s
  | .setWebusbEnable value length => Sys2Proof.Machine.execSetWebusbEnable value length s
  | .cdcDelegateStandard r => Sys2Proof.Machine.execCdcDelegateStandard r s
  | .cdcDelegateClass r => Sys2Proof.Machine.execCdcDelegateClass r s
  | .cdcDelegateReserved r => Sys2Proof.Machine.execCdcDelegateReserved r s
  | .vendorStall r => Sys2Proof.Machine.execVendorStall r s

end Sys2Proof.Machine
end

