-- ==== Sys2Proof/Machine/Fetch.lean ====
section
/-! DEFINITION. How the next step is chosen and its operation fetched (R10, R153, R162). The block has no program
counter and fetches no instructions (R21, R56): a step runs the operation that the next stimulus brings, and a
foreground step the operation that `fg_pc` selects. -/

namespace Sys2Proof.Machine

open Sys2Proof

/-- When each agent has an enabled step (R153). A buffer operation from outside is never among the free choices: the
environment is assumed never to issue one (R163). -/
def State.enables (s : State) : Stimulus → Bool
  | .fg => s.fgPc != .halt
  | .uartRx _ => s.fgPc != .boot
  | .timer => s.fgPc != .boot
  | .setup _ => s.serving
  | .reset => true
  | .fcmd _ _ => false

/-- The agent that takes the step. A control request is a draw consumed by a step of `FG` (R139, R149). -/
def stimulusAgent : Stimulus → Agent
  | .fg => .fg
  | .uartRx _ => .uisr
  | .timer => .tisr
  | .setup _ => .fg
  | .reset => .rst
  | .fcmd a _ => a

/-- The RESET that a commit owes is due: weak fairness of `RST`, "when `reset_pending = 1`, the RESET step is eventually
taken" (R118 (c), R184). Every free choice raises `draws`, so it passes the free bound of this boot after finitely many
of them, and before that any other enabled step may come (assumption log 29). -/
def State.resetDue (s : State) : Bool := s.resetPending && decide (Config.resetDueBy s.resets ≤ s.draws)

/-- A free choice among the enabled steps (R10, R151): the RESET that is due; else the one Config draws if it is enabled;
and otherwise the foreground's, or in `HALT` the reset that is owed (R165). -/
def freeStimulus (s : State) : Stimulus :=
  if s.resetDue then .reset
  else if s.enables (Config.schedule s.draws) then Config.schedule s.draws
  else if s.fgPc = .halt then .reset else .fg

/-- The next stimulus, and the state with it taken: the first one listed, or a free choice. -/
def nextStimulus (s : State) : Stimulus × State :=
  match s.stimuli with
  | c :: rest => (c, { s with stimuli := rest, agent := stimulusAgent c })
  | [] => (freeStimulus s, { s with draws := s.draws + 1, agent := stimulusAgent (freeStimulus s) })

/-- The word of the operation a stimulus brings; the timer brings none (R67, R148). -/
def fetchWord (c : Stimulus) (s : State) : Option OpWord :=
  match c with
  | .fg => some (.seq (phaseCode s.fgPc))
  | .uartRx b => some (.evt b)
  | .timer => none
  | .setup w => some (.ctrl w)
  | .reset => some .reset
  | .fcmd _ w => some (.fcmd w)

/-- A word that is no operation is refused by name (R65, R69). -/
def refuseWord : DecodeError → Refusal
  | .reservedCommand => .reservedCommand
  | .unusedPhase => .unusedPhase

/-- Run the operation a word stands for. -/
def runWord (w : OpWord) (s : State) : Host.Outcome State Fault Refusal :=
  match decode s.params w with
  | .ok i => exec i s
  | .error e => .refused (refuseWord e)

/-- The timer interrupt's step, enabled once BOOT is done (R148, R153). -/
def runTimer (s : State) : Host.Outcome State Fault Refusal :=
  if s.fgPc = .boot then .refused .notEnabled else .next (timerTick s)

/-- The step of a stimulus. -/
def runStimulus (c : Stimulus) (s : State) : Host.Outcome State Fault Refusal :=
  match fetchWord c s with
  | some w => runWord w s
  | none => runTimer s

/-! ## Placing one operation so that the next step runs it (assumption log 13) -/

/-- Past BOOT: a machine still in its boot phase takes the BOOT step, since every other operation follows it (R168). -/
def State.afterBoot (s : State) : State :=
  if s.fgPc = .boot then
    match execBoot s with
    | .next t => t
    | .fault _ => s
    | .refused _ => s
  else s

/-- The agent whose port accepts an FCMD: the consumer for TRY_REMOVE and PEEK, `FG` for INIT, the producer otherwise
(R63, R77). -/
def portAgent (w : BitVec 12) : Agent :=
  if fcmdOp w = 0#3 then .fg
  else if fcmdOp w = 2#3 ∨ fcmdOp w = 3#3 then consumer (fcmdBuf w)
  else producer (fcmdBuf w)

/-- The sequencer in phase `p`, with what entering it presupposes: before BOOT neither buffer is initialised (R33), a
burst is entered with a byte to send (R102), and `HALT` with a reset in flight (R30). -/
def State.inPhaseForFetch (s : State) (p : Phase) : State :=
  match p with
  | .boot =>
    { s with
      fgPc := .boot, resetPending := false
      h2d := { s.h2d with inited := false }, d2h := { s.d2h with inited := false } }
  | .s2l =>
    let t := s.afterBoot
    if t.d2h.count = 0 then
      { t with
        fgPc := .s2l, nLeft := 1
        d2h := { t.d2h with mem := [(0, 0x00#8)], head := 0, tail := nextIndex t.params .d2h 0, count := 1 } }
    else { t with fgPc := .s2l, nLeft := 1 }
  | .halt => { s.afterBoot with fgPc := .halt, resetPending := true }
  | .s1 => { s.afterBoot with fgPc := .s1 }
  | .s2 => { s.afterBoot with fgPc := .s2 }
  | .s3 => { s.afterBoot with fgPc := .s3 }
  | .s4 => { s.afterBoot with fgPc := .s4 }

/-- The phase a 3-bit code names; the unused code leaves the phase as it is (R69). -/
def phaseOfCode (c : BitVec 3) (s : State) : Phase :=
  if c = 0b000#3 then .boot
  else if c = 0b001#3 then .s1
  else if c = 0b010#3 then .s2
  else if c = 0b011#3 then .s2l
  else if c = 0b100#3 then .s3
  else if c = 0b101#3 then .s4
  else if c = 0b111#3 then .halt
  else s.fgPc

/-- The state whose next step runs the operation of `w`. LOAD and SET_AND_COMMIT are invoked from inside other steps
only and cannot be placed (R68). -/
def State.placeWord (s : State) (w : OpWord) : State :=
  match w with
  | .fcmd w =>
    if fcmdOp w = 0#3 then { s with stimuli := .fcmd (portAgent w) w :: s.stimuli }
    else { s.afterBoot with stimuli := .fcmd (portAgent w) w :: s.stimuli }
  | .evt b => { s.afterBoot with stimuli := .uartRx b :: s.stimuli }
  | .ctrl w => { s.afterBoot with stimuli := .setup w :: s.stimuli }
  | .seq c => { s.inPhaseForFetch (phaseOfCode c s) with stimuli := .fg :: s.stimuli }
  | .reset => { s with stimuli := .reset :: s.stimuli }
  | .load => s
  | .setAndCommit _ => s

/-- The state whose next step runs the operation of a table word, where the table word stands for one. -/
def State.placeTableWord (s : State) (nbits w : Nat) : State :=
  match tableWord nbits w with
  | some o => s.placeWord o
  | none => s

end Sys2Proof.Machine
end

