-- ==== Sys2Proof/Machine/Step.lean ====
section
/-! DEFINITION. One step of the machine: the next stimulus is taken, its operation fetched, decoded and run. -/

namespace Sys2Proof.Machine

open Sys2Proof

/-- One atomic step of one agent (R10). -/
def step (s : State) : Host.Outcome State Fault Refusal :=
  runStimulus (nextStimulus s).1 (nextStimulus s).2

/-- `s` with the operation of a table word placed where `step` takes its next one. -/
def State.withFetchWord (s : State) (nbits w : Nat) : State := s.placeTableWord nbits w

end Sys2Proof.Machine
end

