-- ==== Sys2Proof/Safety.lean ====
section
/-! DEFINITION. The terms in which claims about the block are stated: the abstract contents of a buffer (R19), the
invariants of 10_state.md, the streams of R107, sequences of buffer operations (R88), and the dispatch table of R125 as
the table is printed. -/

namespace Sys2Proof.Machine

open Sys2Proof

/-! ## Buffers -/

/-- `contents(f)`, oldest byte first (R19). -/
def State.contents (s : State) (f : BufId) : List Byte :=
  (List.range (s.buf f).count).map fun i => s.cell f (((s.buf f).head + i) % s.params.cap f)

/-- A buffer's invariant under capacity `cap`: its memory is canonical and within `0 .. cap-1` (R31), and once it is
initialised the registers are in range (R14, R15), `tail` is the insertion point (R16), and every cell of the occupied
window has been written (R35). -/
structure Buf.Ok (cap : Nat) (b : Buf) : Prop where
  canonical : Memory.wf b.mem = true
  within : ∀ c ∈ b.mem, c.1 < cap
  head_lt : b.inited = true → b.head < cap
  count_le : b.inited = true → b.count ≤ cap
  tail_eq : b.inited = true → b.tail = (b.head + b.count) % cap
  written : b.inited = true → ∀ i < b.count, (Memory.read b.mem ((b.head + i) % cap)).isSome = true

/-- The invariant every step keeps: the parameters meet their constraints (R4, R5, R8), both buffers theirs, both are
initialised in every phase but `BOOT` (R34), `mode_live = nv[0]` in every phase but `BOOT` (R28), and a reset is in
flight exactly in `HALT` (R30). -/
structure State.Inv (s : State) : Prop where
  params : s.params.Valid
  bufs : ∀ f, (s.buf f).Ok (s.params.cap f)
  inited : s.fgPc ≠ .boot → ∀ f, (s.buf f).inited = true
  mode : s.fgPc ≠ .boot → s.modeLive = nvMode s.nv
  halted : s.resetPending = true ↔ s.fgPc = .halt

/-- What holds besides as long as no agent outside the block issues buffer operations (R163): before BOOT neither buffer
is initialised (R33), and in a burst there is a byte left to send, the buffer holds all that are left, and they are at
most `MAXPKT - 1` (R23, R101, R102). -/
structure State.OwnInv (s : State) : Prop where
  boot : s.fgPc = .boot → ∀ f, (s.buf f).inited = false
  burst : s.fgPc = .s2l → 1 ≤ s.nLeft ∧ s.nLeft ≤ s.d2h.count ∧ s.nLeft ≤ s.params.maxPkt - 1

/-- Every register fits the width R14 gives it. -/
def State.FitsWidths (s : State) : Prop :=
  (∀ f, (s.buf f).head < 2 ^ idxWidth s.params f ∧ (s.buf f).tail < 2 ^ idxWidth s.params f ∧
    (s.buf f).count < 2 ^ cntWidth s.params f) ∧
  s.nLeft < 2 ^ cntWidth s.params .d2h

/-! ## The register-level results of R77 to R79 -/

/-- The state after INIT of `f` (R77): `head`, `tail`, `count` 0, `inited` 1, no cell written. -/
def State.afterInit (s : State) (f : BufId) : State :=
  s.setBuf f { mem := (s.buf f).mem, head := 0, tail := 0, count := 0, inited := true }

/-- The state after an accepted TRY_INSERT (R78): the byte in the cell at `tail`, `tail` advanced, `count` raised. -/
def State.afterInsert (s : State) (f : BufId) (b : Byte) : State :=
  s.setBuf f
    { mem := Memory.write (s.buf f).mem (s.buf f).tail b
      head := (s.buf f).head
      tail := ((s.buf f).tail + 1) % s.params.cap f
      count := (s.buf f).count + 1
      inited := (s.buf f).inited }

/-- The state after an accepted TRY_REMOVE (R79): `head` advanced, `count` lowered, the cell kept. -/
def State.afterRemove (s : State) (f : BufId) : State :=
  s.setBuf f
    { mem := (s.buf f).mem
      head := ((s.buf f).head + 1) % s.params.cap f
      tail := (s.buf f).tail
      count := (s.buf f).count - 1
      inited := (s.buf f).inited }

/-! ## Streams, per boot (R107) -/

/-- The records after the last RESET. -/
def sinceReset (log : List Record) : List Record :=
  log.foldl (fun acc r => if r = .event .reset then [] else acc ++ [r]) []

/-- The byte of a record that `usb_read_byte()` answered `Some b`. -/
def usbReadByte? : Record → Option Byte
  | .input (.usbRead r) => r
  | _ => none

/-- The byte of an event `UART_TX(b)`. -/
def uartTxByte? : Record → Option Byte
  | .event (.uartTx b) => some b
  | _ => none

/-- The byte of a `UART_RX` whose TRY_INSERT returned `true`. -/
def acceptedRxByte? : Record → Option Byte
  | .input (.uartRx b accepted) => if accepted then some b else none
  | _ => none

/-- The byte of an event `USB_IN(b)`. -/
def usbInByte? : Record → Option Byte
  | .event (.usbIn b) => some b
  | _ => none

/-- The bytes of one kind in this boot, oldest first. -/
def State.bytesOf (s : State) (kind : Record → Option Byte) : List Byte := (sinceReset s.log).filterMap kind

/-- What has entered each buffer in this boot is what has left it, followed by what it holds (R107): host to device,
the bytes read from USB OUT against the UART bytes; device to host, the accepted UART bytes against the USB IN bytes. -/
structure State.Streams (s : State) : Prop where
  h2d : s.h2d.inited = true → s.bytesOf usbReadByte? = s.bytesOf uartTxByte? ++ s.contents .h2d
  h2d_fresh : s.h2d.inited = false → s.bytesOf usbReadByte? = [] ∧ s.bytesOf uartTxByte? = []
  d2h : s.d2h.inited = true → s.bytesOf acceptedRxByte? = s.bytesOf usbInByte? ++ s.contents .d2h
  d2h_fresh : s.d2h.inited = false → s.bytesOf acceptedRxByte? = [] ∧ s.bytesOf usbInByte? = []

/-- No agent outside the block issues a buffer operation next: the premise R163 puts on the environment. -/
def State.NoForeignCommand (s : State) : Prop := ∀ a w, s.stimuli.head? ≠ some (.fcmd a w)

/-! ## Runs -/

/-- The state after `n` steps; none if one of them does not complete. -/
def State.after : Nat → State → Option State
  | 0, s => some s
  | n + 1, s =>
    match step s with
    | .next t => t.after n
    | .fault _ => none
    | .refused _ => none

/-- The next step is RESET. -/
def State.ResetIsNext (s : State) : Prop := (nextStimulus s).1 = .reset

/-! ## Sequences of buffer operations (R88) -/

/-- What a sequence of operations on one buffer has accepted, what it has returned, and the state reached. -/
structure FifoRun where
  accepted : List Byte
  removed : List Byte
  state : State

/-- TRY_INSERT by the producer of `f` (`some b`) or TRY_REMOVE by its consumer (`none`), through `exec`. -/
def fifoStep (f : BufId) (op : Option Byte) (r : FifoRun) : Option FifoRun :=
  match op with
  | some b =>
    match exec (.tryInsert f b) { r.state with agent := producer f } with
    | .next t => some ⟨if t.frsp = some ⟨f, true, 0⟩ then r.accepted ++ [b] else r.accepted, r.removed, t⟩
    | .fault _ | .refused _ => none
  | none =>
    match exec (.tryRemove f) { r.state with agent := consumer f } with
    | .next t =>
      match t.frsp with
      | some ⟨_, true, v⟩ => some ⟨r.accepted, r.removed ++ [BitVec.ofNat 8 v], t⟩
      | _ => some ⟨r.accepted, r.removed, t⟩
    | .fault _ | .refused _ => none

/-- A whole sequence of such operations; none if one of them does not complete. -/
def fifoRun (f : BufId) : List (Option Byte) → FifoRun → Option FifoRun
  | [], r => some r
  | op :: ops, r => (fifoStep f op r).bind (fifoRun f ops)

/-! ## The dispatch table as R125 prints it -/

/-- One row of R125: the conditions on a request and the outcome, which may depend on the mode. -/
structure TableRow where
  applies : CtrlReq → Bool
  outcome : Bit → CtrlOutcome

/-- The eight rows, in order, for `ALT_ENUM_FALLTHROUGH = false`. -/
def dispatchTable (p : Params) : List TableRow :=
  [ ⟨fun r => r.typ != 2, fun _ => .delegateCdc⟩,
    ⟨fun r => r.typ == 2 && r.dir == 1 && r.rcpt == 0 && r.code == p.webusbCode && r.index == p.idxGetUrl &&
      r.value == p.landingPage, fun _ => .payload .urlDesc⟩,
    ⟨fun r => r.typ == 2 && r.dir == 1 && r.rcpt == 0 && r.code == p.webusbCode && r.index == p.idxGetUrl &&
      r.value != p.landingPage, fun _ => .stall⟩,
    ⟨fun r => r.typ == 2 && r.dir == 1 && r.rcpt == 0 && r.code == p.msosCode && r.index == p.idxMsosDesc,
      fun m => if m = 1#1 then .payload .msosReduced else .payload .msosFull⟩,
    ⟨fun r => r.typ == 2 && r.dir == 1 && r.rcpt == 0 && r.code == p.msosCode && r.index == p.idxAltEnum &&
      r.value.extractLsb' 8 8 == p.altEnumCode, fun _ => .ack⟩,
    ⟨fun r => r.typ == 2 && r.dir == 1 && r.rcpt == 0 && r.code == p.msosCode && r.index == p.idxAltEnum &&
      r.value.extractLsb' 8 8 != p.altEnumCode, fun _ => .stall⟩,
    ⟨fun r => r.typ == 2 && r.dir == 0 && r.rcpt == 0 && r.code == p.webusbCode && r.index == p.idxEnable,
      fun _ => .ack⟩,
    ⟨fun r => r.typ == 2, fun _ => .stall⟩ ]

/-- The outcome of the first row that applies: "rows are tried top to bottom" (R125). -/
def tableOutcome (p : Params) (mode : Bit) (r : CtrlReq) : Option CtrlOutcome :=
  ((dispatchTable p).find? fun row => row.applies r).map fun row => row.outcome mode

end Sys2Proof.Machine
end

