-- ==== Sys2Proof/Certificates/Slice0/Obligations.lean ====
section
/-! DEFINITION. The statements for the provers. Each docstring names the rules of spec/ it formalises. A statement with
a draw in it holds for every answer: the answer is whatever the collaborator's list, or the free value, gives. -/

open Sys2Proof Sys2Proof.Machine

/-! ## The buffer operations (40_fifo_ops.md) -/

/-- INIT (40_fifo_ops.md, R77): on an uninitialised buffer the whole next state, and the buffer is empty and not full.
`head = tail = 0` is the spec's decision D3, the response its D9; which agents may issue it is the model's reading,
log 10. -/
def Obligations.InitCreatesEmptyBuffer : Prop :=
  ∀ (f : BufId) (s : State), s.params.Valid → (s.buf f).inited = false → mayInit s.agent f = true →
    exec (.init f) s = .next { s.afterInit f with frsp := some ⟨f, true, 0⟩ } ∧
    (s.afterInit f).contents f = [] ∧ (s.afterInit f).empty f = true ∧ (s.afterInit f).full f = false

/-- TRY_INSERT (40_fifo_ops.md, R78): the whole next state, full or not, and the two flags after an accepted
insertion. The producer of `H2D` is the spec's decision D27, the response its D9. -/
def Obligations.TryInsertResult : Prop :=
  ∀ (f : BufId) (b : Byte) (s : State), (s.buf f).inited = true → s.agent = producer f →
    (s.buf f).tail < s.params.cap f →
    exec (.tryInsert f b) s = .next (if (s.buf f).count = s.params.cap f then { s with frsp := some ⟨f, false, 0⟩ }
      else { s.afterInsert f b with frsp := some ⟨f, true, 0⟩ }) ∧
    (s.afterInsert f b).empty f = false ∧
    ((s.afterInsert f b).full f = true ↔ (s.buf f).count + 1 = s.params.cap f)

/-- TRY_REMOVE (40_fifo_ops.md, R79): the whole next state, empty or not, and the flag `empty` after a removal. The
response is the spec's decision D9. -/
def Obligations.TryRemoveResult : Prop :=
  ∀ (f : BufId) (s : State), (s.buf f).inited = true → s.agent = consumer f →
    (s.buf f).head < s.params.cap f →
    exec (.tryRemove f) s = .next (if (s.buf f).count = 0 then { s with frsp := some ⟨f, false, 0⟩ }
      else { s.afterRemove f with frsp := some ⟨f, true, (s.cell f (s.buf f).head).toNat⟩ }) ∧
    ((s.afterRemove f).empty f = true ↔ (s.buf f).count ≤ 1)

/-- PEEK (40_fifo_ops.md, R80): the byte at `head` in the response, nothing else written. That PEEK is the consumer's
is the spec's decision D6, the response its D9. -/
def Obligations.PeekResult : Prop :=
  ∀ (f : BufId) (s : State), (s.buf f).inited = true → s.agent = consumer f →
    (s.buf f).head < s.params.cap f →
    exec (.peek f) s = .next { s with
      frsp := some (if (s.buf f).count = 0 then ⟨f, false, 0⟩ else ⟨f, true, (s.cell f (s.buf f).head).toNat⟩) }

/-- COUNT, IS_FULL and IS_EMPTY (40_fifo_ops.md, R81 to R83): the answer in the response, nothing else written, for any
agent (R63, decision D6); the response is the spec's decision D9. -/
def Obligations.QueryResults : Prop :=
  ∀ (f : BufId) (s : State), (s.buf f).inited = true →
    exec (.count f) s = .next { s with frsp := some ⟨f, true, (s.buf f).count⟩ } ∧
    exec (.isFull f) s =
      .next { s with frsp := some ⟨f, true, if (s.buf f).count = s.params.cap f then 1 else 0⟩ } ∧
    exec (.isEmpty f) s = .next { s with frsp := some ⟨f, true, if (s.buf f).count = 0 then 1 else 0⟩ }

/-- R91: a TRY_INSERT on a full buffer, and a TRY_REMOVE or a PEEK on an empty one, return failure and change nothing
but the response (its form is decision D9), so repeating one gives the same state again. -/
def Obligations.RejectionsAreResults : Prop :=
  ∀ (f : BufId) (b : Byte) (s : State), (s.buf f).inited = true →
    ((s.buf f).count = s.params.cap f → s.agent = producer f →
      exec (.tryInsert f b) s = .next { s with frsp := some ⟨f, false, 0⟩ } ∧
      exec (.tryInsert f b) { s with frsp := some ⟨f, false, 0⟩ } = .next { s with frsp := some ⟨f, false, 0⟩ }) ∧
    ((s.buf f).count = 0 → s.agent = consumer f →
      exec (.tryRemove f) s = .next { s with frsp := some ⟨f, false, 0⟩ } ∧
      exec (.peek f) s = .next { s with frsp := some ⟨f, false, 0⟩ } ∧
      exec (.tryRemove f) { s with frsp := some ⟨f, false, 0⟩ } = .next { s with frsp := some ⟨f, false, 0⟩ } ∧
      exec (.peek f) { s with frsp := some ⟨f, false, 0⟩ } = .next { s with frsp := some ⟨f, false, 0⟩ })

/-- R86, the spec's decision D7: every operation but INIT on an uninitialised buffer is refused, whoever issues it, and
so is a second INIT. -/
def Obligations.LifecycleRefusals : Prop :=
  ∀ (f : BufId) (b : Byte) (s : State),
    ((s.buf f).inited = false →
      exec (.tryInsert f b) s = .refused (.notInitialised f) ∧ exec (.tryRemove f) s = .refused (.notInitialised f) ∧
      exec (.peek f) s = .refused (.notInitialised f) ∧ exec (.count f) s = .refused (.notInitialised f) ∧
      exec (.isFull f) s = .refused (.notInitialised f) ∧ exec (.isEmpty f) s = .refused (.notInitialised f)) ∧
    ((s.buf f).inited = true → exec (.init f) s = .refused (.alreadyInitialised f))

/-- R87, with the spec's decision D6: on an initialised buffer a TRY_INSERT by an agent that is not the producer, and a
TRY_REMOVE or PEEK by one that is not the consumer, fault, whatever the buffer holds. -/
def Obligations.ContractViolationsFault : Prop :=
  ∀ (f : BufId) (b : Byte) (s : State), (s.buf f).inited = true →
    (s.agent ≠ producer f → exec (.tryInsert f b) s = .fault (.contractViolation s.agent f)) ∧
    (s.agent ≠ consumer f → exec (.tryRemove f) s = .fault (.contractViolation s.agent f) ∧
      exec (.peek f) s = .fault (.contractViolation s.agent f))

/-- R89, which the spec derives from R77 to R83 and R16: the seven operations on the abstract contents, for every buffer
that meets its invariant. -/
def Obligations.AbstractSemantics : Prop :=
  ∀ (f : BufId) (s t : State), (s.buf f).Ok (s.params.cap f) →
    (exec (.init f) s = .next t → t.contents f = []) ∧
    (∀ b, exec (.tryInsert f b) s = .next t →
      t.frsp = some ⟨f, decide ((s.contents f).length < s.params.cap f), 0⟩ ∧
      t.contents f = if (s.contents f).length < s.params.cap f then s.contents f ++ [b] else s.contents f) ∧
    (exec (.tryRemove f) s = .next t →
      match s.contents f with
      | [] => t.frsp = some ⟨f, false, 0⟩ ∧ t.contents f = []
      | b :: rest => t.frsp = some ⟨f, true, b.toNat⟩ ∧ t.contents f = rest) ∧
    (exec (.peek f) s = .next t → t.contents f = s.contents f ∧
      match s.contents f with
      | [] => t.frsp = some ⟨f, false, 0⟩
      | b :: _ => t.frsp = some ⟨f, true, b.toNat⟩) ∧
    (exec (.count f) s = .next t →
      t.contents f = s.contents f ∧ t.frsp = some ⟨f, true, (s.contents f).length⟩) ∧
    (exec (.isFull f) s = .next t → t.contents f = s.contents f ∧
      t.frsp = some ⟨f, true, if (s.contents f).length = s.params.cap f then 1 else 0⟩) ∧
    (exec (.isEmpty f) s = .next t → t.contents f = s.contents f ∧
      t.frsp = some ⟨f, true, if (s.contents f).length = 0 then 1 else 0⟩)

/-- R88, in the exact form that the spec derives from R89: from an empty buffer, after any sequence of TRY_INSERTs by the
producer and TRY_REMOVEs by the consumer, every one of which completes, what was accepted is what was removed followed by
the contents, and `count` is within the capacity. -/
def Obligations.FifoOrder : Prop :=
  ∀ (f : BufId) (s : State) (ops : List (Option Byte)), (s.buf f).Ok (s.params.cap f) →
    (s.buf f).inited = true → s.contents f = [] →
    ∃ r, fifoRun f ops ⟨[], [], s⟩ = some r ∧ r.accepted = r.removed ++ r.state.contents f ∧
      (r.state.buf f).count ≤ s.params.cap f

/-- R90: inserting at most `CAP` bytes into an empty buffer and removing as many yields the same bytes in order and an
empty buffer, for every starting `head`. -/
def Obligations.RoundTripOfBytes : Prop :=
  ∀ (f : BufId) (s : State) (bs : List Byte), (s.buf f).Ok (s.params.cap f) → (s.buf f).inited = true →
    (s.buf f).count = 0 → bs.length ≤ s.params.cap f →
    ∃ r, fifoRun f (bs.map some ++ List.replicate bs.length none) ⟨[], [], s⟩ = some r ∧
      r.accepted = bs ∧ r.removed = bs ∧ r.state.contents f = []

/-- R84, which the spec derives from R78 to R80 and R17: the byte that PEEK returns is the byte the consumer's next
TRY_REMOVE returns, whatever the producer inserts in between. -/
def Obligations.PeekThenRemove : Prop :=
  ∀ (f : BufId) (s t : State) (v : Nat) (bs : List Byte), (s.buf f).Ok (s.params.cap f) →
    exec (.peek f) s = .next t → t.frsp = some ⟨f, true, v⟩ →
    ∃ r u, fifoRun f (bs.map some) ⟨[], [], t⟩ = some r ∧
      exec (.tryRemove f) { r.state with agent := consumer f } = .next u ∧ u.frsp = some ⟨f, true, v⟩

/-- R85, which the spec derives from R17, R78 and R79: as many TRY_REMOVEs as the consumer has counted bytes all return
one, and as many TRY_INSERTs as the producer has counted free cells all succeed, whatever the other side does in between. -/
def Obligations.CountsAreLowerBounds : Prop :=
  ∀ (f : BufId) (s : State) (ops : List (Option Byte)), (s.buf f).Ok (s.params.cap f) → (s.buf f).inited = true →
    (ops.countP (·.isNone) ≤ (s.buf f).count →
      ∃ r, fifoRun f ops ⟨[], [], s⟩ = some r ∧ r.removed.length = ops.countP (·.isNone)) ∧
    (ops.countP (·.isSome) ≤ s.params.cap f - (s.buf f).count →
      ∃ r, fifoRun f ops ⟨[], [], s⟩ = some r ∧ r.accepted.length = ops.countP (·.isSome))

/-- R13: an operation on one buffer neither writes the other nor reads it: with any other content of the other buffer it
answers the same, and leaves that content. -/
def Obligations.BuffersAreIndependent : Prop :=
  ∀ (f g : BufId) (b : Byte) (s : State) (x : Buf), g ≠ f →
    ∀ i ∈ [Instr.init f, .tryInsert f b, .tryRemove f, .peek f, .count f, .isFull f, .isEmpty f],
      (∀ t, exec i s = .next t → t.buf g = s.buf g ∧ exec i (s.setBuf g x) = .next (t.setBuf g x)) ∧
      (∀ r, exec i s = .fault r → exec i (s.setBuf g x) = .fault r) ∧
      (∀ r, exec i s = .refused r → exec i (s.setBuf g x) = .refused r)

/-- R40: a written cell reads back, and no other cell of either buffer, and no register, changes. -/
def Obligations.CellReadAfterWrite : Prop :=
  ∀ (f : BufId) (i : Nat) (v : Byte) (s : State), i < s.params.cap f →
    ∃ t, memWrite f i v s = .ok () t ∧ memRead f i t = .ok v t ∧
      (∀ g j, ¬(g = f ∧ j = i) → t.cell g j = s.cell g j) ∧
      t = s.setBuf f { s.buf f with mem := (t.buf f).mem }

/-- R62, the spec's decision D9: the packed response is `ok` above `RSPW[f]` bits of `val`, and nothing of a response in
range is lost. -/
def Obligations.ResponsePacking : Prop :=
  ∀ (p : Params) (r : Frsp), r.val ≤ max 255 (p.cap r.buf) →
    (frspWord p r).toNat = r.ok.toNat * 2 ^ rspWidth p r.buf + r.val ∧
    8 ≤ rspWidth p r.buf ∧ cntWidth p r.buf ≤ rspWidth p r.buf

/-! ## The bridge engine (41_bridge_engine.md) -/

/-- UART_RX (41_bridge_engine.md, R95): the byte is inserted into `D2H`, or lost if it is full with no register or cell
changed. The note among the inputs is the model's record, log 6. -/
def Obligations.UartRxResult : Prop :=
  ∀ (b : Byte) (s : State), s.fgPc ≠ .boot → s.d2h.inited = true → s.d2h.tail < s.params.capD2H →
    exec (.uartRx b) s = .next (if s.d2h.count = s.params.capD2H then s.note (.uartRx b false)
      else (s.afterInsert .d2h b).note (.uartRx b true))

/-- BOOT (R96) and what it leaves (R34), as a whole next state: both buffers empty and initialised, `mode_live` bit 0 of
`nv`, and `fg_pc = S1`. `head = tail = 0` is the spec's decision D3. -/
def Obligations.BootResult : Prop :=
  ∀ s : State, s.fgPc = .boot → s.h2d.inited = false → s.d2h.inited = false →
    ∃ t, exec .boot s = .next t ∧
      t = { (s.afterInit .h2d).afterInit .d2h with modeLive := s.nv.extractLsb' 0 1, fgPc := .s1 } ∧
      (∀ f, (t.buf f).head = 0 ∧ (t.buf f).tail = 0 ∧ (t.buf f).count = 0 ∧ (t.buf f).inited = true ∧
        t.contents f = []) ∧
      t.nv = s.nv ∧ t.resetPending = s.resetPending

/-- POLL_S1 (41_bridge_engine.md): with `H2D` full nothing is read (R98); otherwise the byte that `usb_read_byte()`
answers, if any, is inserted. -/
def Obligations.PollS1Result : Prop :=
  ∀ s : State, s.fgPc = .s1 → s.h2d.inited = true → s.h2d.tail < s.params.capH2D →
    (s.h2d.count = s.params.capH2D → exec .pollS1 s = .next { s with fgPc := .s2 }) ∧
    (s.h2d.count ≠ s.params.capH2D → ∀ r s', drawUsbRead s = .ok r s' →
      exec .pollS1 s = .next (match r with
        | none => { s' with fgPc := .s2 }
        | some b => { s'.afterInsert .h2d b with fgPc := .s2 }))

/-- POLL_S2 (41_bridge_engine.md, R99, R100 with decision D29): the burst decision. -/
def Obligations.PollS2Result : Prop :=
  ∀ s : State, s.fgPc = .s2 → s.d2h.inited = true →
    (s.d2h.count = 0 → exec .pollS2 s = .next { s with fgPc := .s3 }) ∧
    (s.d2h.count ≠ 0 → ∀ rdy s', drawUsbReady s = .ok rdy s' →
      exec .pollS2 s = .next (if rdy then
          { s' with
            nLeft := min s.d2h.count (s.params.maxPkt - 1)
            fgPc := if min s.d2h.count (s.params.maxPkt - 1) = 0 then .s3 else .s2l }
        else { s' with fgPc := .s3 }))

/-- POLL_S2L (41_bridge_engine.md): the byte at `head` leaves `D2H` only if it was sent. -/
def Obligations.PollS2lResult : Prop :=
  ∀ s : State, s.fgPc = .s2l → s.d2h.inited = true → 1 ≤ s.nLeft → 1 ≤ s.d2h.count →
    s.d2h.head < s.params.capD2H → ∀ sent s', drawUsbSend s = .ok sent s' →
      exec .pollS2l s = .next (if sent then
          { (s'.afterRemove .d2h).emit (.usbIn (s.cell .d2h s.d2h.head)) with
            nLeft := s.nLeft - 1
            fgPc := if s.nLeft - 1 = 0 then .s3 else .s2l }
        else { s' with fgPc := .s3 })

/-- POLL_S3 (41_bridge_engine.md, R103): one byte of `H2D` goes to the UART if it is ready and there is one. That the
answer of `uart_send_ready()` is drawn also when `H2D` is empty is the model's choice, log 26 (DESIGN CHOICE): R103 leaves
it open. -/
def Obligations.PollS3Result : Prop :=
  ∀ s : State, s.fgPc = .s3 → s.h2d.inited = true → s.h2d.head < s.params.capH2D →
    ∀ rdy s', drawUartReady s = .ok rdy s' →
      exec .pollS3 s = .next (if rdy = true ∧ s.h2d.count ≠ 0 then
          { (s'.afterRemove .h2d).emit (.uartTx (s.cell .h2d s.h2d.head)) with fgPc := .s4 }
        else { s' with fgPc := .s4 })

/-- POLL_S4 (41_bridge_engine.md): `fg_pc = S4` becomes `fg_pc = S1`, nothing else changes. -/
def Obligations.PollS4Result : Prop :=
  ∀ s : State, s.fgPc = .s4 → exec .pollS4 s = .next { s with fgPc := .s1 }

/-- The model's form of the draws of R12 and U9, log 8: a collaborator call gets the first fixed answer, or where none is
fixed a free value of its own number, which then advances, so that every such call draws anew; it changes nothing but the
list of answers, that number and the input record. -/
def Obligations.DrawsTakeTheNextAnswer : Prop :=
  ∀ s : State,
    (∃ r s', drawUsbRead s = .ok r s' ∧ r = s.answers.usbRead.head?.getD (Config.usbRead s.draws) ∧
      s' = { s with
        answers := { s.answers with usbRead := s.answers.usbRead.tail }
        draws := if s.answers.usbRead = [] then s.draws + 1 else s.draws
        log := s.log ++ [.input (.usbRead r)] }) ∧
    (∃ r s', drawUsbReady s = .ok r s' ∧ r = s.answers.usbReady.head?.getD (Config.usbReady s.draws) ∧
      s' = { s with
        answers := { s.answers with usbReady := s.answers.usbReady.tail }
        draws := if s.answers.usbReady = [] then s.draws + 1 else s.draws
        log := s.log ++ [.input (.usbReady r)] }) ∧
    (∃ r s', drawUsbSend s = .ok r s' ∧ r = s.answers.usbSend.head?.getD (Config.usbSend s.draws) ∧
      s' = { s with
        answers := { s.answers with usbSend := s.answers.usbSend.tail }
        draws := if s.answers.usbSend = [] then s.draws + 1 else s.draws
        log := s.log ++ [.input (.usbSend r)] }) ∧
    (∃ r s', drawUartReady s = .ok r s' ∧ r = s.answers.uartReady.head?.getD (Config.uartReady s.draws) ∧
      s' = { s with
        answers := { s.answers with uartReady := s.answers.uartReady.tail }
        draws := if s.answers.uartReady = [] then s.draws + 1 else s.draws
        log := s.log ++ [.input (.uartReady r)] }) ∧
    (∃ r s', drawAltEnumAck s = .ok r s' ∧ r = s.answers.altEnumAck.head?.getD (Config.altEnumAck s.draws) ∧
      s' = { s with
        answers := { s.answers with altEnumAck := s.answers.altEnumAck.tail }
        draws := if s.answers.altEnumAck = [] then s.draws + 1 else s.draws
        log := s.log ++ [.input (.altEnumAck r)] })

/-- R101: the burst that POLL_S2 decides is at most `MAXPKT - 1` bytes and at most what is buffered; with
`MAXPKT >= 2` and an endpoint that is ready it is at least one byte; with `MAXPKT = 1` POLL_S2 never enters a burst. -/
def Obligations.BurstBounds : Prop :=
  ∀ s t : State, exec .pollS2 s = .next t →
    (t.fgPc = .s2l → 1 ≤ t.nLeft ∧ t.nLeft ≤ s.params.maxPkt - 1 ∧ t.nLeft ≤ t.d2h.count) ∧
    (s.params.maxPkt = 1 → t.fgPc = .s3) ∧
    (2 ≤ s.params.maxPkt → s.d2h.count ≠ 0 →
      s.answers.usbReady.head?.getD (Config.usbReady s.draws) = true → t.fgPc = .s2l)

/-! ## The mode and the reset (42_mode_state.md) -/

/-- LOAD (42_mode_state.md): `mode_live` becomes bit 0 of `nv`. The store by LOAD itself is the model's reading,
log 11. -/
def Obligations.LoadResult : Prop :=
  ∀ s : State, s.fgPc = .boot → exec .load s = .next { s with modeLive := s.nv.extractLsb' 0 1 }

/-- R114: SET_AND_COMMIT of the current mode changes nothing. -/
def Obligations.CommitSameModeIsNoOp : Prop :=
  ∀ s : State, s.resetPending = false → s.fgPc ∈ [Phase.s1, .s2, .s2l, .s3, .s4] →
    exec (.setAndCommit s.modeLive) s = .next s

/-- SET_AND_COMMIT of the other mode (R115), the whole next state: live value, persisted byte, the three events in order,
`reset_pending` and `HALT`. That it is one step is the spec's decision D19. -/
def Obligations.CommitChangedMode : Prop :=
  ∀ (v : Bit) (s : State), s.resetPending = false → s.fgPc ∈ [Phase.s1, .s2, .s2l, .s3, .s4] → v ≠ s.modeLive →
    exec (.setAndCommit v) s = .next { s with
      modeLive := v, nv := v.zeroExtend 8, resetPending := true, fgPc := .halt,
      log := s.log ++ [.event (.nvWrite v), .event .shutdown, .event .wdtArm] }

/-- HALT_WAIT (R117) is never enabled: in `HALT` the foreground is stuck, and elsewhere it is not selected. That a step
which is not enabled is refused is the model's choice, log 14. -/
def Obligations.HaltWaitIsNeverEnabled : Prop :=
  ∀ s : State, exec .haltWait s = .refused (if s.fgPc = .halt then .stuckInHalt else .notEnabled)

/-- RESET (R33, R118; decision D21) completes from every state and leaves `fg_pc = BOOT`, `reset_pending = 0`,
`inited = 0` for both buffers, `nv` as it was and the event `RESET`. Of the registers and cells it leaves unspecified each
is the model's free value, new at every RESET and of the register's width (log 5 and 9, DESIGN CHOICE). -/
def Obligations.ResetResult : Prop :=
  ∀ s : State, ∃ t, exec .reset s = .next t ∧ t.fgPc = .boot ∧ t.resetPending = false ∧
    (∀ f, (t.buf f).inited = false) ∧ t.nv = s.nv ∧ t.trace = s.trace ++ [.reset] ∧ t.params = s.params ∧
    t.FitsWidths ∧ t.resets = s.resets + 1 ∧
    (∀ f, (t.buf f).head = Config.headAfterReset s.resets f % 2 ^ idxWidth s.params f ∧
      (t.buf f).tail = Config.tailAfterReset s.resets f % 2 ^ idxWidth s.params f ∧
      (t.buf f).count = Config.countAfterReset s.resets f % 2 ^ cntWidth s.params f ∧
      ∀ a, t.cell f a = Config.unwrittenCell t.resets f a) ∧
    t.modeLive = Config.modeAfterReset s.resets ∧
    t.nLeft = Config.nLeftAfterReset s.resets % 2 ^ cntWidth s.params .d2h

/-- R119, R57, and that `fg_pc` stays `HALT` (R117, decision D20): with a reset in flight no step but RESET changes `nv`,
`mode_live`, `reset_pending` or `fg_pc`, and SET_AND_COMMIT and every control request are not enabled; that such a step
is refused is the model's choice, log 14 (DESIGN CHOICE). -/
def Obligations.CommittedResetIsNotCancellable : Prop :=
  ∀ s t : State, s.Inv → s.resetPending = true →
    (∀ v, exec (.setAndCommit v) s = .refused .notEnabled) ∧
    (∀ w, runWord (.ctrl w) s = .refused .notEnabled) ∧
    (∀ i, i ≠ .reset → exec i s = .next t →
      t.nv = s.nv ∧ t.modeLive = s.modeLive ∧ t.resetPending = true ∧ t.fgPc = .halt)

/-- R27, R29, R171: only SET_AND_COMMIT, alone or inside SET_WEBUSB_ENABLE, writes `nv`, and it writes the byte 0x00 or
0x01 of the mode it has just set; and every change of `mode_live` outside the boot phase, a RESET's apart, persists that
mode, sets `reset_pending` and halts in the same step. -/
def Obligations.ModeChangesAreCommits : Prop :=
  ∀ (i : Instr) (s t : State), exec i s = .next t →
    (t.nv ≠ s.nv → ((∃ v, i = .setAndCommit v) ∨ ∃ value length, i = .setWebusbEnable value length) ∧
      (t.nv = 0x00#8 ∨ t.nv = 0x01#8) ∧ t.nv = t.modeLive.zeroExtend 8) ∧
    (s.fgPc ≠ .boot → i ≠ .reset → t.modeLive ≠ s.modeLive →
      t.resetPending = true ∧ t.fgPc = .halt ∧ t.nv = t.modeLive.zeroExtend 8)

/-- R118 (b), R166, decision D21: after a commit, the RESET it forces and the BOOT that follows, the machine runs in the
committed mode with both buffers empty. -/
def Obligations.RebootInCommittedMode : Prop :=
  ∀ (v : Bit) (s : State), s.resetPending = false → s.fgPc ∈ [Phase.s1, .s2, .s2l, .s3, .s4] → v ≠ s.modeLive →
    ∃ a b c, exec (.setAndCommit v) s = .next a ∧ exec .reset a = .next b ∧ exec .boot b = .next c ∧
      c.modeLive = v ∧ c.fgPc = .s1 ∧ c.resetPending = false ∧ ∀ f, c.contents f = []

/-! ## The dispatcher (43_control_dispatch.md) -/

/-- GET_URL (43_control_dispatch.md, R127): the landing page's payload for its index, a stall for any other. That all 16
bits of `value` are compared is the spec's decision D12. -/
def Obligations.GetUrlResult : Prop :=
  ∀ (value length : BitVec 16) (s : State), s.resetPending = false → s.fgPc ∈ [Phase.s1, .s2, .s2l, .s3, .s4] →
    exec (.getUrl value length) s = .next (s.emit (.ctrl (getUrlReq s.params value length)
      (if value = s.params.landingPage then .payload .urlDesc else .stall)))

/-- GET_MSOS_DESC (43_control_dispatch.md, R128): the reduced set in WebUSB mode, the full set otherwise; never a stall,
whatever `value` is (decision D15). -/
def Obligations.GetMsosDescResult : Prop :=
  ∀ (value length : BitVec 16) (s : State), s.resetPending = false → s.fgPc ∈ [Phase.s1, .s2, .s2l, .s3, .s4] →
    exec (.getMsosDesc value length) s = .next (s.emit (.ctrl (getMsosDescReq s.params value length)
      (.payload (if s.modeLive = 1#1 then .msosReduced else .msosFull))))

/-- SET_ALT_ENUM (43_control_dispatch.md, R129; decisions D13, D14): a wrong code stalls; the right one completes, or with
`ALT_ENUM_FALLTHROUGH` is a draw between completion and stall. -/
def Obligations.SetAltEnumResult : Prop :=
  ∀ (value length : BitVec 16) (s : State), s.resetPending = false → s.fgPc ∈ [Phase.s1, .s2, .s2l, .s3, .s4] →
    (value.extractLsb' 8 8 ≠ s.params.altEnumCode → exec (.setAltEnum value length) s =
      .next (s.emit (.ctrl (setAltEnumReq s.params value length) .stall))) ∧
    (value.extractLsb' 8 8 = s.params.altEnumCode → s.params.altEnumFallthrough = false →
      exec (.setAltEnum value length) s = .next (s.emit (.ctrl (setAltEnumReq s.params value length) .ack))) ∧
    (value.extractLsb' 8 8 = s.params.altEnumCode → s.params.altEnumFallthrough = true →
      ∀ ack s', drawAltEnumAck s = .ok ack s' → exec (.setAltEnum value length) s =
        .next (s'.emit (.ctrl (setAltEnumReq s.params value length) (if ack then .ack else .stall))))

/-- SET_WEBUSB_ENABLE (43_control_dispatch.md, R130; decisions D18, D19): acknowledged always and first; then nothing, or
the commit. -/
def Obligations.SetWebusbEnableResult : Prop :=
  ∀ (value length : BitVec 16) (s : State), s.resetPending = false → s.fgPc ∈ [Phase.s1, .s2, .s2l, .s3, .s4] →
    exec (.setWebusbEnable value length) s = .next (
      if value.extractLsb' 0 1 = s.modeLive then
        s.emit (.ctrl (setWebusbEnableReq s.params value length) .ack)
      else { s with
        modeLive := value.extractLsb' 0 1, nv := (value.extractLsb' 0 1).zeroExtend 8, resetPending := true,
        fgPc := .halt,
        log := s.log ++ [.event (.ctrl (setWebusbEnableReq s.params value length) .ack),
          .event (.nvWrite (value.extractLsb' 0 1)), .event .shutdown, .event .wdtArm] })

/-- CDC_DELEGATE (R136, decision D17), its three rows, and VENDOR_STALL (R131): one event, no state written. -/
def Obligations.DelegateAndStallResults : Prop :=
  ∀ (r : CtrlBody) (s : State), s.resetPending = false → s.fgPc ∈ [Phase.s1, .s2, .s2l, .s3, .s4] →
    exec (.cdcDelegateStandard r) s = .next (s.emit (.ctrl (r.withType 0#2) .delegateCdc)) ∧
    exec (.cdcDelegateClass r) s = .next (s.emit (.ctrl (r.withType 1#2) .delegateCdc)) ∧
    exec (.cdcDelegateReserved r) s = .next (s.emit (.ctrl (r.withType 3#2) .delegateCdc)) ∧
    exec (.vendorStall r) s = .next (s.emit (.ctrl (r.withType 2#2) .stall))

/-- R125: with `ALT_ENUM_FALLTHROUGH = false` (the other case is in SetAltEnumResult), every SETUP word is dispatched to
exactly the outcome of the first row of the printed table that applies, and there is such a row for every request; row 7
is followed by SET_AND_COMMIT of `value[0]`, which commits where that differs from the mode (R130, R115), and nothing else
of the block changes. That acknowledgement and commit are one step is decision D19, log 17 (DESIGN CHOICE). -/
def Obligations.DispatcherImplementsTable : Prop :=
  ∀ (w : BitVec 64) (s : State) (r : CtrlReq), r = unpackReq w → s.params.Valid →
    s.params.altEnumFallthrough = false → s.resetPending = false → s.fgPc ∈ [Phase.s1, .s2, .s2l, .s3, .s4] →
    ∃ o, tableOutcome s.params s.modeLive r = some o ∧
      runWord (.ctrl w) s = .next (
        if r.typ = 2#2 ∧ r.dir = 0#1 ∧ r.rcpt = 0#5 ∧ r.code = s.params.webusbCode ∧ r.index = s.params.idxEnable ∧
            r.value.extractLsb' 0 1 ≠ s.modeLive then
          { s with
            modeLive := r.value.extractLsb' 0 1, nv := (r.value.extractLsb' 0 1).zeroExtend 8, resetPending := true,
            fgPc := .halt,
            log := s.log ++ [.event (.ctrl r o), .event (.nvWrite (r.value.extractLsb' 0 1)), .event .shutdown,
              .event .wdtArm] }
        else s.emit (.ctrl r o))

/-- R135, R72, R128 (decisions D12, D13, D15, D16, D18): two requests that differ only in what their flow does not examine
are served alike, the request in the event apart: `length` always, `value[7:0]` in SET_ALT_ENUM, all of `value` in
GET_MSOS_DESC, `value[15:1]` in SET_WEBUSB_ENABLE and in every other host-to-device request. -/
def Obligations.UnexaminedFieldsIgnored : Prop :=
  ∀ (w w' : BitVec 64) (s : State), s.resetPending = false → s.fgPc ∈ [Phase.s1, .s2, .s2l, .s3, .s4] →
    s.params.Valid → (unpackReq w').dir = (unpackReq w).dir → (unpackReq w').typ = (unpackReq w).typ →
    (unpackReq w').rcpt = (unpackReq w).rcpt → (unpackReq w').code = (unpackReq w).code →
    (unpackReq w').index = (unpackReq w).index →
    ((unpackReq w').value = (unpackReq w).value ∨
      ((unpackReq w).code = s.params.msosCode ∧ (unpackReq w).index = s.params.idxAltEnum ∧
        (unpackReq w').value.extractLsb' 8 8 = (unpackReq w).value.extractLsb' 8 8) ∨
      ((unpackReq w).code = s.params.msosCode ∧ (unpackReq w).index = s.params.idxMsosDesc) ∨
      ((unpackReq w).dir = 0#1 ∧ (unpackReq w').value.extractLsb' 0 1 = (unpackReq w).value.extractLsb' 0 1)) →
    ∃ pre more o t, runWord (.ctrl w) s = .next t ∧ t.log = pre ++ .event (.ctrl (unpackReq w) o) :: more ∧
      runWord (.ctrl w') s = .next { t with log := pre ++ .event (.ctrl (unpackReq w') o) :: more }

/-- R110, R140, which the spec derives from the rules of each step: the two halves of the block are independent but for
`fg_pc`. No step of the dispatcher, and none of the mode but RESET, reads or writes a buffer or `n_left`: with any others
it answers the same, and leaves them. No step of the engine but BOOT reads or writes `mode_live`, `nv` or
`reset_pending`, in the same sense. -/
def Obligations.HalvesAreIndependent : Prop :=
  (∀ (i : Instr) (s t : State) (x y : Buf) (n : Nat),
    ((∃ v l, i = .getUrl v l ∨ i = .getMsosDesc v l ∨ i = .setAltEnum v l ∨ i = .setWebusbEnable v l) ∨
      (∃ r, i = .cdcDelegateStandard r ∨ i = .cdcDelegateClass r ∨ i = .cdcDelegateReserved r ∨ i = .vendorStall r) ∨
      i = .load ∨ ∃ v, i = .setAndCommit v) →
    exec i s = .next t →
      t.h2d = s.h2d ∧ t.d2h = s.d2h ∧ t.nLeft = s.nLeft ∧
      exec i { s with h2d := x, d2h := y, nLeft := n } = .next { t with h2d := x, d2h := y, nLeft := n }) ∧
  (∀ (i : Instr) (s t : State) (m : Bit) (x : Byte) (p : Bool),
    ((∃ b, i = .uartRx b) ∨ i ∈ [Instr.pollS1, .pollS2, .pollS2l, .pollS3, .pollS4]) → exec i s = .next t →
      t.modeLive = s.modeLive ∧ t.nv = s.nv ∧ t.resetPending = s.resetPending ∧
      exec i { s with modeLive := m, nv := x, resetPending := p } =
        .next { t with modeLive := m, nv := x, resetPending := p })

/-! ## Encodings (30_encoding.md) -/

/-- R65, the spec's decision D8: exactly the FCMD words with `op = 7`, or with `op` other than 1 and `data` not 0, are
reserved, and one is refused with no change of state. -/
def Obligations.ReservedCommandsRefused : Prop :=
  ∀ (w : BitVec 12) (s : State),
    (decode s.params (.fcmd w) = .error .reservedCommand ↔
      w.extractLsb' 8 3 = 7#3 ∨ (w.extractLsb' 8 3 ≠ 1#3 ∧ w.extractLsb' 0 8 ≠ 0#8)) ∧
    (w.extractLsb' 8 3 = 7#3 ∨ (w.extractLsb' 8 3 ≠ 1#3 ∧ w.extractLsb' 0 8 ≠ 0#8) →
      ∀ a rest, s.stimuli = .fcmd a w :: rest → step s = .refused .reservedCommand)

/-- Words written out from 30_encoding.md and 95_test_vectors.md decode to what they stand for. The encodings are the
spec's decisions D8, D10 and D24. -/
def Obligations.DecodedSampleWords : Prop :=
  ∀ p : Params,
    decode p (.fcmd 0x800#12) = .ok (.init .d2h) ∧ decode p (.fcmd 0x141#12) = .ok (.tryInsert .h2d 0x41#8) ∧
    decode p (.fcmd 0xA00#12) = .ok (.tryRemove .d2h) ∧ decode p (.evt 0x55#8) = .ok (.uartRx 0x55#8) ∧
    decode p (.seq 0b011#3) = .ok .pollS2l ∧ decode p (.seq 0b110#3) = .error .unusedPhase ∧
    decode p (.ctrl 0x0007000000002021#64) = .ok (.cdcDelegateClass ⟨0#1, 1#5, 0x20#8, 0#16, 0#16, 7#16⟩) ∧
    (p.webusbCode = 0x11#8 → p.idxGetUrl = 0x31#16 →
      decode p (.ctrl 0x00FF0031000511C0#64) = .ok (.getUrl 5#16 0xFF#16))

/-- Decode of encode is the instruction, for every well-formed instruction: no bit of an encoding is dropped. The
encodings are the spec's decisions D8, D10 and D24. -/
def Obligations.DecodeEncode : Prop :=
  ∀ (p : Params) (i : Instr), p.Valid → WellFormed p i = true → decode p (encode p i) = .ok i

/-- Encode of decode is the word, for every word that is an operation: no two words mean the same, and what the decoder
gives is well formed. -/
def Obligations.EncodeDecode : Prop :=
  ∀ (p : Params) (w : OpWord) (i : Instr), decode p w = .ok i → encode p i = w ∧ WellFormed p i = true

/-- A step takes the next stimulus, with its agent, and runs the instruction that the stimulus's word decodes to. The
foreground's word is the code of `fg_pc` (R69, decision D24); a UART byte runs UART_RX of that byte as `UISR` (R67, R146);
a SETUP word is dispatched as it stands, by `FG` (R139); RESET is a step of `RST` (R68); an FCMD runs as its issuer (R63).
The timer brings no operation (R148). That the stimuli stand in a list, and where none is listed the next one is a free
choice with the count of free values advancing, is the model's form of R10, log 7. -/
def Obligations.StepRunsDecodedInstruction : Prop :=
  ∀ (s : State) (c : Stimulus) (w : OpWord) (i : Instr),
    (∀ rest, s.stimuli = c :: rest →
      fetchWord c { s with stimuli := rest, agent := stimulusAgent c } = some w → decode s.params w = .ok i →
      WellFormed s.params i = true ∧ step s = exec i { s with stimuli := rest, agent := stimulusAgent c }) ∧
    (s.stimuli = [] → c = freeStimulus s → fetchWord c { s with draws := s.draws + 1, agent := stimulusAgent c } = some w →
      decode s.params w = .ok i →
      WellFormed s.params i = true ∧ step s = exec i { s with draws := s.draws + 1, agent := stimulusAgent c }) ∧
    (fetchWord .fg s = some (.seq (phaseCode s.fgPc)) ∧ stimulusAgent .fg = .fg) ∧
    (∀ b, fetchWord (.uartRx b) s = some (.evt b) ∧ stimulusAgent (.uartRx b) = .uisr ∧
      ∀ rest, s.stimuli = .uartRx b :: rest → step s = exec (.uartRx b) { s with stimuli := rest, agent := .uisr }) ∧
    (∀ x, fetchWord (.setup x) s = some (.ctrl x) ∧ stimulusAgent (.setup x) = .fg ∧
      ∀ rest, s.stimuli = .setup x :: rest →
        step s = exec (classify s.params (unpackReq x)) { s with stimuli := rest, agent := .fg }) ∧
    (fetchWord .reset s = some .reset ∧ stimulusAgent .reset = .rst ∧
      ∀ rest, s.stimuli = .reset :: rest → step s = exec .reset { s with stimuli := rest, agent := .rst }) ∧
    (∀ a x, fetchWord (.fcmd a x) s = some (.fcmd x) ∧ stimulusAgent (.fcmd a x) = a) ∧
    (fetchWord .timer s = none ∧ stimulusAgent .timer = .tisr)

/-- R148, the spec's decision D26: the timer interrupt's step, enabled once BOOT is done, changes nothing of the block. -/
def Obligations.TimerChangesNothing : Prop :=
  ∀ (s : State) (rest : List Stimulus), s.stimuli = .timer :: rest → s.fgPc ≠ .boot →
    step s = .next { s with stimuli := rest, agent := .tisr }

/-! ## Frames -/

/-- The queries and PEEK change the response and nothing else; every cell of both buffers reads as before. -/
def Obligations.QueryFrame : Prop :=
  ∀ (f : BufId) (i : Instr) (s t : State), i ∈ [Instr.peek f, .count f, .isFull f, .isEmpty f] →
    exec i s = .next t → t = { s with frsp := t.frsp } ∧ ∀ g a, t.cell g a = s.cell g a

/-- INIT and TRY_REMOVE change registers of their own buffer and the response: INIT `head`, `tail`, `count` and
`inited`, TRY_REMOVE `head` and `count`; every cell of both buffers reads as before. -/
def Obligations.InitAndRemoveFrame : Prop :=
  ∀ (f : BufId) (s t : State),
    (exec (.init f) s = .next t →
      t = { s.setBuf f { t.buf f with mem := (s.buf f).mem } with frsp := t.frsp } ∧
      ∀ g a, t.cell g a = s.cell g a) ∧
    (exec (.tryRemove f) s = .next t →
      t = { s.setBuf f { s.buf f with head := (t.buf f).head, count := (t.buf f).count } with frsp := t.frsp } ∧
      ∀ g a, t.cell g a = s.cell g a)

/-- TRY_INSERT changes `tail`, `count`, the memory of its own buffer and the response, UART_RX those of `D2H` and the
record; the one cell stored to is the one at `tail`, and only if the buffer was not full. -/
def Obligations.InsertFrame : Prop :=
  ∀ (f : BufId) (b : Byte) (s t : State),
    (exec (.tryInsert f b) s = .next t →
      t = { s.setBuf f { s.buf f with mem := (t.buf f).mem, tail := (t.buf f).tail, count := (t.buf f).count } with
        frsp := t.frsp } ∧
      ∀ g a, ¬(s.full f = false ∧ g = f ∧ a = (s.buf f).tail) → t.cell g a = s.cell g a) ∧
    (exec (.uartRx b) s = .next t →
      t = { s with
        d2h := { s.d2h with mem := t.d2h.mem, tail := t.d2h.tail, count := t.d2h.count }, log := t.log } ∧
      ∀ g a, ¬(s.full .d2h = false ∧ g = .d2h ∧ a = s.d2h.tail) → t.cell g a = s.cell g a)

/-- BOOT changes the registers of both buffers, `mode_live` and `fg_pc`; the poll steps change `fg_pc`, their draw and
the record, and besides: S1 the insertion side of `H2D`, S2 `n_left`, S2L `n_left` and the removal side of `D2H`, S3 the
removal side of `H2D`, S4 nothing. The one cell stored to is S1's, at `tail` of `H2D`. -/
def Obligations.SequencerFrame : Prop :=
  ∀ s t : State,
    (exec .boot s = .next t →
      t = { s with
        h2d := { t.h2d with mem := s.h2d.mem }, d2h := { t.d2h with mem := s.d2h.mem }, modeLive := t.modeLive,
        fgPc := t.fgPc } ∧ ∀ g a, t.cell g a = s.cell g a) ∧
    (exec .pollS1 s = .next t →
      t = { s with
        h2d := { s.h2d with mem := t.h2d.mem, tail := t.h2d.tail, count := t.h2d.count }, fgPc := t.fgPc,
        answers := t.answers, draws := t.draws, log := t.log } ∧
      ∀ g a, ¬(s.full .h2d = false ∧ g = .h2d ∧ a = s.h2d.tail) → t.cell g a = s.cell g a) ∧
    (exec .pollS2 s = .next t →
      t = { s with fgPc := t.fgPc, nLeft := t.nLeft, answers := t.answers, draws := t.draws, log := t.log } ∧
      ∀ g a, t.cell g a = s.cell g a) ∧
    (exec .pollS2l s = .next t →
      t = { s with
        d2h := { s.d2h with head := t.d2h.head, count := t.d2h.count }, fgPc := t.fgPc, nLeft := t.nLeft,
        answers := t.answers, draws := t.draws, log := t.log } ∧ ∀ g a, t.cell g a = s.cell g a) ∧
    (exec .pollS3 s = .next t →
      t = { s with
        h2d := { s.h2d with head := t.h2d.head, count := t.h2d.count }, fgPc := t.fgPc, answers := t.answers,
        draws := t.draws, log := t.log } ∧ ∀ g a, t.cell g a = s.cell g a) ∧
    (exec .pollS4 s = .next t → t = { s with fgPc := t.fgPc } ∧ ∀ g a, t.cell g a = s.cell g a)

/-- LOAD changes `mode_live`; SET_AND_COMMIT and SET_WEBUSB_ENABLE change `mode_live`, `nv`, `reset_pending`, `fg_pc`
and the record; the other control flows change the record, and SET_ALT_ENUM its draw. No cell of a buffer is stored to by
any of them. RESET keeps `nv` (R118, R33); that it keeps the model's own fields too is the model's choice: the parameters
(log 1), the response (log 6), the agent (log 12), and what is still to come (log 7 and 8). -/
def Obligations.ModeAndControlFrame : Prop :=
  ∀ s t : State,
    (exec .load s = .next t → t = { s with modeLive := t.modeLive } ∧ ∀ g a, t.cell g a = s.cell g a) ∧
    (∀ i, ((∃ v, i = .setAndCommit v) ∨ ∃ v l, i = Instr.setWebusbEnable v l) → exec i s = .next t →
      t = { s with
        modeLive := t.modeLive, nv := t.nv, resetPending := t.resetPending, fgPc := t.fgPc, log := t.log } ∧
      ∀ g a, t.cell g a = s.cell g a) ∧
    (∀ i, ((∃ v l, i = .getUrl v l ∨ i = .getMsosDesc v l) ∨
        ∃ r, i = .cdcDelegateStandard r ∨ i = .cdcDelegateClass r ∨ i = .cdcDelegateReserved r ∨
          i = Instr.vendorStall r) → exec i s = .next t →
      t = { s with log := t.log } ∧ ∀ g a, t.cell g a = s.cell g a) ∧
    (∀ v l, exec (.setAltEnum v l) s = .next t →
      t = { s with answers := t.answers, draws := t.draws, log := t.log } ∧ ∀ g a, t.cell g a = s.cell g a) ∧
    (exec .reset s = .next t →
      t.params = s.params ∧ t.nv = s.nv ∧ t.frsp = s.frsp ∧ t.agent = s.agent ∧ t.stimuli = s.stimuli ∧
      t.answers = s.answers ∧ t.draws = s.draws)

/-! ## The whole machine -/

/-- R22, which the spec derives from R96 to R104: `fg_pc` advances only as the rule lists, whatever instruction runs, with
the conditions of its "when" and "else": `S2 -> S3` needs that no burst of at least one byte was decided, and
`S2L -> S3` a failed send or the last byte of the burst. -/
def Obligations.PhaseSuccessors : Prop :=
  ∀ (i : Instr) (s t : State), exec i s = .next t → t.fgPc ≠ s.fgPc →
    (i = .boot ∧ s.fgPc = .boot ∧ t.fgPc = .s1) ∨
    (i = .pollS1 ∧ s.fgPc = .s1 ∧ t.fgPc = .s2) ∨
    (i = .pollS2 ∧ s.fgPc = .s2 ∧ t.fgPc = .s2l ∧ 1 ≤ t.nLeft ∧ s.d2h.count ≠ 0 ∧
      s.answers.usbReady.head?.getD (Config.usbReady s.draws) = true) ∨
    (i = .pollS2 ∧ s.fgPc = .s2 ∧ t.fgPc = .s3 ∧
      (s.d2h.count = 0 ∨ s.answers.usbReady.head?.getD (Config.usbReady s.draws) = false ∨
        min s.d2h.count (s.params.maxPkt - 1) = 0)) ∨
    (i = .pollS2l ∧ s.fgPc = .s2l ∧ t.fgPc = .s3 ∧
      (s.answers.usbSend.head?.getD (Config.usbSend s.draws) = false ∨ s.nLeft = 1)) ∨
    (i = .pollS3 ∧ s.fgPc = .s3 ∧ t.fgPc = .s4) ∨
    (i = .pollS4 ∧ s.fgPc = .s4 ∧ t.fgPc = .s1) ∨
    (t.fgPc = .halt ∧ t.modeLive ≠ s.modeLive ∧ s.fgPc ∈ [Phase.s1, .s2, .s2l, .s3, .s4] ∧
      ((∃ v, i = .setAndCommit v) ∨ ∃ value length, i = .setWebusbEnable value length)) ∨
    (i = .reset ∧ t.fgPc = .boot)

/-- The machine after reset: `fg_pc = BOOT`, `reset_pending = 0`, `inited = 0`, `nv` bit 0 clear (R33, R36), and it meets
the invariants; that its other registers fit their widths rests on the zeros of log 3. -/
def Obligations.ResetStateMeetsInvariants : Prop :=
  State.reset.Inv ∧ State.reset.OwnInv ∧ State.reset.FitsWidths ∧ State.reset.Streams ∧
  State.reset.fgPc = .boot ∧ State.reset.resetPending = false ∧
  (∀ f, (State.reset.buf f).inited = false) ∧ State.reset.nv.extractLsb' 0 1 = 0#1

/-- R15, R16, R28, R30, R31, R34, R35 (R16 and R35 as the spec derives them, R28 and R30 with decisions D19 and D20) as
one invariant: from every state that meets it, whatever step comes next, the next state meets it. -/
def Obligations.StepKeepsInvariant : Prop :=
  ∀ s t : State, s.Inv → step s = .next t → t.Inv

/-- R23, R33, R101: what holds besides without foreign commands is kept by every step of the block's own agents. -/
def Obligations.StepKeepsOwnInvariant : Prop :=
  ∀ s t : State, s.Inv → s.OwnInv → s.NoForeignCommand → step s = .next t → t.OwnInv

/-- R14, decision D2: every register keeps fitting its width. -/
def Obligations.StepKeepsWidths : Prop :=
  ∀ s t : State, s.Inv → s.FitsWidths → step s = .next t → t.FitsWidths

/-- R107, which the spec derives from R95 to R103 and R88, and R52, R109, R179: in each direction what has come in during
this boot is what has gone out followed by what the buffer holds; every step of the block's own agents keeps this.
Nothing is lost or reordered but by the overrun drop of UART_RX and by RESET. -/
def Obligations.StepKeepsStreams : Prop :=
  ∀ s t : State, s.Inv → s.Streams → s.NoForeignCommand → step s = .next t → t.Streams

/-- R153 (derived by the spec), R106, R165: the machine is never stuck: an enabled stimulus completes, and where none is
listed the free choice (log 7) does. R118 (c), R184: with a reset in flight the RESET step is eventually taken, after
finitely many other steps, each of which completes and leaves the reset in flight. That finite number is a free value of
the model, log 29 (DESIGN CHOICE), and the listed stimuli are enabled ones. -/
def Obligations.EnabledStepsComplete : Prop :=
  ∀ s : State, s.Inv → s.OwnInv →
    (∀ c, s.stimuli.head? = some c → s.enables c = true → ∃ t, step s = .next t) ∧
    (s.stimuli = [] → ∃ t, step s = .next t) ∧
    (s.resetPending = true → (∀ c ∈ s.stimuli, s.enables c = true) →
      ∃ n u t, (∀ k ≤ n, ∃ v, s.after k = some v ∧ v.resetPending = true) ∧ s.after n = some u ∧ u.ResetIsNext ∧
        step u = .next t ∧ t.fgPc = .boot ∧ t.resetPending = false)

/-- R153, R169 (decision D21): a listed stimulus that is not enabled and is no buffer command is refused, which is the
model's form of "not enabled", log 14; in `BOOT` that is everything but the foreground's step and RESET. -/
def Obligations.DisabledStepsRefused : Prop :=
  ∀ (s : State) (c : Stimulus), s.Inv → s.stimuli.head? = some c → s.enables c = false → (∀ a w, c ≠ .fcmd a w) →
    step s = .refused (if c = .fg then .stuckInHalt else .notEnabled)
end

