-- ==== Sys2Proof/Laws/Config.lean ====
section
/-! SUPPORT. The configuration after reset meets the constraints of R4, R5 and R8, whatever its free values are, and
the widths of R14 hold the ranges they are for. -/

namespace Sys2Proof.Machine

open Sys2Proof

/-- A word differs from what lies a nonzero amount, less than a whole turn, above it. -/
theorem ofNat_ne_of_lt {n k : Nat} {w : BitVec n} (h0 : 0 < k) (hk : k < 2 ^ n) : w ≠ w + BitVec.ofNat n k := by
  intro h
  have := congrArg BitVec.toNat h
  simp only [BitVec.toNat_add, BitVec.toNat_ofNat, Nat.mod_eq_of_lt hk] at this
  have hw := w.isLt
  rcases Nat.lt_or_ge (w.toNat + k) (2 ^ n) with hlt | hge
  · rw [Nat.mod_eq_of_lt hlt] at this; omega
  · rw [Nat.mod_eq_sub_mod hge, Nat.mod_eq_of_lt (by omega)] at this; omega

/-- The parameters after reset are valid. -/
theorem config_params_valid : Config.params.Valid := by
  refine ⟨?_, ?_, ?_, ?_, ?_⟩
  · simp [Config.params]
  · simp [Config.params]
  · simp [Config.params]
  · have := Config.msosCodeStep.isLt
    exact ofNat_ne_of_lt (by omega) (by omega)
  · have := Config.idxAltEnumStep.isLt
    exact ofNat_ne_of_lt (by omega) (by omega)

/-- `n` values fit in `ceil(log2 n)` bits. -/
theorem le_two_pow_ceilLog2 (n : Nat) : n ≤ 2 ^ ceilLog2 n := by
  unfold ceilLog2
  split
  · simpa using ‹n ≤ 1›
  · have := Nat.lt_log2_self (n := n - 1)
    omega

theorem cap_le_two_pow_idxWidth (p : Params) (f : BufId) : p.cap f ≤ 2 ^ idxWidth p f :=
  (le_two_pow_ceilLog2 _).trans (Nat.pow_le_pow_right (by decide) (Nat.le_max_right _ _))

theorem cap_lt_two_pow_cntWidth (p : Params) (f : BufId) : p.cap f < 2 ^ cntWidth p f :=
  le_two_pow_ceilLog2 _

/-- Valid parameters give every buffer at least one cell (R4). -/
theorem valid_cap_pos {p : Params} (h : p.Valid) (f : BufId) : 0 < p.cap f := by
  cases f
  · exact h.1
  · exact h.2.1

end Sys2Proof.Machine
end

