-- ==== Sys2Proof/Laws/Encoding.lean ====
section
/-! SUPPORT. Each field of an encoded word is read back, one lemma per field; the two conversions of a request are
inverse. -/

namespace Sys2Proof

/-- The low part of a concatenation. -/
theorem extract_append_low {m n : Nat} (x : BitVec m) (y : BitVec n) : (x ++ y).extractLsb' 0 n = y := by
  ext i hi
  simp only [BitVec.getElem_extractLsb', BitVec.getLsbD_append, Nat.zero_add, hi, if_true]
  exact BitVec.getLsbD_eq_getElem hi

/-- A part of the high half of a concatenation. -/
theorem extract_append_high {m n : Nat} (x : BitVec m) (y : BitVec n) (k l : Nat) :
    (x ++ y).extractLsb' (n + k) l = x.extractLsb' k l := by
  ext i hi
  simp only [BitVec.getElem_extractLsb', BitVec.getLsbD_append]
  rw [if_neg (by omega)]
  congr 1
  omega

/-- The whole of the high half of a concatenation. -/
theorem extract_append_top {m n : Nat} (x : BitVec m) (y : BitVec n) : (x ++ y).extractLsb' n m = x := by
  have := extract_append_high x y 0 m
  simpa using this

@[simp] theorem fcmdBuf_fcmdWord (f : BufId) (op : BitVec 3) (d : Byte) : fcmdBuf (fcmdWord f op d) = f := by
  have h : (fcmdWord f op d).extractLsb' 11 1 = bufBit f := by
    show ((bufBit f ++ op) ++ d).extractLsb' (8 + 3) 1 = _
    rw [extract_append_high, extract_append_top]
  cases f <;> simp [fcmdBuf, h, bufBit]

@[simp] theorem fcmdOp_fcmdWord (f : BufId) (op : BitVec 3) (d : Byte) : fcmdOp (fcmdWord f op d) = op := by
  show ((bufBit f ++ op) ++ d).extractLsb' (8 + 0) 3 = _
  rw [extract_append_high, extract_append_low]

@[simp] theorem fcmdData_fcmdWord (f : BufId) (op : BitVec 3) (d : Byte) : fcmdData (fcmdWord f op d) = d :=
  extract_append_low _ _

/-- Every FCMD word is the word of its three fields (R59). -/
theorem fcmdWord_fields (w : BitVec 12) : fcmdWord (fcmdBuf w) (fcmdOp w) (fcmdData w) = w := by
  have hb : bufBit (fcmdBuf w) = w.extractLsb' 11 1 := by
    unfold fcmdBuf
    split
    · rename_i h; rw [h]; rfl
    · rename_i h
      have : w.extractLsb' 11 1 = 0#1 := by
        have := (w.extractLsb' 11 1).isLt
        apply BitVec.eq_of_toNat_eq
        have h1 : (w.extractLsb' 11 1).toNat ≠ 1 := fun he => h (BitVec.eq_of_toNat_eq he)
        simp only [BitVec.toNat_ofNat]
        omega
      rw [this]; rfl
  apply BitVec.eq_of_getLsbD_eq
  intro i hi
  simp only [fcmdWord, hb, fcmdOp, fcmdData, BitVec.getLsbD_append, BitVec.getLsbD_extractLsb']
  split
  · simp [*]
  · split
    · rw [decide_eq_true (by omega : i - 8 < 3), Bool.true_and]; congr 1; omega
    · rw [decide_eq_true (by omega : i - 8 - 3 < 1), Bool.true_and]; congr 1; omega

/-- Unpacking a packed request gives it back (R71). -/
@[simp] theorem unpackReq_packReq (r : CtrlReq) : unpackReq (packReq r) = r := by
  obtain ⟨dir, typ, rcpt, code, value, index, length⟩ := r
  have h1 (a : BitVec 16) (b : BitVec 16) (c : BitVec 16) (d : BitVec 8) (e : BitVec 1) (t : BitVec 2) (u : BitVec 5) :
      packReq ⟨e, t, u, d, c, b, a⟩ = a ++ (b ++ (c ++ (d ++ (e ++ (t ++ u))))) := rfl
  simp only [unpackReq, h1, CtrlReq.mk.injEq]
  refine ⟨?_, ?_, ?_, ?_, ?_, ?_, ?_⟩ <;>
  · apply BitVec.eq_of_getLsbD_eq
    intro i hi
    simp only [BitVec.getLsbD_extractLsb', BitVec.getLsbD_append, hi, decide_true, Bool.true_and]
    repeat' split
    all_goals first
      | omega
      | (congr 1; omega)

/-- Packing an unpacked word gives it back: no bit of a SETUP word is dropped (R71). -/
@[simp] theorem packReq_unpackReq (w : BitVec 64) : packReq (unpackReq w) = w := by
  apply BitVec.eq_of_getLsbD_eq
  intro i hi
  simp only [packReq, unpackReq, BitVec.getLsbD_append, BitVec.getLsbD_extractLsb']
  repeat' split
  all_goals
    first
      | (rw [decide_eq_true (by omega), Bool.true_and]; congr 1; omega)

@[simp] theorem body_withType (r : CtrlBody) (t : BitVec 2) : (r.withType t).body = r := rfl
@[simp] theorem withType_typ (r : CtrlBody) (t : BitVec 2) : (r.withType t).typ = t := rfl
@[simp] theorem withType_body (r : CtrlReq) : r.body.withType r.typ = r := rfl

end Sys2Proof
end

