-- ==== Sys2Proof/Laws/State.lean ====
section
/-! SUPPORT. One lemma per field per named update of State, true by unfolding the update once, so that no later proof
unfolds a record update. -/

namespace Sys2Proof.Machine

open Sys2Proof

/-! ## The buffers -/

@[simp] theorem buf_h2d (s : State) : s.buf .h2d = s.h2d := rfl
@[simp] theorem buf_d2h (s : State) : s.buf .d2h = s.d2h := rfl

@[simp] theorem buf_setBuf_same (s : State) (f : BufId) (b : Buf) : (s.setBuf f b).buf f = b := by
  cases f <;> rfl

theorem buf_setBuf_ne (s : State) {f g : BufId} (b : Buf) (h : g ≠ f) : (s.setBuf f b).buf g = s.buf g := by
  cases f <;> cases g <;> first | rfl | exact absurd rfl h

theorem buf_setBuf (s : State) (f g : BufId) (b : Buf) :
    (s.setBuf f b).buf g = if g = f then b else s.buf g := by
  cases f <;> cases g <;> rfl

@[simp] theorem setBuf_setBuf (s : State) (f : BufId) (b c : Buf) : (s.setBuf f b).setBuf f c = s.setBuf f c := by
  cases f <;> rfl

@[simp] theorem setBuf_buf (s : State) (f : BufId) : s.setBuf f (s.buf f) = s := by cases f <;> rfl

@[simp] theorem setBuf_h2d_h2d (s : State) (b : Buf) : (s.setBuf .h2d b).h2d = b := rfl
@[simp] theorem setBuf_h2d_d2h (s : State) (b : Buf) : (s.setBuf .h2d b).d2h = s.d2h := rfl
@[simp] theorem setBuf_d2h_h2d (s : State) (b : Buf) : (s.setBuf .d2h b).h2d = s.h2d := rfl
@[simp] theorem setBuf_d2h_d2h (s : State) (b : Buf) : (s.setBuf .d2h b).d2h = b := rfl
@[simp] theorem setBuf_params (s : State) (f : BufId) (b : Buf) : (s.setBuf f b).params = s.params := by cases f <;> rfl
@[simp] theorem setBuf_modeLive (s : State) (f : BufId) (b : Buf) : (s.setBuf f b).modeLive = s.modeLive := by cases f <;> rfl
@[simp] theorem setBuf_nv (s : State) (f : BufId) (b : Buf) : (s.setBuf f b).nv = s.nv := by cases f <;> rfl
@[simp] theorem setBuf_resetPending (s : State) (f : BufId) (b : Buf) : (s.setBuf f b).resetPending = s.resetPending := by cases f <;> rfl
@[simp] theorem setBuf_fgPc (s : State) (f : BufId) (b : Buf) : (s.setBuf f b).fgPc = s.fgPc := by cases f <;> rfl
@[simp] theorem setBuf_nLeft (s : State) (f : BufId) (b : Buf) : (s.setBuf f b).nLeft = s.nLeft := by cases f <;> rfl
@[simp] theorem setBuf_frsp (s : State) (f : BufId) (b : Buf) : (s.setBuf f b).frsp = s.frsp := by cases f <;> rfl
@[simp] theorem setBuf_agent (s : State) (f : BufId) (b : Buf) : (s.setBuf f b).agent = s.agent := by cases f <;> rfl
@[simp] theorem setBuf_stimuli (s : State) (f : BufId) (b : Buf) : (s.setBuf f b).stimuli = s.stimuli := by cases f <;> rfl
@[simp] theorem setBuf_answers (s : State) (f : BufId) (b : Buf) : (s.setBuf f b).answers = s.answers := by cases f <;> rfl
@[simp] theorem setBuf_draws (s : State) (f : BufId) (b : Buf) : (s.setBuf f b).draws = s.draws := by cases f <;> rfl
@[simp] theorem setBuf_resets (s : State) (f : BufId) (b : Buf) : (s.setBuf f b).resets = s.resets := by cases f <;> rfl
@[simp] theorem setBuf_log (s : State) (f : BufId) (b : Buf) : (s.setBuf f b).log = s.log := by cases f <;> rfl

/-! ## `emit`: the record grows by one entry -/

@[simp] theorem emit_params (s : State) (e : Event) : (s.emit e).params = s.params := rfl
@[simp] theorem emit_h2d (s : State) (e : Event) : (s.emit e).h2d = s.h2d := rfl
@[simp] theorem emit_d2h (s : State) (e : Event) : (s.emit e).d2h = s.d2h := rfl
@[simp] theorem emit_modeLive (s : State) (e : Event) : (s.emit e).modeLive = s.modeLive := rfl
@[simp] theorem emit_nv (s : State) (e : Event) : (s.emit e).nv = s.nv := rfl
@[simp] theorem emit_resetPending (s : State) (e : Event) : (s.emit e).resetPending = s.resetPending := rfl
@[simp] theorem emit_fgPc (s : State) (e : Event) : (s.emit e).fgPc = s.fgPc := rfl
@[simp] theorem emit_nLeft (s : State) (e : Event) : (s.emit e).nLeft = s.nLeft := rfl
@[simp] theorem emit_frsp (s : State) (e : Event) : (s.emit e).frsp = s.frsp := rfl
@[simp] theorem emit_agent (s : State) (e : Event) : (s.emit e).agent = s.agent := rfl
@[simp] theorem emit_stimuli (s : State) (e : Event) : (s.emit e).stimuli = s.stimuli := rfl
@[simp] theorem emit_answers (s : State) (e : Event) : (s.emit e).answers = s.answers := rfl
@[simp] theorem emit_draws (s : State) (e : Event) : (s.emit e).draws = s.draws := rfl
@[simp] theorem emit_resets (s : State) (e : Event) : (s.emit e).resets = s.resets := rfl
@[simp] theorem emit_log (s : State) (e : Event) : (s.emit e).log = s.log ++ [.event e] := rfl
@[simp] theorem emit_buf (s : State) (e : Event) (f : BufId) : (s.emit e).buf f = s.buf f := by cases f <;> rfl

/-! ## `note`: the record grows by one entry -/

@[simp] theorem note_params (s : State) (x : Input) : (s.note x).params = s.params := rfl
@[simp] theorem note_h2d (s : State) (x : Input) : (s.note x).h2d = s.h2d := rfl
@[simp] theorem note_d2h (s : State) (x : Input) : (s.note x).d2h = s.d2h := rfl
@[simp] theorem note_modeLive (s : State) (x : Input) : (s.note x).modeLive = s.modeLive := rfl
@[simp] theorem note_nv (s : State) (x : Input) : (s.note x).nv = s.nv := rfl
@[simp] theorem note_resetPending (s : State) (x : Input) : (s.note x).resetPending = s.resetPending := rfl
@[simp] theorem note_fgPc (s : State) (x : Input) : (s.note x).fgPc = s.fgPc := rfl
@[simp] theorem note_nLeft (s : State) (x : Input) : (s.note x).nLeft = s.nLeft := rfl
@[simp] theorem note_frsp (s : State) (x : Input) : (s.note x).frsp = s.frsp := rfl
@[simp] theorem note_agent (s : State) (x : Input) : (s.note x).agent = s.agent := rfl
@[simp] theorem note_stimuli (s : State) (x : Input) : (s.note x).stimuli = s.stimuli := rfl
@[simp] theorem note_answers (s : State) (x : Input) : (s.note x).answers = s.answers := rfl
@[simp] theorem note_draws (s : State) (x : Input) : (s.note x).draws = s.draws := rfl
@[simp] theorem note_resets (s : State) (x : Input) : (s.note x).resets = s.resets := rfl
@[simp] theorem note_log (s : State) (x : Input) : (s.note x).log = s.log ++ [.input x] := rfl
@[simp] theorem note_buf (s : State) (x : Input) (f : BufId) : (s.note x).buf f = s.buf f := by cases f <;> rfl

@[simp] theorem emit_trace (s : State) (e : Event) : (s.emit e).trace = s.trace ++ [e] := by
  simp [State.trace, Record.event?]

@[simp] theorem note_trace (s : State) (x : Input) : (s.note x).trace = s.trace := by
  simp [State.trace, Record.event?]

/-! ## Record updates of one field, seen through the two accessors that hide a field -/

@[simp] theorem buf_with_modeLive (s : State) (v : Bit) (f : BufId) : ({ s with modeLive := v } : State).buf f = s.buf f := by cases f <;> rfl
@[simp] theorem buf_with_nv (s : State) (v : Byte) (f : BufId) : ({ s with nv := v } : State).buf f = s.buf f := by cases f <;> rfl
@[simp] theorem buf_with_resetPending (s : State) (v : Bool) (f : BufId) : ({ s with resetPending := v } : State).buf f = s.buf f := by cases f <;> rfl
@[simp] theorem buf_with_fgPc (s : State) (v : Phase) (f : BufId) : ({ s with fgPc := v } : State).buf f = s.buf f := by cases f <;> rfl
@[simp] theorem buf_with_nLeft (s : State) (v : Nat) (f : BufId) : ({ s with nLeft := v } : State).buf f = s.buf f := by cases f <;> rfl
@[simp] theorem buf_with_frsp (s : State) (v : Option Frsp) (f : BufId) : ({ s with frsp := v } : State).buf f = s.buf f := by cases f <;> rfl
@[simp] theorem buf_with_agent (s : State) (v : Agent) (f : BufId) : ({ s with agent := v } : State).buf f = s.buf f := by cases f <;> rfl
@[simp] theorem buf_with_stimuli (s : State) (v : List Stimulus) (f : BufId) : ({ s with stimuli := v } : State).buf f = s.buf f := by cases f <;> rfl
@[simp] theorem buf_with_answers (s : State) (v : Answers) (f : BufId) : ({ s with answers := v } : State).buf f = s.buf f := by cases f <;> rfl
@[simp] theorem buf_with_draws (s : State) (v : Nat) (f : BufId) : ({ s with draws := v } : State).buf f = s.buf f := by cases f <;> rfl

/-! ## The updates of the mode and of the reset -/

@[simp] theorem loadMode_params (s : State) : (loadMode s).params = s.params := rfl
@[simp] theorem loadMode_h2d (s : State) : (loadMode s).h2d = s.h2d := rfl
@[simp] theorem loadMode_d2h (s : State) : (loadMode s).d2h = s.d2h := rfl
@[simp] theorem loadMode_modeLive (s : State) : (loadMode s).modeLive = nvMode s.nv := rfl
@[simp] theorem loadMode_nv (s : State) : (loadMode s).nv = s.nv := rfl
@[simp] theorem loadMode_resetPending (s : State) : (loadMode s).resetPending = s.resetPending := rfl
@[simp] theorem loadMode_fgPc (s : State) : (loadMode s).fgPc = s.fgPc := rfl
@[simp] theorem loadMode_nLeft (s : State) : (loadMode s).nLeft = s.nLeft := rfl
@[simp] theorem loadMode_frsp (s : State) : (loadMode s).frsp = s.frsp := rfl
@[simp] theorem loadMode_agent (s : State) : (loadMode s).agent = s.agent := rfl
@[simp] theorem loadMode_stimuli (s : State) : (loadMode s).stimuli = s.stimuli := rfl
@[simp] theorem loadMode_answers (s : State) : (loadMode s).answers = s.answers := rfl
@[simp] theorem loadMode_draws (s : State) : (loadMode s).draws = s.draws := rfl
@[simp] theorem loadMode_resets (s : State) : (loadMode s).resets = s.resets := rfl
@[simp] theorem loadMode_log (s : State) : (loadMode s).log = s.log := rfl
@[simp] theorem loadMode_buf (s : State) (f : BufId) : (loadMode s).buf f = s.buf f := by cases f <;> rfl
@[simp] theorem commitMode_params (v : Bit) (s : State) : (commitMode v s).params = s.params := rfl
@[simp] theorem commitMode_h2d (v : Bit) (s : State) : (commitMode v s).h2d = s.h2d := rfl
@[simp] theorem commitMode_d2h (v : Bit) (s : State) : (commitMode v s).d2h = s.d2h := rfl
@[simp] theorem commitMode_modeLive (v : Bit) (s : State) : (commitMode v s).modeLive = v := rfl
@[simp] theorem commitMode_nv (v : Bit) (s : State) : (commitMode v s).nv = nvByte v := rfl
@[simp] theorem commitMode_resetPending (v : Bit) (s : State) : (commitMode v s).resetPending = true := rfl
@[simp] theorem commitMode_fgPc (v : Bit) (s : State) : (commitMode v s).fgPc = .halt := rfl
@[simp] theorem commitMode_nLeft (v : Bit) (s : State) : (commitMode v s).nLeft = s.nLeft := rfl
@[simp] theorem commitMode_frsp (v : Bit) (s : State) : (commitMode v s).frsp = s.frsp := rfl
@[simp] theorem commitMode_agent (v : Bit) (s : State) : (commitMode v s).agent = s.agent := rfl
@[simp] theorem commitMode_stimuli (v : Bit) (s : State) : (commitMode v s).stimuli = s.stimuli := rfl
@[simp] theorem commitMode_answers (v : Bit) (s : State) : (commitMode v s).answers = s.answers := rfl
@[simp] theorem commitMode_draws (v : Bit) (s : State) : (commitMode v s).draws = s.draws := rfl
@[simp] theorem commitMode_resets (v : Bit) (s : State) : (commitMode v s).resets = s.resets := rfl
@[simp] theorem commitMode_log (v : Bit) (s : State) : (commitMode v s).log = s.log ++ [.event (.nvWrite v), .event .shutdown, .event .wdtArm] := by simp [commitMode, nvWrite]
@[simp] theorem commitMode_buf (v : Bit) (s : State) (f : BufId) : (commitMode v s).buf f = s.buf f := by cases f <;> rfl
@[simp] theorem resetMachine_params (s : State) : (resetMachine s).params = s.params := rfl
@[simp] theorem resetMachine_modeLive (s : State) : (resetMachine s).modeLive = Config.modeAfterReset s.resets := rfl
@[simp] theorem resetMachine_nv (s : State) : (resetMachine s).nv = s.nv := rfl
@[simp] theorem resetMachine_resetPending (s : State) : (resetMachine s).resetPending = false := rfl
@[simp] theorem resetMachine_fgPc (s : State) : (resetMachine s).fgPc = .boot := rfl
@[simp] theorem resetMachine_nLeft (s : State) : (resetMachine s).nLeft = Config.nLeftAfterReset s.resets % 2 ^ cntWidth s.params .d2h := rfl
@[simp] theorem resetMachine_frsp (s : State) : (resetMachine s).frsp = s.frsp := rfl
@[simp] theorem resetMachine_agent (s : State) : (resetMachine s).agent = s.agent := rfl
@[simp] theorem resetMachine_stimuli (s : State) : (resetMachine s).stimuli = s.stimuli := rfl
@[simp] theorem resetMachine_answers (s : State) : (resetMachine s).answers = s.answers := rfl
@[simp] theorem resetMachine_draws (s : State) : (resetMachine s).draws = s.draws := rfl
@[simp] theorem resetMachine_resets (s : State) : (resetMachine s).resets = s.resets + 1 := rfl
@[simp] theorem resetMachine_log (s : State) : (resetMachine s).log = s.log ++ [.event .reset] := rfl
@[simp] theorem resetMachine_inited (s : State) (f : BufId) : ((resetMachine s).buf f).inited = false := by
  cases f <;> rfl
@[simp] theorem resetMachine_mem (s : State) (f : BufId) : ((resetMachine s).buf f).mem = [] := by cases f <;> rfl
@[simp] theorem resetMachine_head (s : State) (f : BufId) :
    ((resetMachine s).buf f).head = Config.headAfterReset s.resets f % 2 ^ idxWidth s.params f := by cases f <;> rfl
@[simp] theorem resetMachine_tail (s : State) (f : BufId) :
    ((resetMachine s).buf f).tail = Config.tailAfterReset s.resets f % 2 ^ idxWidth s.params f := by cases f <;> rfl
@[simp] theorem resetMachine_count (s : State) (f : BufId) :
    ((resetMachine s).buf f).count = Config.countAfterReset s.resets f % 2 ^ cntWidth s.params f := by cases f <;> rfl

/-! ## Results inside a step -/

@[simp] theorem andThen_ok {α β : Type} (a : α) (s : State) (k : α → State → Ret β) : (Ret.ok a s).andThen k = k a s := rfl
@[simp] theorem andThen_fault {α β : Type} (r : Fault) (k : α → State → Ret β) : (Ret.fault r).andThen k = .fault r := rfl
@[simp] theorem andThen_refused {α β : Type} (r : Refusal) (k : α → State → Ret β) :
    (Ret.refused r).andThen k = .refused r := rfl
@[simp] theorem finish_ok (s : State) : (Ret.ok () s).finish = .next s := rfl
@[simp] theorem finish_fault (r : Fault) : (Ret.fault r).finish = .fault r := rfl
@[simp] theorem finish_refused (r : Refusal) : (Ret.refused r).finish = .refused r := rfl

/-- A sequence completes exactly when its first part completes and then the rest does. -/
theorem andThen_eq_ok {α β : Type} {x : Ret α} {k : α → State → Ret β} {b : β} {t : State} :
    x.andThen k = .ok b t ↔ ∃ a s, x = .ok a s ∧ k a s = .ok b t := by
  cases x <;> simp

/-- A step completes exactly when its operation does. -/
theorem finish_eq_next {x : Ret Unit} {t : State} : x.finish = .next t ↔ x = .ok () t := by
  cases x <;> simp [Ret.finish]

end Sys2Proof.Machine
end

