-- ==== Sys2Proof/Laws/Memory.lean ====
section
/-! SUPPORT. The laws of the byte memories: read after write, and the canonical form, which every memory operation
keeps. -/

namespace Sys2Proof.Machine

open Sys2Proof

/-- A write is read back. -/
@[simp] theorem read_write_same (m : List Host.Cell) (a : Nat) (v : Byte) :
    Memory.read (Memory.write m a v) a = some v := by
  induction m with
  | nil => simp [Memory.write, Memory.read]
  | cons c rest ih =>
    simp only [Memory.write]
    split
    · simp [Memory.read]
    · split
      · simp [Memory.read]
      · rename_i h; simp [Memory.read, Ne.symm h, ih]

/-- A write leaves every other address alone. -/
theorem read_write_ne (m : List Host.Cell) {a b : Nat} (v : Byte) (h : b ≠ a) :
    Memory.read (Memory.write m a v) b = Memory.read m b := by
  induction m with
  | nil => simp [Memory.write, Memory.read, Ne.symm h]
  | cons c rest ih =>
    simp only [Memory.write]
    split
    · simp [Memory.read, Ne.symm h]
    · split
      · rename_i hc; simp [Memory.read, Ne.symm h, ← hc]
      · simp [Memory.read, ih]

theorem read_write (m : List Host.Cell) (a b : Nat) (v : Byte) :
    Memory.read (Memory.write m a v) b = if b = a then some v else Memory.read m b := by
  split
  · subst b; simp
  · exact read_write_ne m v ‹_›

/-- The first cell of a written memory is the written one or the old first one. -/
theorem write_head_lt {m : List Host.Cell} {a n : Nat} {v : Byte} (ha : n < a) (hm : ∀ c ∈ m.head?, n < c.1) :
    ∀ c ∈ (Memory.write m a v).head?, n < c.1 := by
  cases m with
  | nil => simp [Memory.write, ha]
  | cons d rest =>
    simp only [List.head?_cons, Option.mem_def, Option.some.injEq, forall_eq'] at hm
    simp only [Memory.write]
    split
    · simpa using ha
    · split <;> simp [ha, hm]

theorem wf_cons {c : Host.Cell} {m : List Host.Cell} :
    Memory.wf (c :: m) = true ↔ (∀ d ∈ m.head?, c.1 < d.1) ∧ Memory.wf m = true := by
  cases m <;> simp [Memory.wf]

/-- A write keeps the canonical form. -/
theorem write_wf {m : List Host.Cell} (a : Nat) (v : Byte) (h : Memory.wf m = true) :
    Memory.wf (Memory.write m a v) = true := by
  induction m with
  | nil => rfl
  | cons c rest ih =>
    obtain ⟨hc, hr⟩ := wf_cons.1 h
    simp only [Memory.write]
    split
    · exact wf_cons.2 ⟨by simpa using ‹a < c.1›, h⟩
    · split
      · rename_i hca; exact wf_cons.2 ⟨by simpa [hca] using hc, hr⟩
      · exact wf_cons.2 ⟨write_head_lt (by omega) hc, ih hr⟩

/-- A write adds no address but its own. -/
theorem write_within {m : List Host.Cell} {a n : Nat} (v : Byte) (ha : a < n) (h : ∀ c ∈ m, c.1 < n) :
    ∀ c ∈ Memory.write m a v, c.1 < n := by
  induction m with
  | nil => simpa [Memory.write] using ha
  | cons d rest ih =>
    simp only [List.mem_cons, forall_eq_or_imp] at h
    simp only [Memory.write]
    split
    · simp only [List.mem_cons, forall_eq_or_imp]
      exact ⟨ha, h.1, h.2⟩
    · split <;> simp only [List.mem_cons, forall_eq_or_imp]
      · exact ⟨ha, h.2⟩
      · exact ⟨h.1, ih h.2⟩

/-- A canonical memory lists nothing below its first address. -/
theorem wf_read_gt {m : List Host.Cell} {a : Nat} (h : Memory.wf m = true) (ha : ∀ d ∈ m.head?, a < d.1) :
    Memory.read m a = none := by
  induction m with
  | nil => rfl
  | cons c rest ih =>
    obtain ⟨hc, hr⟩ := wf_cons.1 h
    have hac : a < c.1 := by simpa using ha
    rw [Memory.read, if_neg (by omega)]
    exact ih hr fun d hd => by have := hc d hd; omega

/-- Two canonical memories that read alike everywhere are the same list. -/
theorem wf_ext {m n : List Host.Cell} (hm : Memory.wf m = true) (hn : Memory.wf n = true)
    (h : ∀ a, Memory.read m a = Memory.read n a) : m = n := by
  induction m generalizing n with
  | nil =>
    cases n with
    | nil => rfl
    | cons d _ => simpa [Memory.read] using h d.1
  | cons c rest ih =>
    obtain ⟨hc, hr⟩ := wf_cons.1 hm
    cases n with
    | nil => simpa [Memory.read] using h c.1
    | cons d rest' =>
      obtain ⟨hd, hr'⟩ := wf_cons.1 hn
      have hcd : c.1 = d.1 := by
        by_contra hne
        rcases Nat.lt_or_gt_of_ne hne with hlt | hgt
        · have := h c.1
          rw [wf_read_gt hn (by simpa using hlt)] at this
          simp [Memory.read] at this
        · have := h d.1
          rw [wf_read_gt hm (by simpa using hgt)] at this
          simp [Memory.read] at this
      have hval : c.2 = d.2 := by simpa [Memory.read, hcd] using h c.1
      have hrest : rest = rest' := ih hr hr' fun a => by
        rcases eq_or_ne a c.1 with rfl | hne
        · rw [wf_read_gt hr hc, wf_read_gt hr' (by rw [hcd]; exact hd)]
        · simpa [Memory.read, Ne.symm hne, Ne.symm (hcd ▸ hne)] using h a
      rw [Prod.ext hcd hval, hrest]

end Sys2Proof.Machine
end

