-- ==== Sys2Proof/Laws/Fifo.lean ====
section
/-! SUPPORT. What each buffer operation can do, said once per operation, and what it does to the abstract contents
(R89) and to the buffer invariant. Later proofs cite these and unfold no operation. -/

namespace Sys2Proof.Machine

open Sys2Proof

/-! ## The register-level results, field by field -/

@[simp] theorem afterInit_params (s : State) (f : BufId) : (s.afterInit f).params = s.params := by cases f <;> rfl
@[simp] theorem afterInit_modeLive (s : State) (f : BufId) : (s.afterInit f).modeLive = s.modeLive := by cases f <;> rfl
@[simp] theorem afterInit_nv (s : State) (f : BufId) : (s.afterInit f).nv = s.nv := by cases f <;> rfl
@[simp] theorem afterInit_resetPending (s : State) (f : BufId) : (s.afterInit f).resetPending = s.resetPending := by cases f <;> rfl
@[simp] theorem afterInit_fgPc (s : State) (f : BufId) : (s.afterInit f).fgPc = s.fgPc := by cases f <;> rfl
@[simp] theorem afterInit_nLeft (s : State) (f : BufId) : (s.afterInit f).nLeft = s.nLeft := by cases f <;> rfl
@[simp] theorem afterInit_frsp (s : State) (f : BufId) : (s.afterInit f).frsp = s.frsp := by cases f <;> rfl
@[simp] theorem afterInit_agent (s : State) (f : BufId) : (s.afterInit f).agent = s.agent := by cases f <;> rfl
@[simp] theorem afterInit_stimuli (s : State) (f : BufId) : (s.afterInit f).stimuli = s.stimuli := by cases f <;> rfl
@[simp] theorem afterInit_answers (s : State) (f : BufId) : (s.afterInit f).answers = s.answers := by cases f <;> rfl
@[simp] theorem afterInit_draws (s : State) (f : BufId) : (s.afterInit f).draws = s.draws := by cases f <;> rfl
@[simp] theorem afterInit_resets (s : State) (f : BufId) : (s.afterInit f).resets = s.resets := by cases f <;> rfl
@[simp] theorem afterInit_log (s : State) (f : BufId) : (s.afterInit f).log = s.log := by cases f <;> rfl
theorem afterInit_buf_ne (s : State) {f g : BufId} (h : g ≠ f) : (s.afterInit f).buf g = s.buf g := buf_setBuf_ne s _ h

@[simp] theorem afterInsert_params (s : State) (f : BufId) (b : Byte) : (s.afterInsert f b).params = s.params := by cases f <;> rfl
@[simp] theorem afterInsert_modeLive (s : State) (f : BufId) (b : Byte) : (s.afterInsert f b).modeLive = s.modeLive := by cases f <;> rfl
@[simp] theorem afterInsert_nv (s : State) (f : BufId) (b : Byte) : (s.afterInsert f b).nv = s.nv := by cases f <;> rfl
@[simp] theorem afterInsert_resetPending (s : State) (f : BufId) (b : Byte) : (s.afterInsert f b).resetPending = s.resetPending := by cases f <;> rfl
@[simp] theorem afterInsert_fgPc (s : State) (f : BufId) (b : Byte) : (s.afterInsert f b).fgPc = s.fgPc := by cases f <;> rfl
@[simp] theorem afterInsert_nLeft (s : State) (f : BufId) (b : Byte) : (s.afterInsert f b).nLeft = s.nLeft := by cases f <;> rfl
@[simp] theorem afterInsert_frsp (s : State) (f : BufId) (b : Byte) : (s.afterInsert f b).frsp = s.frsp := by cases f <;> rfl
@[simp] theorem afterInsert_agent (s : State) (f : BufId) (b : Byte) : (s.afterInsert f b).agent = s.agent := by cases f <;> rfl
@[simp] theorem afterInsert_stimuli (s : State) (f : BufId) (b : Byte) : (s.afterInsert f b).stimuli = s.stimuli := by cases f <;> rfl
@[simp] theorem afterInsert_answers (s : State) (f : BufId) (b : Byte) : (s.afterInsert f b).answers = s.answers := by cases f <;> rfl
@[simp] theorem afterInsert_draws (s : State) (f : BufId) (b : Byte) : (s.afterInsert f b).draws = s.draws := by cases f <;> rfl
@[simp] theorem afterInsert_resets (s : State) (f : BufId) (b : Byte) : (s.afterInsert f b).resets = s.resets := by cases f <;> rfl
@[simp] theorem afterInsert_log (s : State) (f : BufId) (b : Byte) : (s.afterInsert f b).log = s.log := by cases f <;> rfl
theorem afterInsert_buf_ne (s : State) {f g : BufId} (b : Byte) (h : g ≠ f) : (s.afterInsert f b).buf g = s.buf g := buf_setBuf_ne s _ h

@[simp] theorem afterRemove_params (s : State) (f : BufId) : (s.afterRemove f).params = s.params := by cases f <;> rfl
@[simp] theorem afterRemove_modeLive (s : State) (f : BufId) : (s.afterRemove f).modeLive = s.modeLive := by cases f <;> rfl
@[simp] theorem afterRemove_nv (s : State) (f : BufId) : (s.afterRemove f).nv = s.nv := by cases f <;> rfl
@[simp] theorem afterRemove_resetPending (s : State) (f : BufId) : (s.afterRemove f).resetPending = s.resetPending := by cases f <;> rfl
@[simp] theorem afterRemove_fgPc (s : State) (f : BufId) : (s.afterRemove f).fgPc = s.fgPc := by cases f <;> rfl
@[simp] theorem afterRemove_nLeft (s : State) (f : BufId) : (s.afterRemove f).nLeft = s.nLeft := by cases f <;> rfl
@[simp] theorem afterRemove_frsp (s : State) (f : BufId) : (s.afterRemove f).frsp = s.frsp := by cases f <;> rfl
@[simp] theorem afterRemove_agent (s : State) (f : BufId) : (s.afterRemove f).agent = s.agent := by cases f <;> rfl
@[simp] theorem afterRemove_stimuli (s : State) (f : BufId) : (s.afterRemove f).stimuli = s.stimuli := by cases f <;> rfl
@[simp] theorem afterRemove_answers (s : State) (f : BufId) : (s.afterRemove f).answers = s.answers := by cases f <;> rfl
@[simp] theorem afterRemove_draws (s : State) (f : BufId) : (s.afterRemove f).draws = s.draws := by cases f <;> rfl
@[simp] theorem afterRemove_resets (s : State) (f : BufId) : (s.afterRemove f).resets = s.resets := by cases f <;> rfl
@[simp] theorem afterRemove_log (s : State) (f : BufId) : (s.afterRemove f).log = s.log := by cases f <;> rfl
theorem afterRemove_buf_ne (s : State) {f g : BufId} (h : g ≠ f) : (s.afterRemove f).buf g = s.buf g := buf_setBuf_ne s _ h

@[simp] theorem afterInit_buf (s : State) (f : BufId) : (s.afterInit f).buf f = ⟨(s.buf f).mem, 0, 0, 0, true⟩ :=
  buf_setBuf_same s f _

@[simp] theorem afterInsert_buf (s : State) (f : BufId) (b : Byte) :
    (s.afterInsert f b).buf f = ⟨Memory.write (s.buf f).mem (s.buf f).tail b, (s.buf f).head,
      ((s.buf f).tail + 1) % s.params.cap f, (s.buf f).count + 1, (s.buf f).inited⟩ :=
  buf_setBuf_same s f _

@[simp] theorem afterRemove_buf (s : State) (f : BufId) :
    (s.afterRemove f).buf f = ⟨(s.buf f).mem, ((s.buf f).head + 1) % s.params.cap f, (s.buf f).tail,
      (s.buf f).count - 1, (s.buf f).inited⟩ :=
  buf_setBuf_same s f _

@[simp] theorem afterInit_h2d_d2h (s : State) : (s.afterInit .h2d).d2h = s.d2h := rfl
@[simp] theorem afterInit_d2h_h2d (s : State) : (s.afterInit .d2h).h2d = s.h2d := rfl
@[simp] theorem afterInsert_h2d_d2h (s : State) (b : Byte) : (s.afterInsert .h2d b).d2h = s.d2h := rfl
@[simp] theorem afterInsert_d2h_h2d (s : State) (b : Byte) : (s.afterInsert .d2h b).h2d = s.h2d := rfl
@[simp] theorem afterRemove_h2d_d2h (s : State) : (s.afterRemove .h2d).d2h = s.d2h := rfl
@[simp] theorem afterRemove_d2h_h2d (s : State) : (s.afterRemove .d2h).h2d = s.h2d := rfl

/-! ## What each operation can do -/

/-- INIT completes exactly on an uninitialised buffer, for an agent that may issue it. -/
theorem initBuf_eq_ok {a : Agent} {f : BufId} {s t : State} :
    initBuf a f s = .ok () t ↔ (s.buf f).inited = false ∧ mayInit a f = true ∧ t = s.afterInit f := by
  unfold initBuf State.afterInit
  cases h : (s.buf f).inited <;> cases h' : mayInit a f <;> simp [eq_comm]

theorem insertByte_eq {f : BufId} {b : Byte} {s : State} (h : (s.buf f).tail < s.params.cap f) :
    insertByte f b s = .ok true (s.afterInsert f b) := by
  simp [insertByte, memWrite, h, State.afterInsert, nextIndex]

/-- TRY_INSERT completes for the producer of an initialised buffer: refused without effect if it is full, accepted
otherwise. -/
theorem tryInsert_eq_ok {a : Agent} {f : BufId} {b : Byte} {s t : State} {r : Bool} :
    tryInsert a f b s = .ok r t ↔ (s.buf f).inited = true ∧ a = producer f ∧
      ((s.full f = true ∧ r = false ∧ t = s) ∨
        (s.full f = false ∧ (s.buf f).tail < s.params.cap f ∧ r = true ∧ t = s.afterInsert f b)) := by
  unfold tryInsert
  cases hi : (s.buf f).inited
  · simp
  · by_cases ha : a = producer f
    · cases hf : s.full f
      · by_cases ht : (s.buf f).tail < s.params.cap f
        · simp [ha, insertByte_eq ht, ht, eq_comm]
        · simp [ha, ht, insertByte, memWrite]
      · simp [ha, eq_comm]
    · simp [ha]

/-- TRY_REMOVE completes for the consumer of an initialised buffer: nothing if it is empty, the byte at `head`
otherwise. -/
theorem tryRemove_eq_ok {a : Agent} {f : BufId} {s t : State} {r : Option Byte} :
    tryRemove a f s = .ok r t ↔ (s.buf f).inited = true ∧ a = consumer f ∧
      ((s.empty f = true ∧ r = none ∧ t = s) ∨
        (s.empty f = false ∧ (s.buf f).head < s.params.cap f ∧ r = some (s.cell f (s.buf f).head) ∧
          t = s.afterRemove f)) := by
  unfold tryRemove
  cases hi : (s.buf f).inited
  · simp
  · by_cases ha : a = consumer f
    · cases hf : s.empty f
      · by_cases ht : (s.buf f).head < s.params.cap f
        · simp [ha, ht, removeByte, memRead, State.afterRemove, nextIndex, hi, eq_comm]
        · simp [ha, ht, removeByte, memRead]
      · simp [ha, eq_comm]
    · simp [ha]

/-- PEEK completes as TRY_REMOVE does and changes nothing. -/
theorem peekBuf_eq_ok {a : Agent} {f : BufId} {s t : State} {r : Option Byte} :
    peekBuf a f s = .ok r t ↔ (s.buf f).inited = true ∧ a = consumer f ∧ t = s ∧
      ((s.empty f = true ∧ r = none) ∨
        (s.empty f = false ∧ (s.buf f).head < s.params.cap f ∧ r = some (s.cell f (s.buf f).head))) := by
  unfold peekBuf
  cases hi : (s.buf f).inited
  · simp
  · by_cases ha : a = consumer f
    · cases hf : s.empty f
      · by_cases ht : (s.buf f).head < s.params.cap f
        · simp [ha, ht, memRead, eq_comm, and_comm]
        · simp [ha, ht, memRead]
      · simp [ha, eq_comm, and_comm]
    · simp [ha]

/-- COUNT completes on an initialised buffer, for any agent. -/
theorem countBuf_eq_ok {f : BufId} {s t : State} {k : Nat} :
    countBuf f s = .ok k t ↔ (s.buf f).inited = true ∧ k = (s.buf f).count ∧ t = s := by
  unfold countBuf
  cases (s.buf f).inited <;> simp [eq_comm]

/-- IS_FULL completes on an initialised buffer, for any agent. -/
theorem isFullBuf_eq_ok {f : BufId} {s t : State} {r : Bool} :
    isFullBuf f s = .ok r t ↔ (s.buf f).inited = true ∧ r = s.full f ∧ t = s := by
  unfold isFullBuf
  cases (s.buf f).inited <;> simp [eq_comm]

/-- IS_EMPTY completes on an initialised buffer, for any agent. -/
theorem isEmptyBuf_eq_ok {f : BufId} {s t : State} {r : Bool} :
    isEmptyBuf f s = .ok r t ↔ (s.buf f).inited = true ∧ r = s.empty f ∧ t = s := by
  unfold isEmptyBuf
  cases (s.buf f).inited <;> simp [eq_comm]

/-- A foreground step completes only in its phase. -/
theorem inPhase_eq_ok {p : Phase} {s t : State} {k : Ret Unit} :
    inPhase p s k = .ok () t ↔ s.fgPc = p ∧ k = .ok () t := by
  unfold inPhase
  split <;> simp [*]

/-- A dispatch completes only while the block serves requests. -/
theorem whenServing_eq_ok {s t : State} {k : Ret Unit} :
    whenServing s k = .ok () t ↔ s.serving = true ∧ k = .ok () t := by
  unfold whenServing
  split <;> simp [*]

/-- SET_AND_COMMIT completes while the block serves requests: unchanged for the current mode, committed otherwise. -/
theorem setAndCommit_eq_ok {v : Bit} {s t : State} :
    setAndCommit v s = .ok () t ↔ s.serving = true ∧
      ((v = s.modeLive ∧ t = s) ∨ (v ≠ s.modeLive ∧ t = commitMode v s)) := by
  unfold setAndCommit
  cases s.serving <;> by_cases h : v = s.modeLive <;> simp [h, eq_comm]

/-- The block serves requests exactly in the five running phases with no reset in flight. -/
theorem serving_iff {s : State} : s.serving = true ↔ s.resetPending = false ∧ s.fgPc ≠ .boot ∧ s.fgPc ≠ .halt := by
  unfold State.serving
  cases s.resetPending <;> cases s.fgPc <;> simp [Phase.running]

/-! ## The contents -/

/-- The contents depend on the buffer, the capacity and the free cells only. -/
theorem contents_congr {s t : State} {f : BufId} (hb : t.buf f = s.buf f) (hp : t.params = s.params)
    (hr : t.resets = s.resets) : t.contents f = s.contents f := by
  simp [State.contents, State.cell, hb, hp, hr]

/-- The contents have `count[f]` bytes (R19). -/
@[simp] theorem contents_length (s : State) (f : BufId) : (s.contents f).length = (s.buf f).count := by
  simp [State.contents]

theorem contents_eq_nil {s : State} {f : BufId} : s.contents f = [] ↔ (s.buf f).count = 0 := by
  rw [← List.length_eq_zero_iff, contents_length]

/-- Two positions of the occupied window and its end are different cells while there is room. -/
theorem window_ne {h i n c : Nat} (hi : i < n) (hn : n < c) : (h + i) % c ≠ (h + n) % c := by
  intro he
  have hd := (Nat.modEq_iff_dvd' (by omega : h + i ≤ h + n)).1 he
  exact absurd (Nat.le_of_dvd (by omega) hd) (by omega)

theorem full_eq_false {s : State} {f : BufId} (hok : (s.buf f).Ok (s.params.cap f)) (hi : (s.buf f).inited = true) :
    s.full f = false ↔ (s.buf f).count < s.params.cap f := by
  have := hok.count_le hi
  simp only [State.full, beq_eq_false_iff_ne]
  omega

theorem empty_eq_false {s : State} {f : BufId} : s.empty f = false ↔ 0 < (s.buf f).count := by
  simp [State.empty, Nat.pos_iff_ne_zero]

/-- An accepted byte is appended (R78 (e), R89). -/
theorem contents_afterInsert {s : State} {f : BufId} (b : Byte) (hok : (s.buf f).Ok (s.params.cap f))
    (hi : (s.buf f).inited = true) (hroom : (s.buf f).count < s.params.cap f) :
    (s.afterInsert f b).contents f = s.contents f ++ [b] := by
  simp only [State.contents, State.afterInsert, buf_setBuf_same, setBuf_params, List.range_succ, List.map_append,
    List.map_cons, List.map_nil, State.cell, setBuf_resets]
  congr 1
  · refine List.map_congr_left fun i hmem => ?_
    have hlt := List.mem_range.1 hmem
    rw [read_write_ne _ _ (by rw [hok.tail_eq hi]; exact window_ne hlt hroom)]
  · simp [hok.tail_eq hi]

/-- The removed byte is the first of the contents, and the rest remains (R79 (e), R89). -/
theorem contents_afterRemove {s : State} {f : BufId} (hok : (s.buf f).Ok (s.params.cap f))
    (hi : (s.buf f).inited = true) (hne : 0 < (s.buf f).count) :
    s.contents f = s.cell f (s.buf f).head :: (s.afterRemove f).contents f := by
  obtain ⟨n, hn⟩ := Nat.exists_eq_add_of_lt hne
  simp only [State.contents, State.afterRemove, buf_setBuf_same, setBuf_params, State.cell, setBuf_resets]
  simp only [hn, Nat.zero_add, Nat.add_sub_cancel]
  rw [List.range_succ_eq_map, List.map_cons, List.map_map]
  congr 1
  · simp [Nat.mod_eq_of_lt (hok.head_lt hi)]
  · refine List.map_congr_left fun i _ => ?_
    simp only [Function.comp, Nat.succ_eq_add_one, Nat.mod_add_mod]
    rw [show (s.buf f).head + (i + 1) = (s.buf f).head + 1 + i by omega]

/-- A fresh buffer is empty (R77). -/
@[simp] theorem contents_afterInit (s : State) (f : BufId) : (s.afterInit f).contents f = [] := by
  simp [State.contents, State.afterInit]

/-- An operation on one buffer leaves the other's contents alone (R13). -/
theorem contents_setBuf_ne (s : State) {f g : BufId} (b : Buf) (h : g ≠ f) :
    (s.setBuf f b).contents g = s.contents g :=
  contents_congr (buf_setBuf_ne s b h) (by simp) (by simp)

/-! ## The buffer invariant -/

/-- INIT establishes the invariant. -/
theorem ok_afterInit {s : State} {f : BufId} (hp : 0 < s.params.cap f) (hok : (s.buf f).Ok (s.params.cap f)) :
    ((s.afterInit f).buf f).Ok (s.params.cap f) := by
  simp only [State.afterInit, buf_setBuf_same]
  exact ⟨hok.canonical, hok.within, fun _ => hp, fun _ => Nat.zero_le _, fun _ => by simp,
    fun _ i hi => absurd hi (Nat.not_lt_zero i)⟩

/-- An accepted TRY_INSERT keeps the invariant. -/
theorem ok_afterInsert {s : State} {f : BufId} (b : Byte) (hok : (s.buf f).Ok (s.params.cap f))
    (hi : (s.buf f).inited = true) (hroom : (s.buf f).count < s.params.cap f) :
    ((s.afterInsert f b).buf f).Ok (s.params.cap f) := by
  simp only [State.afterInsert, buf_setBuf_same]
  have ht := hok.tail_eq hi
  refine ⟨write_wf _ _ hok.canonical, write_within _ ?_ hok.within, hok.head_lt, fun _ => hroom, fun _ => ?_,
    fun _ i hlt => ?_⟩
  · rw [ht]; exact Nat.mod_lt _ (by omega)
  · simp [ht, Nat.add_assoc]
  · rw [read_write]
    split
    · rfl
    · rename_i hne
      have hin : i ≠ (s.buf f).count := fun he => hne (by simp [he, ht])
      have hlt' : i < (s.buf f).count + 1 := hlt
      exact hok.written hi i (by omega)

/-- An accepted TRY_REMOVE keeps the invariant. -/
theorem ok_afterRemove {s : State} {f : BufId} (hok : (s.buf f).Ok (s.params.cap f))
    (hi : (s.buf f).inited = true) (hne : 0 < (s.buf f).count) :
    ((s.afterRemove f).buf f).Ok (s.params.cap f) := by
  simp only [State.afterRemove, buf_setBuf_same]
  have hh := hok.head_lt hi
  have hc := hok.count_le hi
  refine ⟨hok.canonical, hok.within, fun _ => Nat.mod_lt _ (by omega), fun _ => ?_, fun _ => ?_, fun _ i hlt => ?_⟩
  · show (s.buf f).count - 1 ≤ _
    omega
  · show (s.buf f).tail = (((s.buf f).head + 1) % _ + ((s.buf f).count - 1)) % _
    rw [hok.tail_eq hi, Nat.mod_add_mod]
    congr 1
    omega
  · have hlt' : i < (s.buf f).count - 1 := hlt
    show (Memory.read _ ((((s.buf f).head + 1) % _ + i) % _)).isSome = true
    rw [Nat.mod_add_mod, show (s.buf f).head + 1 + i = (s.buf f).head + (i + 1) by omega]
    exact hok.written hi (i + 1) (by omega)

/-- An uninitialised buffer with nothing written meets the invariant, whatever its registers hold (R33). -/
theorem ok_uninitialised {cap : Nat} {b : Buf} (hm : b.mem = []) (hi : b.inited = false) : b.Ok cap := by
  refine ⟨by simp [hm, Memory.wf], by simp [hm], ?_, ?_, ?_, ?_⟩ <;> simp [hi]

/-- In an initialised buffer that meets the invariant, `tail` and `head` address cells that exist (R42). -/
theorem tail_lt {s : State} {f : BufId} (hok : (s.buf f).Ok (s.params.cap f)) (hi : (s.buf f).inited = true) :
    (s.buf f).tail < s.params.cap f := by
  have := hok.head_lt hi
  rw [hok.tail_eq hi]
  exact Nat.mod_lt _ (by omega)

end Sys2Proof.Machine
end

