-- ==== Sys2Proof/Laws/Exec.lean ====
section
/-! SUPPORT. What each instruction can do, said once: when it answers a next state, and which. Later proofs cite these
and unfold no meaning. -/

namespace Sys2Proof.Machine

open Sys2Proof

/-! ## Draws -/

/-- A draw of `usb_read_byte()` changes the answers, the number of draws and the record. -/
theorem drawUsbRead_frame {s s' : State} {r : Option Byte} (h : drawUsbRead s = .ok r s') :
    s' = { s with answers := s'.answers, draws := s'.draws, log := s.log ++ [.input (.usbRead r)] } := by
  simp only [drawUsbRead, Ret.ok.injEq] at h
  obtain ⟨rfl, rfl⟩ := h
  rfl

theorem drawUsbReady_frame {s s' : State} {r : Bool} (h : drawUsbReady s = .ok r s') :
    s' = { s with answers := s'.answers, draws := s'.draws, log := s.log ++ [.input (.usbReady r)] } := by
  simp only [drawUsbReady, Ret.ok.injEq] at h
  obtain ⟨rfl, rfl⟩ := h
  rfl

theorem drawUsbSend_frame {s s' : State} {r : Bool} (h : drawUsbSend s = .ok r s') :
    s' = { s with answers := s'.answers, draws := s'.draws, log := s.log ++ [.input (.usbSend r)] } := by
  simp only [drawUsbSend, Ret.ok.injEq] at h
  obtain ⟨rfl, rfl⟩ := h
  rfl

theorem drawUartReady_frame {s s' : State} {r : Bool} (h : drawUartReady s = .ok r s') :
    s' = { s with answers := s'.answers, draws := s'.draws, log := s.log ++ [.input (.uartReady r)] } := by
  simp only [drawUartReady, Ret.ok.injEq] at h
  obtain ⟨rfl, rfl⟩ := h
  rfl

theorem drawAltEnumAck_frame {s s' : State} {r : Bool} (h : drawAltEnumAck s = .ok r s') :
    s' = { s with answers := s'.answers, draws := s'.draws, log := s.log ++ [.input (.altEnumAck r)] } := by
  simp only [drawAltEnumAck, Ret.ok.injEq] at h
  obtain ⟨rfl, rfl⟩ := h
  rfl

/-- Every draw is answered: none blocks (R106). -/
theorem drawUsbRead_ok (s : State) : ∃ r s', drawUsbRead s = .ok r s' := ⟨_, _, rfl⟩
theorem drawUsbReady_ok (s : State) : ∃ r s', drawUsbReady s = .ok r s' := ⟨_, _, rfl⟩
theorem drawUsbSend_ok (s : State) : ∃ r s', drawUsbSend s = .ok r s' := ⟨_, _, rfl⟩
theorem drawUartReady_ok (s : State) : ∃ r s', drawUartReady s = .ok r s' := ⟨_, _, rfl⟩
theorem drawAltEnumAck_ok (s : State) : ∃ r s', drawAltEnumAck s = .ok r s' := ⟨_, _, rfl⟩

/-! ## The buffer operations at a port -/

theorem exec_init {f : BufId} {s t : State} :
    exec (.init f) s = .next t ↔ (s.buf f).inited = false ∧ mayInit s.agent f = true ∧
      t = { s.afterInit f with frsp := some ⟨f, true, 0⟩ } := by
  simp only [exec, execInit, finish_eq_next, andThen_eq_ok, respond, Ret.ok.injEq, true_and]
  constructor
  · rintro ⟨⟨⟩, s', h, rfl⟩
    obtain ⟨hi, ha, rfl⟩ := initBuf_eq_ok.1 h
    exact ⟨hi, ha, rfl⟩
  · rintro ⟨hi, ha, rfl⟩; exact ⟨(), _, initBuf_eq_ok.2 ⟨hi, ha, rfl⟩, rfl⟩

theorem exec_tryInsert {f : BufId} {b : Byte} {s t : State} :
    exec (.tryInsert f b) s = .next t ↔ (s.buf f).inited = true ∧ s.agent = producer f ∧
      ((s.full f = true ∧ t = { s with frsp := some ⟨f, false, 0⟩ }) ∨
        (s.full f = false ∧ (s.buf f).tail < s.params.cap f ∧
          t = { s.afterInsert f b with frsp := some ⟨f, true, 0⟩ })) := by
  simp only [exec, execTryInsert, finish_eq_next, andThen_eq_ok, tryInsert_eq_ok, respond, Ret.ok.injEq, true_and]
  constructor
  · rintro ⟨r, s', ⟨hi, ha, ⟨hf, rfl, rfl⟩ | ⟨hf, ht, rfl, rfl⟩⟩, rfl⟩
    · exact ⟨hi, ha, .inl ⟨hf, rfl⟩⟩
    · exact ⟨hi, ha, .inr ⟨hf, ht, rfl⟩⟩
  · rintro ⟨hi, ha, ⟨hf, rfl⟩ | ⟨hf, ht, rfl⟩⟩
    · exact ⟨false, s, ⟨hi, ha, .inl ⟨hf, rfl, rfl⟩⟩, rfl⟩
    · exact ⟨true, _, ⟨hi, ha, .inr ⟨hf, ht, rfl, rfl⟩⟩, rfl⟩

theorem exec_tryRemove {f : BufId} {s t : State} :
    exec (.tryRemove f) s = .next t ↔ (s.buf f).inited = true ∧ s.agent = consumer f ∧
      ((s.empty f = true ∧ t = { s with frsp := some ⟨f, false, 0⟩ }) ∨
        (s.empty f = false ∧ (s.buf f).head < s.params.cap f ∧
          t = { s.afterRemove f with frsp := some ⟨f, true, (s.cell f (s.buf f).head).toNat⟩ })) := by
  simp only [exec, execTryRemove, finish_eq_next, andThen_eq_ok, tryRemove_eq_ok]
  constructor
  · rintro ⟨r, s', ⟨hi, ha, ⟨hf, rfl, rfl⟩ | ⟨hf, ht, rfl, rfl⟩⟩, h⟩
    · simp only [respondByte, respond, Ret.ok.injEq, true_and] at h
      exact ⟨hi, ha, .inl ⟨hf, h.symm⟩⟩
    · simp only [respondByte, respond, Ret.ok.injEq, true_and] at h
      exact ⟨hi, ha, .inr ⟨hf, ht, h.symm⟩⟩
  · rintro ⟨hi, ha, ⟨hf, rfl⟩ | ⟨hf, ht, rfl⟩⟩
    · exact ⟨none, s, ⟨hi, ha, .inl ⟨hf, rfl, rfl⟩⟩, rfl⟩
    · exact ⟨some _, _, ⟨hi, ha, .inr ⟨hf, ht, rfl, rfl⟩⟩, rfl⟩

theorem exec_peek {f : BufId} {s t : State} :
    exec (.peek f) s = .next t ↔ (s.buf f).inited = true ∧ s.agent = consumer f ∧
      ((s.empty f = true ∧ t = { s with frsp := some ⟨f, false, 0⟩ }) ∨
        (s.empty f = false ∧ (s.buf f).head < s.params.cap f ∧
          t = { s with frsp := some ⟨f, true, (s.cell f (s.buf f).head).toNat⟩ })) := by
  simp only [exec, execPeek, finish_eq_next, andThen_eq_ok, peekBuf_eq_ok]
  constructor
  · rintro ⟨r, s', ⟨hi, ha, rfl, ⟨hf, rfl⟩ | ⟨hf, ht, rfl⟩⟩, h⟩
    · simp only [respondByte, respond, Ret.ok.injEq, true_and] at h
      exact ⟨hi, ha, .inl ⟨hf, h.symm⟩⟩
    · simp only [respondByte, respond, Ret.ok.injEq, true_and] at h
      exact ⟨hi, ha, .inr ⟨hf, ht, h.symm⟩⟩
  · rintro ⟨hi, ha, ⟨hf, rfl⟩ | ⟨hf, ht, rfl⟩⟩
    · exact ⟨none, s, ⟨hi, ha, rfl, .inl ⟨hf, rfl⟩⟩, rfl⟩
    · exact ⟨some _, _, ⟨hi, ha, rfl, .inr ⟨hf, ht, rfl⟩⟩, rfl⟩

theorem exec_count {f : BufId} {s t : State} :
    exec (.count f) s = .next t ↔ (s.buf f).inited = true ∧ t = { s with frsp := some ⟨f, true, (s.buf f).count⟩ } := by
  simp only [exec, execCount, finish_eq_next, andThen_eq_ok, countBuf_eq_ok, respond, Ret.ok.injEq, true_and]
  constructor
  · rintro ⟨_, _, ⟨hi, rfl, rfl⟩, rfl⟩; exact ⟨hi, rfl⟩
  · rintro ⟨hi, rfl⟩; exact ⟨_, _, ⟨hi, rfl, rfl⟩, rfl⟩

theorem exec_isFull {f : BufId} {s t : State} :
    exec (.isFull f) s = .next t ↔ (s.buf f).inited = true ∧
      t = { s with frsp := some ⟨f, true, (s.full f).toNat⟩ } := by
  simp only [exec, execIsFull, finish_eq_next, andThen_eq_ok, isFullBuf_eq_ok, respondBool, respond, Ret.ok.injEq,
    true_and]
  constructor
  · rintro ⟨_, _, ⟨hi, rfl, rfl⟩, rfl⟩; exact ⟨hi, rfl⟩
  · rintro ⟨hi, rfl⟩; exact ⟨_, _, ⟨hi, rfl, rfl⟩, rfl⟩

theorem exec_isEmpty {f : BufId} {s t : State} :
    exec (.isEmpty f) s = .next t ↔ (s.buf f).inited = true ∧
      t = { s with frsp := some ⟨f, true, (s.empty f).toNat⟩ } := by
  simp only [exec, execIsEmpty, finish_eq_next, andThen_eq_ok, isEmptyBuf_eq_ok, respondBool, respond, Ret.ok.injEq,
    true_and]
  constructor
  · rintro ⟨_, _, ⟨hi, rfl, rfl⟩, rfl⟩; exact ⟨hi, rfl⟩
  · rintro ⟨hi, rfl⟩; exact ⟨_, _, ⟨hi, rfl, rfl⟩, rfl⟩

/-! ## The engine -/

theorem exec_uartRx {b : Byte} {s t : State} :
    exec (.uartRx b) s = .next t ↔ s.fgPc ≠ .boot ∧ s.d2h.inited = true ∧
      ((s.full .d2h = true ∧ t = s.note (.uartRx b false)) ∨
        (s.full .d2h = false ∧ s.d2h.tail < s.params.cap .d2h ∧
          t = (s.afterInsert .d2h b).note (.uartRx b true))) := by
  simp only [exec, execUartRx, finish_eq_next]
  split
  · simp [*]
  · simp only [andThen_eq_ok, tryInsert_eq_ok, Ret.ok.injEq, true_and, producer, ne_eq, *, not_false_eq_true]
    constructor
    · rintro ⟨r, s', ⟨hi, ⟨hf, rfl, rfl⟩ | ⟨hf, ht, rfl, rfl⟩⟩, rfl⟩
      · exact ⟨hi, .inl ⟨hf, rfl⟩⟩
      · exact ⟨hi, .inr ⟨hf, ht, rfl⟩⟩
    · rintro ⟨hi, ⟨hf, rfl⟩ | ⟨hf, ht, rfl⟩⟩
      · exact ⟨_, _, ⟨hi, .inl ⟨hf, rfl, rfl⟩⟩, rfl⟩
      · exact ⟨_, _, ⟨hi, .inr ⟨hf, ht, rfl, rfl⟩⟩, rfl⟩

theorem exec_boot {s t : State} :
    exec .boot s = .next t ↔ s.fgPc = .boot ∧ s.h2d.inited = false ∧ s.d2h.inited = false ∧
      t = { (s.afterInit .h2d).afterInit .d2h with modeLive := nvMode s.nv, fgPc := .s1 } := by
  simp only [exec, execBoot, finish_eq_next, inPhase_eq_ok, andThen_eq_ok, goto, Ret.ok.injEq, true_and]
  constructor
  · rintro ⟨hp, ⟨⟩, _, h1, ⟨⟩, _, h2, rfl⟩
    obtain ⟨i1, _, rfl⟩ := initBuf_eq_ok.1 h1
    obtain ⟨i2, _, rfl⟩ := initBuf_eq_ok.1 h2
    exact ⟨hp, i1, i2, rfl⟩
  · rintro ⟨hp, h1, h2, rfl⟩
    exact ⟨hp, (), _, initBuf_eq_ok.2 ⟨h1, rfl, rfl⟩, (), _, initBuf_eq_ok.2 ⟨h2, rfl, rfl⟩, rfl⟩

theorem exec_pollS1 {s t : State} :
    exec .pollS1 s = .next t ↔ s.fgPc = .s1 ∧ s.h2d.inited = true ∧
      ((s.full .h2d = true ∧ t = { s with fgPc := .s2 }) ∨
        (s.full .h2d = false ∧ ∃ r s', drawUsbRead s = .ok r s' ∧
          ((r = none ∧ t = { s' with fgPc := .s2 }) ∨
            ∃ b, r = some b ∧ s.h2d.tail < s.params.cap .h2d ∧ t = { s'.afterInsert .h2d b with fgPc := .s2 }))) := by
  simp only [exec, execPollS1, finish_eq_next, inPhase_eq_ok, andThen_eq_ok, isFullBuf_eq_ok, goto]
  constructor
  · rintro ⟨hp, full, _, ⟨hi, rfl, rfl⟩, h⟩
    refine ⟨hp, hi, ?_⟩
    split at h
    · rename_i hf; exact .inl ⟨hf, by simpa [eq_comm] using h⟩
    · rename_i hf
      simp only [andThen_eq_ok] at h
      obtain ⟨r, s', hd, h⟩ := h
      refine .inr ⟨by simpa using hf, r, s', hd, ?_⟩
      split at h
      · exact .inl ⟨rfl, by simpa [eq_comm] using h⟩
      · rename_i b
        simp only [andThen_eq_ok, tryInsert_eq_ok, Ret.ok.injEq, true_and] at h
        have hfr := drawUsbRead_frame hd
        obtain ⟨_, _, ⟨_, _, ⟨hf', _⟩ | ⟨_, ht, _, rfl⟩⟩, rfl⟩ := h
        · rw [hfr] at hf'; exact absurd hf' hf
        · rw [hfr] at ht; exact .inr ⟨b, rfl, ht, rfl⟩
  · rintro ⟨hp, hi, ⟨hf, rfl⟩ | ⟨hf, r, s', hd, h⟩⟩
    · exact ⟨hp, true, s, ⟨hi, hf.symm, rfl⟩, by simp⟩
    · have hfr := drawUsbRead_frame hd
      refine ⟨hp, false, s, ⟨hi, hf.symm, rfl⟩, ?_⟩
      simp only [Bool.false_eq_true, if_false, hd, andThen_ok]
      obtain ⟨rfl, rfl⟩ | ⟨b, rfl, ht, rfl⟩ := h
      · rfl
      · simp only [andThen_eq_ok]
        refine ⟨true, s'.afterInsert .h2d b, tryInsert_eq_ok.2 ⟨?_, rfl, .inr ⟨?_, ?_, rfl, rfl⟩⟩, rfl⟩ <;> rw [hfr] <;>
          assumption

theorem exec_pollS2 {s t : State} :
    exec .pollS2 s = .next t ↔ s.fgPc = .s2 ∧ s.d2h.inited = true ∧
      ((s.empty .d2h = true ∧ t = { s with fgPc := .s3 }) ∨
        (s.empty .d2h = false ∧ ∃ rdy s', drawUsbReady s = .ok rdy s' ∧
          ((rdy = false ∧ t = { s' with fgPc := .s3 }) ∨
            (rdy = true ∧ t = { s' with
              nLeft := burstLength s.params s.d2h.count
              fgPc := if burstLength s.params s.d2h.count = 0 then .s3 else .s2l })))) := by
  simp only [exec, execPollS2, finish_eq_next, inPhase_eq_ok, andThen_eq_ok, isEmptyBuf_eq_ok, goto]
  constructor
  · rintro ⟨hp, empty, _, ⟨hi, rfl, rfl⟩, h⟩
    refine ⟨hp, hi, ?_⟩
    split at h
    · rename_i hf; exact .inl ⟨hf, by simpa [eq_comm] using h⟩
    · rename_i hf
      simp only [andThen_eq_ok] at h
      obtain ⟨r, s', hd, h⟩ := h
      have hfr := drawUsbReady_frame hd
      refine .inr ⟨by simpa using hf, r, s', hd, ?_⟩
      cases r
      · exact .inl ⟨rfl, by simpa [eq_comm] using h⟩
      · simp only [Bool.not_true, Bool.false_eq_true, if_false, andThen_eq_ok, countBuf_eq_ok, Ret.ok.injEq,
          true_and] at h
        obtain ⟨_, _, ⟨_, rfl, rfl⟩, rfl⟩ := h
        refine .inr ⟨rfl, ?_⟩
        rw [hfr]
        rfl
  · rintro ⟨hp, hi, ⟨hf, rfl⟩ | ⟨hf, r, s', hd, h⟩⟩
    · exact ⟨hp, true, s, ⟨hi, hf.symm, rfl⟩, by simp⟩
    · have hfr := drawUsbReady_frame hd
      refine ⟨hp, false, s, ⟨hi, hf.symm, rfl⟩, ?_⟩
      simp only [Bool.false_eq_true, if_false, hd, andThen_ok]
      obtain ⟨rfl, rfl⟩ | ⟨rfl, rfl⟩ := h
      · rfl
      · simp only [Bool.not_true, Bool.false_eq_true, if_false, andThen_eq_ok]
        refine ⟨s.d2h.count, s', countBuf_eq_ok.2 ⟨?_, ?_, rfl⟩, ?_⟩ <;> rw [hfr]
        · exact hi
        · rfl

theorem exec_pollS2l {s t : State} :
    exec .pollS2l s = .next t ↔ s.fgPc = .s2l ∧ s.nLeft ≠ 0 ∧ s.d2h.inited = true ∧ s.empty .d2h = false ∧
      s.d2h.head < s.params.cap .d2h ∧ ∃ sent s', drawUsbSend s = .ok sent s' ∧
        ((sent = false ∧ t = { s' with fgPc := .s3 }) ∨
          (sent = true ∧ t = { (s'.afterRemove .d2h).emit (.usbIn (s.cell .d2h s.d2h.head)) with
            nLeft := s.nLeft - 1
            fgPc := if s.nLeft - 1 = 0 then .s3 else .s2l })) := by
  simp only [exec, execPollS2l, finish_eq_next, inPhase_eq_ok, goto]
  by_cases hn : s.nLeft = 0
  · simp [hn]
  · simp only [hn, if_false, andThen_eq_ok, peekBuf_eq_ok, ne_eq, not_false_eq_true, true_and, buf_d2h, consumer]
    constructor
    · rintro ⟨hp, r, s', ⟨hi, rfl, ⟨hf, rfl⟩ | ⟨hf, ht, rfl⟩⟩, h⟩
      · simp at h
      · simp only [andThen_eq_ok] at h
        obtain ⟨sent, s2, hd, h⟩ := h
        have hfr := drawUsbSend_frame hd
        refine ⟨hp, hi, hf, ht, sent, s2, hd, ?_⟩
        cases sent
        · exact .inl ⟨rfl, by simpa [eq_comm] using h⟩
        · simp only [if_true, andThen_eq_ok, tryRemove_eq_ok, Ret.ok.injEq, true_and] at h
          obtain ⟨_, _, ⟨_, _, ⟨hf', _⟩ | ⟨_, _, _, rfl⟩⟩, rfl⟩ := h
          · rw [hfr] at hf'
            exact absurd (hf'.symm.trans hf) Bool.true_eq_false.mp
          · refine .inr ⟨rfl, ?_⟩
            rw [hfr]
            rfl
    · rintro ⟨hp, hi, hf, ht, sent, s', hd, h⟩
      have hfr := drawUsbSend_frame hd
      refine ⟨hp, some (s.cell .d2h s.d2h.head), s, ⟨hi, rfl, .inr ⟨hf, ht, rfl⟩⟩, ?_⟩
      simp only [hd, andThen_ok]
      obtain ⟨rfl, rfl⟩ | ⟨rfl, rfl⟩ := h
      · rfl
      · simp only [if_true, andThen_eq_ok]
        refine ⟨_, s'.afterRemove .d2h, tryRemove_eq_ok.2 ⟨?_, rfl, .inr ⟨?_, ?_, rfl, rfl⟩⟩, ?_⟩ <;> rw [hfr]
        · exact hi
        · exact hf
        · exact ht
        · rfl

theorem exec_pollS3 {s t : State} :
    exec .pollS3 s = .next t ↔ s.fgPc = .s3 ∧ s.h2d.inited = true ∧ ∃ rdy s', drawUartReady s = .ok rdy s' ∧
      (((s.empty .h2d = true ∨ rdy = false) ∧ t = { s' with fgPc := .s4 }) ∨
        (s.empty .h2d = false ∧ rdy = true ∧ s.h2d.head < s.params.cap .h2d ∧
          t = { (s'.afterRemove .h2d).emit (.uartTx (s.cell .h2d s.h2d.head)) with fgPc := .s4 })) := by
  simp only [exec, execPollS3, finish_eq_next, inPhase_eq_ok, andThen_eq_ok, goto]
  constructor
  · rintro ⟨hp, rdy, s', hd, e, _, he, h⟩
    have hfr := drawUartReady_frame hd
    obtain ⟨hi, he1, he2⟩ := isEmptyBuf_eq_ok.1 he
    subst e
    rw [he2] at h
    have hi' : s.h2d.inited = true := by rw [hfr] at hi; exact hi
    have hE : ∀ x : State, x = s' → x.empty .h2d = s.empty .h2d := fun x hx => by rw [hx, hfr]; rfl
    refine ⟨hp, hi', rdy, s', hd, ?_⟩
    rw [hE s' rfl] at h
    split at h
    · rename_i hc
      simp only [Bool.and_eq_true, Bool.not_eq_true'] at hc
      simp only [andThen_eq_ok, tryRemove_eq_ok] at h
      obtain ⟨r, s2, ⟨_, _, ⟨hf', _⟩ | ⟨_, ht, rfl, rfl⟩⟩, h⟩ := h
      · rw [hE s' rfl, hc.1] at hf'; cases hf'
      · simp only [Ret.ok.injEq, true_and] at h
        refine .inr ⟨hc.1, hc.2, by rw [hfr] at ht; exact ht, ?_⟩
        rw [← h, hfr]
        rfl
    · rename_i hc
      refine .inl ⟨?_, by simpa [eq_comm] using h⟩
      revert hc
      cases s.empty .h2d <;> cases rdy <;> simp
  · rintro ⟨hp, hi, rdy, s', hd, h⟩
    have hfr := drawUartReady_frame hd
    refine ⟨hp, rdy, s', hd, s.empty .h2d, s', isEmptyBuf_eq_ok.2 ⟨?_, ?_, rfl⟩, ?_⟩
    · rw [hfr]; exact hi
    · rw [hfr]; rfl
    · obtain ⟨hc, rfl⟩ | ⟨hf, rfl, ht, rfl⟩ := h
      · rw [if_neg (by rcases hc with hc | hc <;> simp [hc])]
      · simp only [hf, Bool.not_false, Bool.and_self, if_true, andThen_eq_ok]
        refine ⟨_, s'.afterRemove .h2d, tryRemove_eq_ok.2 ⟨?_, rfl, .inr ⟨?_, ?_, rfl, rfl⟩⟩, ?_⟩ <;> rw [hfr]
        · exact hi
        · exact hf
        · exact ht
        · rfl

theorem exec_pollS4 {s t : State} : exec .pollS4 s = .next t ↔ s.fgPc = .s4 ∧ t = { s with fgPc := .s1 } := by
  simp only [exec, execPollS4, finish_eq_next, inPhase_eq_ok, goto, Ret.ok.injEq, true_and, @eq_comm _ _ t]

/-! ## The mode -/

theorem exec_load {s t : State} : exec .load s = .next t ↔ s.fgPc = .boot ∧ t = loadMode s := by
  simp only [exec, execLoad, finish_eq_next, inPhase_eq_ok, Ret.ok.injEq, true_and, @eq_comm _ _ t]

theorem exec_setAndCommit {v : Bit} {s t : State} :
    exec (.setAndCommit v) s = .next t ↔ s.serving = true ∧
      ((v = s.modeLive ∧ t = s) ∨ (v ≠ s.modeLive ∧ t = commitMode v s)) := by
  simp [exec, execSetAndCommit, finish_eq_next, setAndCommit_eq_ok]

theorem exec_haltWait {s t : State} : exec .haltWait s ≠ .next t := by
  simp only [exec, execHaltWait]
  split <;> simp

theorem exec_reset {s t : State} : exec .reset s = .next t ↔ t = resetMachine s := by
  simp [exec, execReset, eq_comm]

/-! ## The dispatcher -/

theorem exec_getUrl {v l : BitVec 16} {s t : State} :
    exec (.getUrl v l) s = .next t ↔ s.serving = true ∧
      t = s.emit (.ctrl (getUrlReq s.params v l) (if v = s.params.landingPage then .payload .urlDesc else .stall)) := by
  simp only [exec, execGetUrl, finish_eq_next, whenServing_eq_ok, raiseStall, conclude]
  split <;> simp only [Ret.ok.injEq, true_and, @eq_comm _ _ t]

theorem exec_getMsosDesc {v l : BitVec 16} {s t : State} :
    exec (.getMsosDesc v l) s = .next t ↔ s.serving = true ∧
      t = s.emit (.ctrl (getMsosDescReq s.params v l)
        (.payload (if s.modeLive = 1#1 then .msosReduced else .msosFull))) := by
  simp only [exec, execGetMsosDesc, finish_eq_next, whenServing_eq_ok, conclude]
  split <;> simp only [Ret.ok.injEq, true_and, @eq_comm _ _ t]

theorem exec_setAltEnum {v l : BitVec 16} {s t : State} :
    exec (.setAltEnum v l) s = .next t ↔ s.serving = true ∧
      ((altCode v ≠ s.params.altEnumCode ∧ t = s.emit (.ctrl (setAltEnumReq s.params v l) .stall)) ∨
        (altCode v = s.params.altEnumCode ∧ s.params.altEnumFallthrough = false ∧
          t = s.emit (.ctrl (setAltEnumReq s.params v l) .ack)) ∨
        (altCode v = s.params.altEnumCode ∧ s.params.altEnumFallthrough = true ∧
          ∃ ack s', drawAltEnumAck s = .ok ack s' ∧
            t = s'.emit (.ctrl (setAltEnumReq s.params v l) (if ack then .ack else .stall)))) := by
  simp only [exec, execSetAltEnum, finish_eq_next, whenServing_eq_ok, raiseStall, conclude]
  split
  · split
    · simp [*, andThen_eq_ok, @eq_comm _ _ t]
    · simp [*, @eq_comm _ _ t]
  · simp [*, @eq_comm _ _ t]

theorem exec_setWebusbEnable {v l : BitVec 16} {s t : State} :
    exec (.setWebusbEnable v l) s = .next t ↔ s.serving = true ∧
      ((desiredMode v = s.modeLive ∧ t = s.emit (.ctrl (setWebusbEnableReq s.params v l) .ack)) ∨
        (desiredMode v ≠ s.modeLive ∧
          t = commitMode (desiredMode v) (s.emit (.ctrl (setWebusbEnableReq s.params v l) .ack)))) := by
  simp only [exec, execSetWebusbEnable, finish_eq_next, whenServing_eq_ok, conclude, andThen_ok, setAndCommit_eq_ok]
  have : ∀ e, (s.emit e).serving = s.serving := fun _ => rfl
  simp only [this, emit_modeLive, and_self_left]

theorem exec_cdcDelegateStandard {r : CtrlBody} {s t : State} :
    exec (.cdcDelegateStandard r) s = .next t ↔ s.serving = true ∧
      t = s.emit (.ctrl (r.withType 0#2) .delegateCdc) := by
  simp [exec, execCdcDelegateStandard, finish_eq_next, whenServing_eq_ok, conclude, @eq_comm _ _ t]

theorem exec_cdcDelegateClass {r : CtrlBody} {s t : State} :
    exec (.cdcDelegateClass r) s = .next t ↔ s.serving = true ∧
      t = s.emit (.ctrl (r.withType 1#2) .delegateCdc) := by
  simp [exec, execCdcDelegateClass, finish_eq_next, whenServing_eq_ok, conclude, @eq_comm _ _ t]

theorem exec_cdcDelegateReserved {r : CtrlBody} {s t : State} :
    exec (.cdcDelegateReserved r) s = .next t ↔ s.serving = true ∧
      t = s.emit (.ctrl (r.withType 3#2) .delegateCdc) := by
  simp [exec, execCdcDelegateReserved, finish_eq_next, whenServing_eq_ok, conclude, @eq_comm _ _ t]

theorem exec_vendorStall {r : CtrlBody} {s t : State} :
    exec (.vendorStall r) s = .next t ↔ s.serving = true ∧ t = s.emit (.ctrl (r.withType 2#2) .stall) := by
  simp [exec, execVendorStall, finish_eq_next, whenServing_eq_ok, raiseStall, conclude, @eq_comm _ _ t]

end Sys2Proof.Machine
end

