-- ==== Sys2Proof/Laws/Fetch.lean ====
section
/-! SUPPORT. What choosing the next step can do: a free choice is always enabled, it is the owed RESET once that is due,
and `step` runs the first stimulus listed or the free choice. -/

namespace Sys2Proof.Machine

open Sys2Proof

/-- The owed RESET that is due is the free choice (R118 (c), R184). -/
theorem freeStimulus_of_resetDue {s : State} (h : s.resetDue = true) : freeStimulus s = .reset := by
  simp [freeStimulus, h]

/-- A free choice is an enabled step (R153), and so no buffer operation from outside (R163). -/
theorem enables_freeStimulus (s : State) : s.enables (freeStimulus s) = true := by
  unfold freeStimulus
  split_ifs
  · rfl
  · assumption
  · rfl
  · simpa [State.enables]

/-- Once as many free values have been drawn as this boot's bound, a RESET in flight is due. -/
theorem resetDue_iff {s : State} :
    s.resetDue = true ↔ s.resetPending = true ∧ Config.resetDueBy s.resets ≤ s.draws := by
  simp [State.resetDue]

theorem step_of_listed {s : State} {c : Stimulus} {rest : List Stimulus} (h : s.stimuli = c :: rest) :
    step s = runStimulus c { s with stimuli := rest, agent := stimulusAgent c } := by
  simp only [step, nextStimulus, h]

theorem step_of_free {s : State} (h : s.stimuli = []) :
    step s = runStimulus (freeStimulus s)
      { s with draws := s.draws + 1, agent := stimulusAgent (freeStimulus s) } := by
  unfold step nextStimulus
  split
  · simp_all
  · rfl

end Sys2Proof.Machine
end

