-- ==== Sys2Proof/Laws/PerInstr.lean ====
section
/-! SUPPORT. The family `RowWord`: the word of every instruction, whatever its operands and the parameters, has the
route and the fixed bits that the instruction's row of opcode_table.json gives. -/

namespace Sys2Proof.Laws.RowWord

open Sys2Proof

/-- What a row of opcode_table.json fixes of a word: its route (R58), and of an FCMD or a CTRL word the bits under
`mask`. -/
inductive RowBits where
  | fcmd (mask fixed : BitVec 12)
  | evt
  | seq (code : BitVec 3)
  | ctrl (mask fixed : BitVec 64)
  | load
  | setAndCommit
  | reset
  deriving DecidableEq, Repr

/-- The `match` and `mask`, or the selector, of each row (30_encoding.md section 6). -/
def rowBits : Instr → RowBits
  | .init _ => .fcmd 0x7FF#12 0x000#12
  | .tryInsert _ _ => .fcmd 0x700#12 0x100#12
  | .tryRemove _ => .fcmd 0x7FF#12 0x200#12
  | .peek _ => .fcmd 0x7FF#12 0x300#12
  | .count _ => .fcmd 0x7FF#12 0x400#12
  | .isFull _ => .fcmd 0x7FF#12 0x500#12
  | .isEmpty _ => .fcmd 0x7FF#12 0x600#12
  | .uartRx _ => .evt
  | .boot => .seq 0b000#3
  | .pollS1 => .seq 0b001#3
  | .pollS2 => .seq 0b010#3
  | .pollS2l => .seq 0b011#3
  | .pollS3 => .seq 0b100#3
  | .pollS4 => .seq 0b101#3
  | .load => .load
  | .setAndCommit _ => .setAndCommit
  | .haltWait => .seq 0b111#3
  | .reset => .reset
  | .getUrl _ _ => .ctrl 0xFF#64 0xC0#64
  | .getMsosDesc _ _ => .ctrl 0xFF#64 0xC0#64
  | .setAltEnum _ _ => .ctrl 0xFF#64 0xC0#64
  | .setWebusbEnable _ _ => .ctrl 0xFF#64 0x40#64
  | .cdcDelegateStandard _ => .ctrl 0x60#64 0x00#64
  | .cdcDelegateClass _ => .ctrl 0x60#64 0x20#64
  | .cdcDelegateReserved _ => .ctrl 0x60#64 0x60#64
  | .vendorStall _ => .ctrl 0x60#64 0x40#64

/-- A word has the route and the bits that a row fixes. -/
def RowBits.Fits : RowBits → OpWord → Prop
  | .fcmd mask fixed, o => ∃ w, o = .fcmd w ∧ w &&& mask = fixed
  | .evt, o => ∃ b, o = .evt b
  | .seq c, o => o = .seq c
  | .ctrl mask fixed, o => ∃ w, o = .ctrl w ∧ w &&& mask = fixed
  | .load, o => o = .load
  | .setAndCommit, o => ∃ v, o = .setAndCommit v
  | .reset, o => o = .reset

/-- The encoding of `i` fits the row of `i`, under all parameters. -/
def Statement (i : Instr) : Prop := ∀ p : Params, (rowBits i).Fits (encode p i)

/-- Under the mask of an operation without data an FCMD word shows its `op` and its zero `data`, for both buffers. -/
theorem fcmdWord_masked (f : BufId) (op : BitVec 3) :
    fcmdWord f op 0#8 &&& 0x7FF#12 = (0#1 ++ op) ++ 0#8 := by
  cases f <;> revert op <;> decide

/-- Under the mask of TRY_INSERT an FCMD word shows its `op` alone. -/
theorem tryInsert_masked (f : BufId) (b : Byte) : fcmdWord f 1#3 b &&& 0x700#12 = 0x100#12 := by
  cases f <;> revert b <;> decide

/-- The low byte of a SETUP word is `dir`, `type`, `rcpt` (R71). -/
theorem packReq_low (r : CtrlReq) : packReq r &&& 0xFF#64 = (r.dir ++ (r.typ ++ r.rcpt)).zeroExtend 64 := by
  have h : (packReq r).extractLsb' 0 8 = r.dir ++ (r.typ ++ r.rcpt) := by
    apply BitVec.eq_of_getLsbD_eq
    intro i hi
    simp only [packReq, BitVec.getLsbD_extractLsb', BitVec.getLsbD_append, hi, decide_true, Bool.true_and, Nat.zero_add]
    repeat' split
    all_goals simp_all <;> omega
  rw [← h]
  apply BitVec.eq_of_toNat_eq
  simp only [BitVec.toNat_and, BitVec.toNat_ofNat, BitVec.zeroExtend_eq_setWidth, BitVec.toNat_setWidth,
    BitVec.extractLsb'_toNat, Nat.shiftRight_zero]
  rw [show 255 % 2 ^ 64 = 2 ^ 8 - 1 from rfl, Nat.and_two_pow_sub_one_eq_mod]
  omega

/-- Under the mask of `type` alone a SETUP word shows its `type` (R71). -/
theorem packReq_typ (r : CtrlReq) : packReq r &&& 0x60#64 = (r.typ ++ 0#5).zeroExtend 64 := by
  have h : packReq r &&& 0x60#64 = (packReq r &&& 0xFF#64) &&& 0x60#64 := by
    rw [BitVec.and_assoc]; rfl
  rw [h, packReq_low]
  generalize r.dir = d, r.typ = t, r.rcpt = u
  revert d t u
  decide

theorem init (f : BufId) : Statement (.init f) := fun _ => ⟨_, rfl, fcmdWord_masked f 0#3⟩
theorem tryInsert (f : BufId) (b : Byte) : Statement (.tryInsert f b) := fun _ => ⟨_, rfl, tryInsert_masked f b⟩
theorem tryRemove (f : BufId) : Statement (.tryRemove f) := fun _ => ⟨_, rfl, fcmdWord_masked f 2#3⟩
theorem peek (f : BufId) : Statement (.peek f) := fun _ => ⟨_, rfl, fcmdWord_masked f 3#3⟩
theorem count (f : BufId) : Statement (.count f) := fun _ => ⟨_, rfl, fcmdWord_masked f 4#3⟩
theorem isFull (f : BufId) : Statement (.isFull f) := fun _ => ⟨_, rfl, fcmdWord_masked f 5#3⟩
theorem isEmpty (f : BufId) : Statement (.isEmpty f) := fun _ => ⟨_, rfl, fcmdWord_masked f 6#3⟩
theorem uartRx (b : Byte) : Statement (.uartRx b) := fun _ => ⟨b, rfl⟩
theorem boot : Statement .boot := fun _ => rfl
theorem pollS1 : Statement .pollS1 := fun _ => rfl
theorem pollS2 : Statement .pollS2 := fun _ => rfl
theorem pollS2l : Statement .pollS2l := fun _ => rfl
theorem pollS3 : Statement .pollS3 := fun _ => rfl
theorem pollS4 : Statement .pollS4 := fun _ => rfl
theorem load : Statement .load := fun _ => rfl
theorem setAndCommit (v : Bit) : Statement (.setAndCommit v) := fun _ => ⟨v, rfl⟩
theorem haltWait : Statement .haltWait := fun _ => rfl
theorem reset : Statement .reset := fun _ => rfl
theorem getUrl (value length : BitVec 16) : Statement (.getUrl value length) :=
  fun p => ⟨_, rfl, (packReq_low (getUrlReq p value length)).trans (by decide : BitVec.zeroExtend 64 (1#1 ++ (2#2 ++ 0#5)) = 0xC0#64)⟩
theorem getMsosDesc (value length : BitVec 16) : Statement (.getMsosDesc value length) :=
  fun p => ⟨_, rfl, (packReq_low (getMsosDescReq p value length)).trans (by decide : BitVec.zeroExtend 64 (1#1 ++ (2#2 ++ 0#5)) = 0xC0#64)⟩
theorem setAltEnum (value length : BitVec 16) : Statement (.setAltEnum value length) :=
  fun p => ⟨_, rfl, (packReq_low (setAltEnumReq p value length)).trans (by decide : BitVec.zeroExtend 64 (1#1 ++ (2#2 ++ 0#5)) = 0xC0#64)⟩
theorem setWebusbEnable (value length : BitVec 16) : Statement (.setWebusbEnable value length) :=
  fun p => ⟨_, rfl, (packReq_low (setWebusbEnableReq p value length)).trans (by decide : BitVec.zeroExtend 64 (0#1 ++ (2#2 ++ 0#5)) = 0x40#64)⟩
theorem cdcDelegateStandard (r : CtrlBody) : Statement (.cdcDelegateStandard r) :=
  fun _ => ⟨_, rfl, (packReq_typ (r.withType 0#2)).trans (by decide : BitVec.zeroExtend 64 (0#2 ++ 0#5) = 0x00#64)⟩
theorem cdcDelegateClass (r : CtrlBody) : Statement (.cdcDelegateClass r) :=
  fun _ => ⟨_, rfl, (packReq_typ (r.withType 1#2)).trans (by decide : BitVec.zeroExtend 64 (1#2 ++ 0#5) = 0x20#64)⟩
theorem cdcDelegateReserved (r : CtrlBody) : Statement (.cdcDelegateReserved r) :=
  fun _ => ⟨_, rfl, (packReq_typ (r.withType 3#2)).trans (by decide : BitVec.zeroExtend 64 (3#2 ++ 0#5) = 0x60#64)⟩
theorem vendorStall (r : CtrlBody) : Statement (.vendorStall r) :=
  fun _ => ⟨_, rfl, (packReq_typ (r.withType 2#2)).trans (by decide : BitVec.zeroExtend 64 (2#2 ++ 0#5) = 0x40#64)⟩

end Sys2Proof.Laws.RowWord
end

