-- ==== Sys2Proof/Tests/Slice0.lean ====
section
/-! SUPPORT. Tests: the smoke test of WellFormed, a word of every operation written out from 30_encoding.md, single steps
taken from 95_test_vectors.md (each names its vector), and for every obligation with hypotheses a state and operands
that meet them. Every expected result is the spec's. -/

namespace Sys2Proof.Tests

open Sys2Proof Sys2Proof.Machine

/-! ## Helpers -/

/-- The example instantiation X1 of 95_test_vectors.md, with capacities 4 and 4 and `MAXPKT = 8`. -/
def x1 : Params where
  capH2D := 4
  capD2H := 4
  maxPkt := 8
  nvAddr := 0
  resetDelayMs := 2000
  webusbCode := 0x11#8
  msosCode := 0x22#8
  idxGetUrl := 0x31#16
  idxEnable := 0x32#16
  idxMsosDesc := 0x41#16
  idxAltEnum := 0x42#16
  landingPage := 0#16
  altEnumCode := 1#8
  altEnumFallthrough := false

/-- An initialised buffer. -/
def buf (mem : List Host.Cell) (head tail count : Nat) : Buf := ⟨mem, head, tail, count, true⟩

/-- The empty buffer that INIT leaves. -/
def fresh : Buf := buf [] 0 0 0

/-- A machine under X1 with these buffers in phase `pc`. -/
def machine (pc : Phase) (h d : Buf) : State :=
  { State.reset with params := x1, h2d := h, d2h := d, fgPc := pc }

/-- The step completed in a state of which `p` holds. -/
def ok (o : Host.Outcome State Fault Refusal) (p : State → Bool) : Bool :=
  match o with
  | .next t => p t
  | .fault _ => false
  | .refused _ => false

/-- The step faulted with `r`. -/
def faults (o : Host.Outcome State Fault Refusal) (r : Fault) : Bool :=
  match o with
  | .next _ => false
  | .fault q => q == r
  | .refused _ => false

/-- The step was refused with `r`. -/
def refuses (o : Host.Outcome State Fault Refusal) (r : Refusal) : Bool :=
  match o with
  | .next _ => false
  | .fault _ => false
  | .refused q => q == r

/-- The outcome of the CTRL event that a request's dispatch puts in the record, and how many records the step made. -/
def outcomeOf (w : BitVec 64) (s : State) : Option (CtrlOutcome × Nat) :=
  match runWord (.ctrl w) s with
  | .next t =>
    match t.log with
    | .event (.ctrl _ o) :: _ => some (o, t.log.length)
    | _ => none
  | .fault _ => none
  | .refused _ => none

theorem test_x1_valid : x1.Valid := by decide

/-! ## WellFormed refuses an ill-formed term for each of its checks -/

theorem test_wf_get_url : WellFormed x1 (.vendorStall ⟨1#1, 0#5, 0x11#8, 9#16, 0x31#16, 0#16⟩) = false := by decide
theorem test_wf_msos : WellFormed x1 (.vendorStall ⟨1#1, 0#5, 0x22#8, 9#16, 0x41#16, 0#16⟩) = false := by decide
theorem test_wf_alt : WellFormed x1 (.vendorStall ⟨1#1, 0#5, 0x22#8, 9#16, 0x42#16, 0#16⟩) = false := by decide
theorem test_wf_enable : WellFormed x1 (.vendorStall ⟨0#1, 0#5, 0x11#8, 9#16, 0x32#16, 0#16⟩) = false := by decide
/-- K18: the recipient is the interface, so it is a stall. -/
theorem test_wf_stall : WellFormed x1 (.vendorStall ⟨1#1, 1#5, 0x11#8, 0#16, 0x31#16, 0xFF#16⟩) = true := by decide

/-! ## Decoding: words written out from 30_encoding.md -/

/-- The table of FCMD words at the head of 95_test_vectors.md: `f << 11 | op << 8 | data`. -/
theorem test_decode_fcmd :
    decode x1 (.fcmd 0b1_000_00000000#12) = .ok (.init .d2h) ∧
    decode x1 (.fcmd 0b0_001_01000001#12) = .ok (.tryInsert .h2d 0x41#8) ∧
    decode x1 (.fcmd 0b1_010_00000000#12) = .ok (.tryRemove .d2h) ∧
    decode x1 (.fcmd 0b0_011_00000000#12) = .ok (.peek .h2d) ∧
    decode x1 (.fcmd 0b1_100_00000000#12) = .ok (.count .d2h) ∧
    decode x1 (.fcmd 0b0_101_00000000#12) = .ok (.isFull .h2d) ∧
    decode x1 (.fcmd 0b1_110_00000000#12) = .ok (.isEmpty .d2h) := by decide

/-- F43, F44: reserved words. -/
theorem test_decode_reserved :
    decode x1 (.fcmd 0x700#12) = .error .reservedCommand ∧ decode x1 (.fcmd 0xF00#12) = .error .reservedCommand ∧
    decode x1 (.fcmd 0x7FF#12) = .error .reservedCommand ∧ decode x1 (.fcmd 0xA01#12) = .error .reservedCommand ∧
    decode x1 (.fcmd 0x4FF#12) = .error .reservedCommand ∧ decode x1 (.fcmd 0x001#12) = .error .reservedCommand := by
  decide

/-- The codes of R69, the EVT byte of R67, and the selectors of R68. -/
theorem test_decode_seq :
    decode x1 (.seq 0b000#3) = .ok .boot ∧ decode x1 (.seq 0b001#3) = .ok .pollS1 ∧
    decode x1 (.seq 0b010#3) = .ok .pollS2 ∧ decode x1 (.seq 0b011#3) = .ok .pollS2l ∧
    decode x1 (.seq 0b100#3) = .ok .pollS3 ∧ decode x1 (.seq 0b101#3) = .ok .pollS4 ∧
    decode x1 (.seq 0b110#3) = .error .unusedPhase ∧ decode x1 (.seq 0b111#3) = .ok .haltWait ∧
    decode x1 (.evt 0x55#8) = .ok (.uartRx 0x55#8) ∧ decode x1 .load = .ok .load ∧
    decode x1 (.setAndCommit 1#1) = .ok (.setAndCommit 1#1) ∧ decode x1 .reset = .ok .reset := by decide

/-- K2, K6, K8, K15: the four recognised flows. -/
theorem test_decode_flows :
    decode x1 (.ctrl 0x00FF0031000511C0#64) = .ok (.getUrl 5#16 0xFF#16) ∧
    decode x1 (.ctrl 0x00B20041BEEF22C0#64) = .ok (.getMsosDesc 0xBEEF#16 0xB2#16) ∧
    decode x1 (.ctrl 0x0000004201FF22C0#64) = .ok (.setAltEnum 0x1FF#16 0#16) ∧
    decode x1 (.ctrl 0x00000032FFFF1140#64) = .ok (.setWebusbEnable 0xFFFF#16 0#16) := by decide

/-- K25, K24, K26, K17: the three rows of CDC_DELEGATE, and VENDOR_STALL. -/
theorem test_decode_rest :
    decode x1 (.ctrl 0x0012000001000680#64) =
      .ok (.cdcDelegateStandard ⟨1#1, 0#5, 6#8, 0x100#16, 0#16, 18#16⟩) ∧
    decode x1 (.ctrl 0x0007000000002021#64) = .ok (.cdcDelegateClass ⟨0#1, 1#5, 0x20#8, 0#16, 0#16, 7#16⟩) ∧
    decode x1 (.ctrl 0x00FF0031000011E0#64) =
      .ok (.cdcDelegateReserved ⟨1#1, 0#5, 0x11#8, 0#16, 0x31#16, 0xFF#16⟩) ∧
    decode x1 (.ctrl 0x000000000000EE41#64) = .ok (.vendorStall ⟨0#1, 1#5, 0xEE#8, 0#16, 0#16, 0#16⟩) := by decide

/-- K20, K21 and K22: near misses of R133 are stalls. -/
theorem test_decode_near_misses :
    decode x1 (.ctrl 0x0000003100001140#64) = .ok (.vendorStall ⟨0#1, 0#5, 0x11#8, 0#16, 0x31#16, 0#16⟩) ∧
    decode x1 (.ctrl 0x0000004100002240#64) = .ok (.vendorStall ⟨0#1, 0#5, 0x22#8, 0#16, 0x41#16, 0#16⟩) ∧
    decode x1 (.ctrl 0x00000043000022C0#64) = .ok (.vendorStall ⟨1#1, 0#5, 0x22#8, 0#16, 0x43#16, 0#16⟩) := by decide

/-! ## Buffer operations: vectors F1 to F48 -/

/-- X1 with another capacity for both buffers. -/
def withCap (c : Nat) : Params := { x1 with capH2D := c, capD2H := c }

/-- Widths of 95_test_vectors.md section 2.1 for capacities 1, 3, 4 and 256. -/
theorem test_widths :
    idxWidth (withCap 1) .h2d = 1 ∧ cntWidth (withCap 1) .h2d = 1 ∧
    idxWidth (withCap 3) .d2h = 2 ∧ cntWidth (withCap 3) .d2h = 2 ∧
    idxWidth (withCap 4) .h2d = 2 ∧ cntWidth (withCap 4) .h2d = 3 ∧
    idxWidth (withCap 256) .h2d = 8 ∧ cntWidth (withCap 256) .h2d = 9 ∧ rspWidth (withCap 256) .h2d = 9 := by decide

/-- F1. -/
theorem test_init : ok (exec (.init .d2h) (machine .boot Buf.reset ⟨[], 3, 1, 2, false⟩))
    (fun t => t.d2h == fresh && t.frsp == some ⟨.d2h, true, 0⟩) = true := by decide
/-- F42. -/
theorem test_init_twice :
    refuses (exec (.init .d2h) (machine .s1 fresh fresh)) (.alreadyInitialised .d2h) = true := by decide

/-- F3: `tail` wraps, the byte goes to cell 3. -/
theorem test_insert_wraps : ok (exec (.tryInsert .h2d 0x41#8) (machine .s1 (buf [(2, 0x7F#8)] 2 3 1) fresh))
    (fun t => t.h2d == buf [(2, 0x7F#8), (3, 0x41#8)] 2 0 2 && t.frsp == some ⟨.h2d, true, 0⟩) = true := by decide
/-- F4: rejected, nothing changes. -/
theorem test_insert_full :
    ok (exec (.tryInsert .h2d 0xFF#8) (machine .s1 (buf [(0, 13#8), (1, 10#8), (2, 11#8), (3, 12#8)] 1 1 4) fresh))
      (fun t => t.h2d == buf [(0, 13#8), (1, 10#8), (2, 11#8), (3, 12#8)] 1 1 4 &&
        t.frsp == some ⟨.h2d, false, 0⟩) = true := by decide

/-- F6: `head` wraps, the cell keeps its byte. -/
theorem test_remove_wraps : ok (exec (.tryRemove .d2h) (machine .s1 fresh (buf [(0, 0x20#8), (3, 0x10#8)] 3 1 2)))
    (fun t => t.d2h == buf [(0, 0x20#8), (3, 0x10#8)] 0 1 1 && t.frsp == some ⟨.d2h, true, 0x10⟩) = true := by decide
/-- F45: issued by `UISR`. -/
theorem test_remove_by_uisr : faults (exec (.tryRemove .d2h)
    { machine .s1 fresh (buf [(0, 0x20#8), (3, 0x10#8)] 3 1 2) with agent := .uisr }) (.contractViolation .uisr .d2h) =
    true := by decide

/-- F10. -/
theorem test_peek : ok (exec (.peek .d2h) (machine .s1 fresh (buf [(1, 0x7E#8), (2, 0x7D#8)] 1 3 2)))
    (fun t => t.d2h == buf [(1, 0x7E#8), (2, 0x7D#8)] 1 3 2 && t.frsp == some ⟨.d2h, true, 0x7E⟩) = true := by decide
/-- F9. -/
theorem test_peek_empty : ok (exec (.peek .d2h) (machine .s1 fresh (buf [] 1 1 0)))
    (fun t => t.frsp == some ⟨.d2h, false, 0⟩) = true := by decide

/-- F13. -/
theorem test_count : ok (exec (.count .d2h) (machine .s1 fresh (buf [] 2 1 3)))
    (fun t => t.frsp == some ⟨.d2h, true, 3⟩) = true := by decide
/-- F41. -/
theorem test_count_uninitialised :
    refuses (exec (.count .h2d) (machine .boot Buf.reset Buf.reset)) (.notInitialised .h2d) = true := by decide
/-- F12 and F13. -/
theorem test_isFull : ok (exec (.isFull .d2h) (machine .s1 fresh (buf [] 1 1 4)))
      (fun t => t.frsp == some ⟨.d2h, true, 1⟩) = true ∧
    ok (exec (.isFull .d2h) (machine .s1 fresh (buf [] 2 1 3))) (fun t => t.frsp == some ⟨.d2h, true, 0⟩) = true := by
  decide
/-- F14 and F13. -/
theorem test_isEmpty : ok (exec (.isEmpty .d2h) (machine .s1 fresh (buf [] 2 2 0)))
      (fun t => t.frsp == some ⟨.d2h, true, 1⟩) = true ∧
    ok (exec (.isEmpty .d2h) (machine .s1 fresh (buf [] 2 1 3))) (fun t => t.frsp == some ⟨.d2h, true, 0⟩) = true := by
  decide

/-! ## The engine: vectors B1 to B22 -/

/-- B1: contents 01 02 03, then 55. -/
theorem test_uartRx : ok (exec (.uartRx 0x55#8) (machine .s3 fresh (buf [(0, 1#8), (1, 2#8), (2, 3#8)] 0 3 3)))
    (fun t => t.contents .d2h == [1#8, 2#8, 3#8, 0x55#8] && t.fgPc == .s3 && t.trace == []) = true := by decide
/-- B2: `D2H` full, the byte is lost. -/
theorem test_uartRx_overrun : ok (exec (.uartRx 0x56#8)
    (machine .s3 fresh (buf [(0, 1#8), (1, 2#8), (2, 3#8), (3, 0x55#8)] 0 0 4)))
    (fun t => t.d2h == buf [(0, 1#8), (1, 2#8), (2, 3#8), (3, 0x55#8)] 0 0 4 && t.trace == []) = true := by decide

/-- B3 and B4: only bit 0 of `nv` counts. -/
theorem test_boot :
    ok (exec .boot { machine .boot Buf.reset Buf.reset with nv := 0x01#8 })
      (fun t => t.h2d == fresh && t.d2h == fresh && t.modeLive == 1#1 && t.fgPc == .s1) = true ∧
    ok (exec .boot { machine .boot Buf.reset Buf.reset with nv := 0xFE#8 }) (fun t => t.modeLive == 0#1) = true := by
  decide

/-- B5. -/
theorem test_pollS1 : ok (exec .pollS1
    { machine .s1 fresh fresh with answers := { Answers.none with usbRead := [some 0x41#8] } })
    (fun t => t.contents .h2d == [0x41#8] && t.fgPc == .s2 && t.trace == []) = true := by decide
/-- B7 (at capacity 4): with `H2D` full no draw is consumed. -/
theorem test_pollS1_full : ok (exec .pollS1
    { machine .s1 (buf [(0, 1#8), (1, 2#8), (2, 3#8), (3, 4#8)] 0 0 4) fresh with
      answers := { Answers.none with usbRead := [some 0x41#8] } })
    (fun t => t.h2d.count == 4 && t.fgPc == .s2 && t.answers.usbRead == [some 0x41#8]) = true := by decide

/-- B11: `MAXPKT = 3` limits the burst to 2. -/
theorem test_pollS2 : ok (exec .pollS2
    { machine .s2 fresh (buf [(0, 1#8), (1, 2#8), (2, 3#8)] 0 3 3) with
      params := { x1 with maxPkt := 3 }, answers := { Answers.none with usbReady := [true] } })
    (fun t => t.nLeft == 2 && t.fgPc == .s2l && t.d2h.count == 3) = true := by decide
/-- B12: with `MAXPKT = 1` no burst. -/
theorem test_pollS2_maxpkt1 : ok (exec .pollS2
    { machine .s2 fresh (buf [(0, 1#8), (1, 2#8), (2, 3#8)] 0 3 3) with
      params := { x1 with maxPkt := 1 }, answers := { Answers.none with usbReady := [true] } })
    (fun t => t.nLeft == 0 && t.fgPc == .s3) = true := by decide

/-- B13. -/
theorem test_pollS2l : ok (exec .pollS2l
    { machine .s2l fresh (buf [(0, 1#8), (1, 2#8), (2, 3#8)] 0 3 3) with
      nLeft := 3, answers := { Answers.none with usbSend := [true] } })
    (fun t => t.contents .d2h == [2#8, 3#8] && t.nLeft == 2 && t.fgPc == .s2l && t.trace == [.usbIn 1#8]) = true := by
  decide
/-- B15: the byte that was not sent stays. -/
theorem test_pollS2l_fails : ok (exec .pollS2l
    { machine .s2l fresh (buf [(1, 2#8), (2, 3#8)] 1 3 2) with
      nLeft := 2, answers := { Answers.none with usbSend := [false] } })
    (fun t => t.contents .d2h == [2#8, 3#8] && t.fgPc == .s3 && t.trace == []) = true := by decide

/-- B17. -/
theorem test_pollS3 : ok (exec .pollS3
    { machine .s3 (buf [(0, 0x41#8), (1, 0x42#8)] 0 2 2) fresh with answers := { Answers.none with uartReady := [true] } })
    (fun t => t.contents .h2d == [0x42#8] && t.fgPc == .s4 && t.trace == [.uartTx 0x41#8]) = true := by decide
/-- B18. -/
theorem test_pollS3_not_ready : ok (exec .pollS3
    { machine .s3 (buf [(0, 0x41#8), (1, 0x42#8)] 0 2 2) fresh with answers := { Answers.none with uartReady := [false] } })
    (fun t => t.contents .h2d == [0x41#8, 0x42#8] && t.fgPc == .s4 && t.trace == []) = true := by decide

/-- B20. -/
theorem test_pollS4 : ok (exec .pollS4 (machine .s4 fresh fresh)) (fun t => t == machine .s1 fresh fresh) = true := by decide

/-! ## The mode and the reset: vectors M1 to M16 -/

/-- M3, M5 and M6. -/
theorem test_load :
    ok (exec .load { machine .boot Buf.reset Buf.reset with nv := 0x02#8 }) (fun t => t.modeLive == 0#1) = true ∧
    ok (exec .load { machine .boot Buf.reset Buf.reset with nv := 0xFE#8 }) (fun t => t.modeLive == 0#1) = true ∧
    ok (exec .load { machine .boot Buf.reset Buf.reset with nv := 0xFF#8 }) (fun t => t.modeLive == 1#1) = true := by decide

/-- M9: the burst continues. -/
theorem test_commit_same : ok (exec (.setAndCommit 1#1)
    { machine .s2l fresh fresh with modeLive := 1#1, nv := 0x01#8, nLeft := 4 })
    (fun t => t.fgPc == .s2l && t.nLeft == 4 && t.nv == 0x01#8 && t.resetPending == false && t.trace == []) = true := by
  decide
/-- M12: `nv = 0x00` exactly. -/
theorem test_commit_other : ok (exec (.setAndCommit 0#1) { machine .s1 fresh fresh with modeLive := 1#1, nv := 0xFF#8 })
    (fun t => t.modeLive == 0#1 && t.nv == 0x00#8 && t.resetPending && t.fgPc == .halt &&
      t.trace == [.nvWrite 0#1, .shutdown, .wdtArm]) = true := by decide

/-- B21. -/
theorem test_haltWait : refuses (exec .haltWait { machine .halt fresh fresh with resetPending := true }) .stuckInHalt =
    true := by decide

/-- M13. -/
theorem test_reset : ok (exec .reset { machine .halt fresh fresh with resetPending := true, nv := 0x01#8 })
    (fun t => t.fgPc == .boot && t.resetPending == false && t.h2d.inited == false && t.d2h.inited == false &&
      t.nv == 0x01#8 && t.trace == [.reset]) = true := by decide

/-! ## The dispatcher: vectors K1 to K27 -/

/-- K1, K2 and K3: the whole of `value` is compared. -/
theorem test_getUrl :
    outcomeOf 0x00FF0031000011C0#64 (machine .s1 fresh fresh) = some (.payload .urlDesc, 1) ∧
    outcomeOf 0x00FF0031000511C0#64 (machine .s1 fresh fresh) = some (.stall, 1) ∧
    outcomeOf 0x00FF0031010011C0#64 (machine .s1 fresh fresh) = some (.stall, 1) := by decide

/-- K4 and K6. -/
theorem test_getMsosDesc :
    outcomeOf 0x00B20041000022C0#64 (machine .s2l fresh fresh) = some (.payload .msosFull, 1) ∧
    outcomeOf 0x00B20041BEEF22C0#64 { machine .s2l fresh fresh with modeLive := 1#1 } =
      some (.payload .msosReduced, 1) := by decide

/-- K8 and K9. -/
theorem test_setAltEnum :
    outcomeOf 0x0000004201FF22C0#64 (machine .s4 fresh fresh) = some (.ack, 1) ∧
    outcomeOf 0x00000042000122C0#64 (machine .s4 fresh fresh) = some (.stall, 1) := by decide
/-- K10: with the switch on the draw decides. -/
theorem test_setAltEnum_fallthrough : ok (exec (.setAltEnum 0x0100#16 0#16)
    { machine .s4 fresh fresh with
      params := { x1 with altEnumFallthrough := true }, answers := { Answers.none with altEnumAck := [false] } })
    (fun t => t.trace == [.ctrl (setAltEnumReq x1 0x0100#16 0#16) .stall]) = true := by decide

/-- K11: acknowledged first, then the commit. -/
theorem test_setWebusbEnable : ok (runWord (.ctrl 0x0000003200011140#64) (machine .s1 fresh fresh))
    (fun t => t.modeLive == 1#1 && t.nv == 0x01#8 && t.resetPending && t.fgPc == .halt &&
      t.trace == [.ctrl (setWebusbEnableReq x1 1#16 0#16) .ack, .nvWrite 1#1, .shutdown, .wdtArm]) = true := by decide
/-- K14: `value[0] = 0` is the current mode. -/
theorem test_setWebusbEnable_same : ok (runWord (.ctrl 0x0000003200021140#64) (machine .s1 fresh fresh))
    (fun t => t.modeLive == 0#1 && t.fgPc == .s1 && t.trace == [.ctrl (setWebusbEnableReq x1 2#16 0#16) .ack]) =
    true := by decide

/-- K24, K25 and K26. -/
theorem test_cdcDelegate :
    outcomeOf 0x0007000000002021#64 (machine .s1 fresh fresh) = some (.delegateCdc, 1) ∧
    outcomeOf 0x0012000001000680#64 (machine .s1 fresh fresh) = some (.delegateCdc, 1) ∧
    outcomeOf 0x00FF0031000011E0#64 (machine .s1 fresh fresh) = some (.delegateCdc, 1) := by decide
/-- K27: the enable request's fields with `type` class change no mode. -/
theorem test_cdcDelegate_enable :
    outcomeOf 0x0000003200011120#64 (machine .s1 fresh fresh) = some (.delegateCdc, 1) := by decide

/-- K16, K17 and K18. -/
theorem test_vendorStall :
    outcomeOf 0x000000000000EEC0#64 (machine .s3 fresh fresh) = some (.stall, 1) ∧
    outcomeOf 0x000000000000EE41#64 (machine .s3 fresh fresh) = some (.stall, 1) ∧
    outcomeOf 0x00FF0031000011C1#64 (machine .s3 fresh fresh) = some (.stall, 1) := by decide
/-- K19 and K23. -/
theorem test_vendorStall_near_miss :
    outcomeOf 0x00000032000111C0#64 (machine .s3 fresh fresh) = some (.stall, 1) ∧
    outcomeOf 0x00000041000011C0#64 (machine .s3 fresh fresh) = some (.stall, 1) := by decide

/-- M16: no request is served while a reset is in flight. -/
theorem test_ctrl_in_halt : refuses (runWord (.ctrl 0x00FF0031000011C0#64)
    { machine .halt fresh fresh with resetPending := true }) .notEnabled = true := by decide

/-! ## The step -/

/-- A step takes the stimulus listed, here FCMD 0x900 + 0x55 by `UISR`. -/
theorem test_step : ok (step { machine .s1 fresh fresh with stimuli := [.fcmd .uisr 0x955#12, .timer] })
    (fun t => t.contents .d2h == [0x55#8] && t.stimuli == [.timer] && t.agent == .uisr) = true := by decide

/-- A foreground step is the one `fg_pc` selects. -/
theorem test_step_fg : ok (step { machine .s4 fresh fresh with stimuli := [.fg] }) (fun t => t.fgPc == .s1) = true := by
  decide

/-- The table word of BOOT placed in the machine after reset runs BOOT. -/
theorem test_withFetchWord : ok (step (State.reset.withFetchWord 3 0)) (fun t => t.fgPc == .s1) = true := by decide

/-! ## Witnesses: for every obligation with hypotheses, a state and operands that meet them all together, one per clause
and at the edges of the ranges -/

/-- A buffer of capacity 4 in the middle of its run: `head` at the last cell, two bytes, the second in cell 0. -/
def wrapped : Buf := buf [(0, 0x20#8), (3, 0x10#8)] 3 1 2
/-- A full buffer of capacity 4. -/
def filled : Buf := buf [(0, 13#8), (1, 10#8), (2, 11#8), (3, 12#8)] 1 1 4
/-- An empty buffer whose `head` and `tail` stand at the last cell. -/
def emptied : Buf := buf [] 3 3 0
/-- A full buffer of capacity 4 that has not wrapped, and one with room whose `tail` is the last cell. -/
def nearlyFull : Buf := buf [(0, 1#8), (1, 2#8), (2, 3#8)] 0 3 3

theorem wrapped_ok : wrapped.Ok 4 :=
  ⟨by decide, by decide, by decide, by decide, by decide, by decide⟩
theorem filled_ok : filled.Ok 4 :=
  ⟨by decide, by decide, by decide, by decide, by decide, by decide⟩
theorem emptied_ok : emptied.Ok 4 :=
  ⟨by decide, by decide, by decide, by decide, by decide, by decide⟩
theorem fresh_ok : fresh.Ok 4 :=
  ⟨by decide, by decide, by decide, by decide, by decide, by decide⟩
theorem nearlyFull_ok : nearlyFull.Ok 4 :=
  ⟨by decide, by decide, by decide, by decide, by decide, by decide⟩
theorem reset_ok : Buf.reset.Ok 4 :=
  ⟨by decide, by decide, by decide, by decide, by decide, by decide⟩

/-- The boot phase meets the invariant. -/
theorem booting_inv : (machine .boot Buf.reset Buf.reset).Inv where
  params := test_x1_valid
  bufs f := by cases f <;> exact reset_ok
  inited h := absurd rfl h
  mode h := absurd rfl h
  halted := ⟨by decide, by decide⟩

/-- A halted machine: the mode 1 has just been committed. -/
def halted : State :=
  { machine .halt wrapped nearlyFull with modeLive := 1#1, nv := 0x01#8, resetPending := true }

theorem halted_inv : halted.Inv where
  params := test_x1_valid
  bufs f := by cases f; exacts [wrapped_ok, nearlyFull_ok]
  inited _ f := by cases f <;> rfl
  mode _ := by decide
  halted := ⟨fun _ => rfl, fun _ => rfl⟩

theorem halted_own : halted.OwnInv := ⟨fun h => absurd h (by decide), by decide⟩

/-- A machine in the middle of a burst. -/
def inBurst : State := { machine .s2l wrapped nearlyFull with nLeft := 3, answers := { Answers.none with usbSend := [true] } }

theorem inBurst_inv : inBurst.Inv where
  params := test_x1_valid
  bufs f := by cases f; exacts [wrapped_ok, nearlyFull_ok]
  inited _ f := by cases f <;> rfl
  mode _ := by decide
  halted := ⟨by decide, by decide⟩

theorem inBurst_own : inBurst.OwnInv := ⟨fun h => absurd h (by decide), by decide⟩

/-- Both buffers may be initialised by `FG`, and `D2H` also by its producer. -/
theorem witness_InitCreatesEmptyBuffer :
    (machine .boot Buf.reset Buf.reset).params.Valid ∧
    (∀ f, ((machine .boot Buf.reset Buf.reset).buf f).inited = false) ∧
    mayInit (machine .boot Buf.reset Buf.reset).agent .h2d = true ∧ mayInit .fg .d2h = true ∧ mayInit .uisr .d2h = true :=
  ⟨test_x1_valid, fun f => by cases f <;> rfl, by decide, by decide, by decide⟩

/-- Full and not full, `tail` at the last cell. -/
theorem witness_TryInsertResult :
    (∀ b ∈ [filled, nearlyFull], b.inited = true ∧ b.tail < 4) ∧ filled.count = 4 ∧ nearlyFull.tail = 3 ∧
    (machine .s1 filled fresh).agent = producer .h2d ∧ (machine .s1 filled fresh).params.cap .h2d = 4 := by decide

/-- Empty, one byte and two bytes, `head` at the last cell. -/
theorem witness_TryRemoveResult :
    (∀ b ∈ [emptied, wrapped, buf [(3, 0x10#8)] 3 0 1], b.inited = true ∧ b.head = 3) ∧ emptied.count = 0 ∧
    (machine .s1 fresh wrapped).agent = consumer .d2h ∧ (machine .s1 fresh wrapped).params.cap .d2h = 4 := by decide

theorem witness_PeekResult :
    ((machine .s1 wrapped emptied).buf .h2d).inited = true ∧ (machine .s1 wrapped emptied).agent = consumer .h2d ∧
    ((machine .s1 wrapped emptied).buf .h2d).head < (machine .s1 wrapped emptied).params.cap .h2d ∧
    ((machine .s1 wrapped emptied).buf .d2h).count = 0 := by decide

theorem witness_QueryResults : ∀ b ∈ [emptied, wrapped, filled], ((machine .s1 b b).buf .d2h).inited = true := by decide

/-- The full and the empty clause. -/
theorem witness_RejectionsAreResults :
    (filled.inited = true ∧ filled.count = x1.cap .h2d ∧ (machine .s1 filled emptied).agent = producer .h2d) ∧
    (emptied.inited = true ∧ emptied.count = 0 ∧ (machine .s1 filled emptied).agent = consumer .d2h) := by decide

theorem witness_LifecycleRefusals :
    ((machine .boot Buf.reset Buf.reset).buf .d2h).inited = false ∧ ((machine .s1 fresh fresh).buf .d2h).inited = true := by
  decide

/-- `FG` is not the producer of `D2H`, `UISR` not the consumer of either buffer. -/
theorem witness_ContractViolationsFault :
    ((machine .s1 fresh fresh).buf .d2h).inited = true ∧ Agent.fg ≠ producer .d2h ∧ Agent.uisr ≠ consumer .d2h ∧
    Agent.uisr ≠ producer .h2d ∧ Agent.host ≠ consumer .h2d := by decide

/-- Each operation completes on a buffer that meets its invariant, on both kinds of answer. -/
theorem witness_AbstractSemantics :
    (Buf.reset.Ok 4 ∧ ok (exec (.init .h2d) (machine .boot Buf.reset Buf.reset)) (fun _ => true) = true) ∧
    (filled.Ok 4 ∧ nearlyFull.Ok 4 ∧ emptied.Ok 4) ∧
    (∀ b ∈ [filled, nearlyFull, emptied],
      ∀ i ∈ [Instr.tryInsert .h2d 0xFF#8, .tryRemove .h2d, .peek .h2d, .count .h2d, .isFull .h2d, .isEmpty .h2d],
        ok (exec i (machine .s1 b fresh)) (fun _ => true) = true) :=
  ⟨⟨reset_ok, by decide⟩, ⟨filled_ok, nearlyFull_ok, emptied_ok⟩, by decide⟩

theorem witness_FifoOrder :
    emptied.Ok 4 ∧ emptied.inited = true ∧ (machine .s1 emptied fresh).contents .h2d = [] := ⟨emptied_ok, by decide, by decide⟩

/-- As many bytes as the capacity, from `head = 3`. -/
theorem witness_RoundTripOfBytes :
    emptied.Ok 4 ∧ emptied.inited = true ∧ emptied.count = 0 ∧ [1#8, 2#8, 3#8, 4#8].length ≤ x1.cap .h2d :=
  ⟨emptied_ok, by decide, by decide, by decide⟩

theorem witness_PeekThenRemove :
    wrapped.Ok 4 ∧ ok (exec (.peek .h2d) (machine .s1 wrapped fresh)) (fun t => t.frsp == some ⟨.h2d, true, 0x10⟩) = true :=
  ⟨wrapped_ok, by decide⟩

/-- Two removals with two bytes held, two insertions with two cells free, and the other side active in between. -/
theorem witness_CountsAreLowerBounds :
    wrapped.Ok 4 ∧ wrapped.inited = true ∧
    [none, some 1#8, none, some (2#8 : Byte)].countP (·.isNone) ≤ wrapped.count ∧
    [none, some 1#8, none, some (2#8 : Byte)].countP (·.isSome) ≤ x1.cap .h2d - wrapped.count :=
  ⟨wrapped_ok, by decide, by decide, by decide⟩

/-- Each of the three outcomes. -/
theorem witness_BuffersAreIndependent :
    BufId.d2h ≠ .h2d ∧ ok (exec (.tryInsert .h2d 1#8) (machine .s1 wrapped fresh)) (fun _ => true) = true ∧
    faults (exec (.tryInsert .h2d 1#8) { machine .s1 wrapped fresh with agent := .uisr }) (.contractViolation .uisr .h2d) =
      true ∧
    refuses (exec (.init .h2d) (machine .s1 wrapped fresh)) (.alreadyInitialised .h2d) = true := by decide

theorem witness_CellReadAfterWrite : 3 < (machine .s1 wrapped fresh).params.cap .h2d := by decide

/-- The largest byte, and the largest count of a buffer of 300 cells. -/
theorem witness_ResponsePacking :
    255 ≤ max 255 (x1.cap .h2d) ∧ 300 ≤ max 255 ((withCap 300).cap .h2d) := by decide

/-- Full and not full. -/
theorem witness_UartRxResult :
    ∀ b ∈ [filled, nearlyFull], (machine .s3 fresh b).fgPc ≠ .boot ∧ (machine .s3 fresh b).d2h.inited = true ∧
      (machine .s3 fresh b).d2h.tail < (machine .s3 fresh b).params.capD2H := by decide

theorem witness_BootResult :
    State.reset.fgPc = .boot ∧ State.reset.h2d.inited = false ∧ State.reset.d2h.inited = false := ⟨rfl, rfl, rfl⟩

/-- Full, and not full with `tail` at the last cell; a byte and no byte. -/
theorem witness_PollS1Result :
    (∀ b ∈ [filled, nearlyFull], (machine .s1 b fresh).fgPc = .s1 ∧ (machine .s1 b fresh).h2d.inited = true ∧
      (machine .s1 b fresh).h2d.tail < (machine .s1 b fresh).params.capH2D) ∧
    filled.count = x1.capH2D ∧ nearlyFull.count ≠ x1.capH2D ∧
    ∀ r : Option Byte, ∃ t, drawUsbRead { machine .s1 nearlyFull fresh with
      answers := { Answers.none with usbRead := [r] } } = .ok r t :=
  ⟨by decide, by decide, by decide, fun _ => ⟨_, rfl⟩⟩

theorem witness_PollS2Result :
    (∀ b ∈ [emptied, wrapped], (machine .s2 fresh b).fgPc = .s2 ∧ (machine .s2 fresh b).d2h.inited = true) ∧
    emptied.count = 0 ∧ wrapped.count ≠ 0 ∧
    ∀ r, ∃ t, drawUsbReady { machine .s2 fresh wrapped with answers := { Answers.none with usbReady := [r] } } = .ok r t :=
  ⟨by decide, by decide, by decide, fun _ => ⟨_, rfl⟩⟩

/-- The last byte of a burst, `head` at the last cell; sent and not sent. -/
theorem witness_PollS2lResult : ∀ r, ∃ t,
    drawUsbSend { machine .s2l fresh (buf [(3, 0x10#8)] 3 0 1) with
      nLeft := 1, answers := { Answers.none with usbSend := [r] } } = .ok r t ∧
    t.fgPc = .s2l ∧ t.d2h.inited = true ∧ 1 ≤ t.nLeft ∧ 1 ≤ t.d2h.count ∧ t.d2h.head < t.params.capD2H :=
  fun _ => ⟨_, rfl, rfl, rfl, Nat.le_refl 1, Nat.le_refl 1, (by decide : 3 < 4)⟩

theorem witness_PollS3Result : ∀ b ∈ [emptied, wrapped], ∀ r, ∃ t,
    drawUartReady { machine .s3 b fresh with answers := { Answers.none with uartReady := [r] } } = .ok r t ∧
    t.fgPc = .s3 ∧ t.h2d = b ∧ b.inited = true ∧ b.head < t.params.capH2D := by
  intro b hb r
  have h : ∀ b ∈ [emptied, wrapped], b.inited = true ∧ b.head < 4 := by decide
  exact ⟨_, rfl, rfl, rfl, h b hb⟩

theorem witness_PollS4Result : (machine .s4 fresh fresh).fgPc = .s4 := rfl

/-- A burst, `MAXPKT = 1`, and `MAXPKT = 2` with an endpoint that is ready. -/
theorem witness_BurstBounds : ∀ m ∈ [1, 2, 8], ok (exec .pollS2 { machine .s2 fresh wrapped with
    params := { x1 with maxPkt := m }, answers := { Answers.none with usbReady := [true] } })
    (fun t => t.fgPc == if m == 1 then .s3 else .s2l) = true := by decide

theorem witness_LoadResult : (machine .boot Buf.reset Buf.reset).fgPc = .boot := rfl

/-- The running phases, for the commit and for the whole dispatcher. -/
theorem witness_serving : ∀ pc ∈ [Phase.s1, .s2, .s2l, .s3, .s4],
    (machine pc fresh fresh).resetPending = false ∧ (machine pc fresh fresh).fgPc ∈ [Phase.s1, .s2, .s2l, .s3, .s4] := by decide

theorem witness_CommitSameModeIsNoOp :
    (machine .s3 fresh fresh).resetPending = false ∧ (machine .s3 fresh fresh).fgPc ∈ [Phase.s1, .s2, .s2l, .s3, .s4] := by
  decide

/-- Either mode. -/
theorem witness_CommitChangedMode :
    (machine .s4 fresh fresh).resetPending = false ∧ (machine .s4 fresh fresh).fgPc ∈ [Phase.s1, .s2, .s2l, .s3, .s4] ∧
    1#1 ≠ (machine .s4 fresh fresh).modeLive ∧ 0#1 ≠ { machine .s4 fresh fresh with modeLive := 1#1 }.modeLive := by decide

/-- The interrupt still runs in `HALT`: a step other than RESET that completes. -/
theorem witness_CommittedResetIsNotCancellable :
    halted.Inv ∧ halted.resetPending = true ∧ Instr.uartRx 5#8 ≠ .reset ∧
    ok (exec (.uartRx 5#8) halted) (fun _ => true) = true := ⟨halted_inv, rfl, by decide, by decide⟩

/-- A step that writes `nv`, and one that changes `mode_live`, outside the boot phase. -/
theorem witness_ModeChangesAreCommits : ok (exec (.setWebusbEnable 1#16 0#16) (machine .s2 fresh fresh))
    (fun t => t.nv != (machine .s2 fresh fresh).nv && t.modeLive != (machine .s2 fresh fresh).modeLive) = true := by decide

theorem witness_RebootInCommittedMode :
    inBurst.resetPending = false ∧ inBurst.fgPc ∈ [Phase.s1, .s2, .s2l, .s3, .s4] ∧ 1#1 ≠ inBurst.modeLive := by decide

theorem witness_GetUrlResult :
    (machine .s1 fresh fresh).resetPending = false ∧ (machine .s1 fresh fresh).fgPc ∈ [Phase.s1, .s2, .s2l, .s3, .s4] ∧
    0#16 = (machine .s1 fresh fresh).params.landingPage ∧ 5#16 ≠ (machine .s1 fresh fresh).params.landingPage := by decide

theorem witness_GetMsosDescResult :
    (machine .s2 fresh fresh).resetPending = false ∧ (machine .s2 fresh fresh).fgPc ∈ [Phase.s1, .s2, .s2l, .s3, .s4] := by
  decide

/-- The three clauses: a wrong code, the right one, and the right one with the switch on, for either answer. -/
theorem witness_SetAltEnumResult :
    (machine .s3 fresh fresh).resetPending = false ∧ (machine .s3 fresh fresh).fgPc ∈ [Phase.s1, .s2, .s2l, .s3, .s4] ∧
    (0x0001#16).extractLsb' 8 8 ≠ x1.altEnumCode ∧
    ((0x01FF#16).extractLsb' 8 8 = x1.altEnumCode ∧ x1.altEnumFallthrough = false) ∧
    { x1 with altEnumFallthrough := true }.altEnumFallthrough = true ∧
    ∀ r, ∃ t, drawAltEnumAck { machine .s3 fresh fresh with
      params := { x1 with altEnumFallthrough := true },
      answers := { Answers.none with altEnumAck := [r] } } = .ok r t :=
  ⟨by decide, by decide, by decide, by decide, by decide, fun _ => ⟨_, rfl⟩⟩

theorem witness_SetWebusbEnableResult :
    (machine .s2l fresh fresh).resetPending = false ∧ (machine .s2l fresh fresh).fgPc ∈ [Phase.s1, .s2, .s2l, .s3, .s4] ∧
    (0x0002#16).extractLsb' 0 1 = (machine .s2l fresh fresh).modeLive ∧
    (0xFFFF#16).extractLsb' 0 1 ≠ (machine .s2l fresh fresh).modeLive := by decide

theorem witness_DelegateAndStallResults :
    (machine .s4 fresh fresh).resetPending = false ∧ (machine .s4 fresh fresh).fgPc ∈ [Phase.s1, .s2, .s2l, .s3, .s4] := by
  decide

theorem witness_DispatcherImplementsTable :
    (machine .s1 fresh fresh).params.Valid ∧ (machine .s1 fresh fresh).params.altEnumFallthrough = false ∧
    (machine .s1 fresh fresh).resetPending = false ∧
    (machine .s1 fresh fresh).fgPc ∈ [Phase.s1, .s2, .s2l, .s3, .s4] := ⟨test_x1_valid, by decide, by decide, by decide⟩

/-- The fields two requests have in common. -/
def alike (w w' : BitVec 64) : Bool :=
  (unpackReq w').dir == (unpackReq w).dir && (unpackReq w').typ == (unpackReq w).typ &&
  (unpackReq w').rcpt == (unpackReq w).rcpt && (unpackReq w').code == (unpackReq w).code &&
  (unpackReq w').index == (unpackReq w).index && w' != w

/-- One pair for each of the four ways to differ: `length`, the low byte of SET_ALT_ENUM (K7, K8), `value` of
GET_MSOS_DESC (K4, K6), the high bits of SET_WEBUSB_ENABLE (K11, K15). -/
theorem witness_UnexaminedFieldsIgnored :
    (alike 0x00FF0031000011C0#64 0x00010031000011C0#64 = true ∧
      (unpackReq 0x00010031000011C0#64).value = (unpackReq 0x00FF0031000011C0#64).value) ∧
    (alike 0x00000042010022C0#64 0x0000004201FF22C0#64 = true ∧
      (unpackReq 0x0000004201FF22C0#64).value.extractLsb' 8 8 =
        (unpackReq 0x00000042010022C0#64).value.extractLsb' 8 8) ∧
    (alike 0x00B20041000022C0#64 0x00B20041BEEF22C0#64 = true ∧
      (unpackReq 0x00B20041000022C0#64).index = x1.idxMsosDesc) ∧
    (alike 0x0000003200011140#64 0x00000032FFFF1140#64 = true ∧ (unpackReq 0x0000003200011140#64).dir = 0#1 ∧
      (unpackReq 0x00000032FFFF1140#64).value.extractLsb' 0 1 =
        (unpackReq 0x0000003200011140#64).value.extractLsb' 0 1) := by decide

/-- A step of each half that completes. -/
theorem witness_HalvesAreIndependent :
    ok (exec (.setAndCommit 1#1) inBurst) (fun _ => true) = true ∧
    ok (exec (.getUrl 0#16 0#16) inBurst) (fun _ => true) = true ∧
    ok (exec (.vendorStall ⟨0#1, 0#5, 0#8, 0#16, 0#16, 0#16⟩) inBurst) (fun _ => true) = true ∧
    ok (exec .load (machine .boot Buf.reset Buf.reset)) (fun _ => true) = true ∧
    ok (exec .pollS2l inBurst) (fun _ => true) = true ∧ ok (exec (.uartRx 7#8) inBurst) (fun _ => true) = true := by
  decide

/-- Both kinds of reserved word, and a state that is about to take one. -/
theorem witness_ReservedCommandsRefused :
    (0x700#12).extractLsb' 8 3 = 7#3 ∧
    ((0x2FF#12).extractLsb' 8 3 ≠ 1#3 ∧ (0x2FF#12).extractLsb' 0 8 ≠ 0#8) ∧
    { machine .s1 fresh fresh with stimuli := [.fcmd .fg 0x700#12] }.stimuli = .fcmd .fg 0x700#12 :: [] :=
  ⟨by decide, by decide, rfl⟩

theorem witness_DecodedSampleWords : x1.webusbCode = 0x11#8 ∧ x1.idxGetUrl = 0x31#16 := by decide

/-- An instruction of each format, and the one with a side condition. -/
theorem witness_DecodeEncode :
    x1.Valid ∧ ∀ i ∈ [Instr.tryInsert .d2h 0xFF#8, .uartRx 0xFF#8, .haltWait, .getUrl 0xFFFF#16 0xFFFF#16,
      .cdcDelegateReserved ⟨1#1, 31#5, 0xFF#8, 0xFFFF#16, 0xFFFF#16, 0xFFFF#16⟩,
      .vendorStall ⟨1#1, 1#5, 0x11#8, 0#16, 0x31#16, 0#16⟩], WellFormed x1 i = true := by decide

theorem witness_EncodeDecode : decode x1 (.fcmd 0x9FF#12) = .ok (.tryInsert .d2h 0xFF#8) := by decide

/-- A listed stimulus, and a free one; and a byte, a SETUP word and a RESET that come next. -/
theorem witness_StepRunsDecodedInstruction :
    (fetchWord (.fcmd .uisr 0x955#12) { machine .s1 fresh fresh with stimuli := [], agent := .uisr } =
      some (.fcmd 0x955#12) ∧ decode x1 (.fcmd 0x955#12) = .ok (.tryInsert .d2h 0x55#8)) ∧
    ((machine .s4 fresh fresh).stimuli = [] ∧ fetchWord .fg (machine .s4 fresh fresh) = some (.seq 0b101#3) ∧
      decode x1 (.seq 0b101#3) = .ok .pollS4) ∧
    ∀ c ∈ [Stimulus.uartRx 5#8, .setup 0x00FF0031000011C0#64, .reset],
      { machine .s1 fresh fresh with stimuli := [c] }.stimuli = c :: [] :=
  ⟨⟨rfl, by decide⟩, ⟨rfl, rfl, by decide⟩, fun _ _ => rfl⟩

/-- K2: the SETUP word that comes next is dispatched, and its CTRL event recorded. -/
theorem test_step_setup : ok (step { machine .s1 fresh fresh with stimuli := [.setup 0x00FF0031000511C0#64] })
    (fun t => t.trace.length == 1 && t.agent == .fg && t.stimuli == []) = true := by decide

theorem witness_TimerChangesNothing :
    { machine .halt fresh fresh with stimuli := [.timer] }.stimuli = .timer :: [] ∧ (machine .halt fresh fresh).fgPc ≠ .boot := by
  decide

theorem witness_QueryFrame : ∀ i ∈ [Instr.peek .d2h, .count .d2h, .isFull .d2h, .isEmpty .d2h],
    ok (exec i (machine .s1 fresh wrapped)) (fun _ => true) = true := by decide

theorem witness_InitAndRemoveFrame :
    ok (exec (.init .h2d) (machine .boot Buf.reset Buf.reset)) (fun _ => true) = true ∧
    ok (exec (.tryRemove .d2h) (machine .s1 fresh wrapped)) (fun _ => true) = true := by decide

theorem witness_InsertFrame :
    ok (exec (.tryInsert .h2d 1#8) (machine .s1 nearlyFull fresh)) (fun _ => true) = true ∧
    ok (exec (.uartRx 1#8) (machine .s1 fresh nearlyFull)) (fun _ => true) = true ∧
    (machine .s1 nearlyFull nearlyFull).full .d2h = false := by decide

theorem witness_SequencerFrame :
    ok (exec .boot (machine .boot Buf.reset Buf.reset)) (fun _ => true) = true ∧
    ok (exec .pollS1 (machine .s1 filled fresh)) (fun _ => true) = true ∧
    ok (exec .pollS2 (machine .s2 fresh fresh)) (fun _ => true) = true ∧
    ok (exec .pollS2l inBurst) (fun _ => true) = true ∧
    ok (exec .pollS3 { machine .s3 wrapped fresh with answers := { Answers.none with uartReady := [true] } })
      (fun _ => true) = true ∧
    ok (exec .pollS4 (machine .s4 fresh fresh)) (fun _ => true) = true := by decide

theorem witness_ModeAndControlFrame :
    ok (exec .load (machine .boot Buf.reset Buf.reset)) (fun _ => true) = true ∧
    ok (exec (.setWebusbEnable 1#16 0#16) (machine .s1 fresh fresh)) (fun _ => true) = true ∧
    ok (exec (.getMsosDesc 1#16 0#16) (machine .s1 fresh fresh)) (fun _ => true) = true ∧
    ok (exec (.setAltEnum 1#16 0#16) (machine .s1 fresh fresh)) (fun _ => true) = true ∧
    ok (exec .reset (machine .s1 fresh fresh)) (fun _ => true) = true := by decide

/-- A step that leaves its phase for each clause of R22: the burst that is decided, the one that is not, a failed send
and the last byte among them. -/
theorem witness_PhaseSuccessors :
    ok (exec .boot (machine .boot Buf.reset Buf.reset)) (fun t => t.fgPc != .boot) = true ∧
    ok (exec .pollS1 (machine .s1 filled fresh)) (fun t => t.fgPc != .s1) = true ∧
    (∀ r ∈ [true, false],
      ok (exec .pollS2 { machine .s2 fresh wrapped with answers := { Answers.none with usbReady := [r] } })
        (fun t => t.fgPc == if r then .s2l else .s3) = true) ∧
    ok (exec .pollS2l { inBurst with answers := { Answers.none with usbSend := [false] } }) (fun t => t.fgPc != .s2l) =
      true ∧
    ok (exec .pollS2l { inBurst with nLeft := 1 }) (fun t => t.fgPc != .s2l) = true ∧
    ok (exec .pollS3 { machine .s3 wrapped fresh with answers := { Answers.none with uartReady := [true] } })
      (fun t => t.fgPc != .s3) = true ∧
    ok (exec .pollS4 (machine .s4 fresh fresh)) (fun t => t.fgPc != .s4) = true ∧
    ok (exec (.setAndCommit 1#1) inBurst) (fun t => t.fgPc != .s2l) = true ∧
    ok (exec .reset halted) (fun t => t.fgPc != .halt) = true := by decide

/-- In the middle of a burst, and in `HALT`. -/
theorem witness_StepKeepsInvariant :
    inBurst.Inv ∧ ok (step { inBurst with stimuli := [.fg] }) (fun _ => true) = true ∧
    halted.Inv ∧ ok (step { halted with stimuli := [.reset] }) (fun _ => true) = true :=
  ⟨inBurst_inv, by decide, halted_inv, by decide⟩

theorem witness_StepKeepsOwnInvariant :
    inBurst.Inv ∧ inBurst.OwnInv ∧ { inBurst with stimuli := [.fg] }.NoForeignCommand ∧
    ok (step { inBurst with stimuli := [.fg] }) (fun _ => true) = true :=
  ⟨inBurst_inv, inBurst_own, fun _ _ h => (by cases h), by decide⟩

theorem witness_StepKeepsWidths : inBurst.Inv ∧ inBurst.FitsWidths :=
  ⟨inBurst_inv, fun f => (by cases f <;> decide), by decide⟩

/-- A machine that has read one byte, passed nothing on, and accepted two bytes of which one has been sent. -/
def streaming : State :=
  { machine .s3 (buf [(0, 0x41#8)] 0 1 1) (buf [(0, 1#8), (1, 2#8)] 1 2 1) with
    answers := { Answers.none with uartReady := [true] }, stimuli := [.fg]
    log := [.event .reset, .input (.usbRead (some 0x41#8)), .input (.uartRx 1#8 true), .input (.uartRx 2#8 true),
      .event (.usbIn 1#8)] }

theorem streaming_streams : streaming.Streams := ⟨by decide, by decide, by decide, by decide⟩

theorem streaming_inv : streaming.Inv where
  params := test_x1_valid
  bufs f := by
    cases f
    · exact ⟨by decide, by decide, by decide, by decide, by decide, by decide⟩
    · exact ⟨by decide, by decide, by decide, by decide, by decide, by decide⟩
  inited _ f := by cases f <;> rfl
  mode _ := by decide
  halted := ⟨by decide, by decide⟩

theorem witness_StepKeepsStreams :
    streaming.Inv ∧ streaming.Streams ∧ streaming.NoForeignCommand ∧
    ok (step streaming) (fun t => t.trace == [.reset, .usbIn 1#8, .uartTx 0x41#8]) = true :=
  ⟨streaming_inv, streaming_streams, fun _ _ h => (by cases h), by decide⟩

/-- A listed stimulus that is enabled; none listed; and with a reset in flight the steps that may come before it. -/
theorem witness_EnabledStepsComplete :
    halted.Inv ∧ halted.OwnInv ∧ { halted with stimuli := [.reset] }.stimuli.head? = some .reset ∧
    halted.enables .reset = true ∧ halted.stimuli = [] ∧ halted.resetPending = true ∧
    ∀ c ∈ [Stimulus.uartRx 5#8, .timer, .reset], { halted with stimuli := [.uartRx 5#8, .timer, .reset] }.enables c = true :=
  ⟨halted_inv, halted_own, rfl, rfl, rfl, rfl, by decide⟩

/-- R118 (c): an interrupt may come between the commit and the RESET, which ends the wait. -/
theorem test_reset_after_uartRx :
    (State.after 2 { halted with stimuli := [.uartRx 5#8, .reset] }).map (fun t => (t.fgPc, t.resetPending)) =
      some (Phase.boot, false) := by decide

/-- The foreground in `HALT`, a request in `HALT`; the interrupt and the timer in `BOOT`. -/
theorem witness_DisabledStepsRefused :
    halted.Inv ∧ (machine .boot Buf.reset Buf.reset).Inv ∧ halted.enables .fg = false ∧ halted.enables (.setup 0#64) = false ∧
    (machine .boot Buf.reset Buf.reset).enables (.uartRx 1#8) = false ∧
    (machine .boot Buf.reset Buf.reset).enables .timer = false ∧
    { halted with stimuli := [.fg] }.stimuli.head? = some .fg := 
  ⟨halted_inv, booting_inv, rfl, rfl, rfl, rfl, rfl⟩

end Sys2Proof.Tests
end

section
/-! PROOFS. The draws of the collaborators' answers, and what a step runs (00_scope.md): O24 and O46. -/

namespace Sys2Proof.Machine

open Sys2Proof

/-! ## The collaborators' answers (R12, U9) -/

/-- The one case split of every draw, so that the five equations below need none. -/
theorem nextAnswer_eq {α : Type} (fixed : List α) (free : Nat → α) (n : Nat) :
    nextAnswer fixed free n =
      (fixed.head?.getD (free n), fixed.tail, if fixed = [] then n + 1 else n) := by
  cases fixed with
  | nil => rfl
  | cons a rest => rfl

theorem drawUsbRead_eq (s : State) :
    drawUsbRead s = .ok (s.answers.usbRead.head?.getD (Config.usbRead s.draws)) { s with
      answers := { s.answers with usbRead := s.answers.usbRead.tail }
      draws := if s.answers.usbRead = [] then s.draws + 1 else s.draws
      log := s.log ++ [.input (.usbRead (s.answers.usbRead.head?.getD (Config.usbRead s.draws)))] } := by
  simp only [drawUsbRead, nextAnswer_eq, State.note]

theorem drawUsbReady_eq (s : State) :
    drawUsbReady s = .ok (s.answers.usbReady.head?.getD (Config.usbReady s.draws)) { s with
      answers := { s.answers with usbReady := s.answers.usbReady.tail }
      draws := if s.answers.usbReady = [] then s.draws + 1 else s.draws
      log := s.log ++ [.input (.usbReady (s.answers.usbReady.head?.getD (Config.usbReady s.draws)))] } := by
  simp only [drawUsbReady, nextAnswer_eq, State.note]

theorem drawUsbSend_eq (s : State) :
    drawUsbSend s = .ok (s.answers.usbSend.head?.getD (Config.usbSend s.draws)) { s with
      answers := { s.answers with usbSend := s.answers.usbSend.tail }
      draws := if s.answers.usbSend = [] then s.draws + 1 else s.draws
      log := s.log ++ [.input (.usbSend (s.answers.usbSend.head?.getD (Config.usbSend s.draws)))] } := by
  simp only [drawUsbSend, nextAnswer_eq, State.note]

theorem drawUartReady_eq (s : State) :
    drawUartReady s = .ok (s.answers.uartReady.head?.getD (Config.uartReady s.draws)) { s with
      answers := { s.answers with uartReady := s.answers.uartReady.tail }
      draws := if s.answers.uartReady = [] then s.draws + 1 else s.draws
      log := s.log ++ [.input (.uartReady (s.answers.uartReady.head?.getD (Config.uartReady s.draws)))] } := by
  simp only [drawUartReady, nextAnswer_eq, State.note]

theorem drawAltEnumAck_eq (s : State) :
    drawAltEnumAck s = .ok (s.answers.altEnumAck.head?.getD (Config.altEnumAck s.draws)) { s with
      answers := { s.answers with altEnumAck := s.answers.altEnumAck.tail }
      draws := if s.answers.altEnumAck = [] then s.draws + 1 else s.draws
      log := s.log ++ [.input (.altEnumAck (s.answers.altEnumAck.head?.getD (Config.altEnumAck s.draws)))] } := by
  simp only [drawAltEnumAck, nextAnswer_eq, State.note]

/-- Settles O24: each call's equation gives the answer and the whole next state. -/
theorem drawsTakeTheNextAnswer : Obligations.DrawsTakeTheNextAnswer := fun s =>
  ⟨⟨_, _, drawUsbRead_eq s, rfl, rfl⟩, ⟨_, _, drawUsbReady_eq s, rfl, rfl⟩, ⟨_, _, drawUsbSend_eq s, rfl, rfl⟩,
    ⟨_, _, drawUartReady_eq s, rfl, rfl⟩, ⟨_, _, drawAltEnumAck_eq s, rfl, rfl⟩⟩

/-! ## What the decoder gives is well formed (R65, R73) -/

theorem wellFormed_of_decodeFcmd {p : Params} {w : BitVec 12} {i : Instr} (h : decodeFcmd w = .ok i) :
    WellFormed p i = true := by
  unfold decodeFcmd at h
  split_ifs at h <;> cases h <;> rfl

theorem wellFormed_of_decodeSeq {p : Params} {c : BitVec 3} {i : Instr} (h : decodeSeq c = .ok i) :
    WellFormed p i = true := by
  unfold decodeSeq at h
  split_ifs at h <;> cases h <;> rfl

theorem hitsGetUrl_iff {p : Params} {r : CtrlBody} : r.hitsGetUrl p = true ↔
    r.dir = 1#1 ∧ r.rcpt = 0#5 ∧ r.code = p.webusbCode ∧ r.index = p.idxGetUrl := by
  simp [CtrlBody.hitsGetUrl, and_assoc]

theorem hitsGetMsosDesc_iff {p : Params} {r : CtrlBody} : r.hitsGetMsosDesc p = true ↔
    r.dir = 1#1 ∧ r.rcpt = 0#5 ∧ r.code = p.msosCode ∧ r.index = p.idxMsosDesc := by
  simp [CtrlBody.hitsGetMsosDesc, and_assoc]

theorem hitsSetAltEnum_iff {p : Params} {r : CtrlBody} : r.hitsSetAltEnum p = true ↔
    r.dir = 1#1 ∧ r.rcpt = 0#5 ∧ r.code = p.msosCode ∧ r.index = p.idxAltEnum := by
  simp [CtrlBody.hitsSetAltEnum, and_assoc]

theorem hitsSetWebusbEnable_iff {p : Params} {r : CtrlBody} : r.hitsSetWebusbEnable p = true ↔
    r.dir = 0#1 ∧ r.rcpt = 0#5 ∧ r.code = p.webusbCode ∧ r.index = p.idxEnable := by
  simp [CtrlBody.hitsSetWebusbEnable, and_assoc]

/-- The side condition of VENDOR_STALL (R131), the only row that has one: the request is none of the four flows. -/
theorem wellFormed_vendorStall_iff {p : Params} {r : CtrlBody} : WellFormed p (.vendorStall r) = true ↔
    ¬r.hitsGetUrl p = true ∧ ¬r.hitsGetMsosDesc p = true ∧ ¬r.hitsSetAltEnum p = true ∧
      ¬r.hitsSetWebusbEnable p = true := by
  simp [WellFormed, and_assoc]

/-- The final case is reached only where the tests for the four flows have failed (R73). -/
theorem wellFormed_classify (p : Params) (r : CtrlReq) : WellFormed p (classify p r) = true := by
  unfold classify
  split_ifs with _ _ _ hUrl hDesc hAlt hEnable
  case neg =>
    rw [wellFormed_vendorStall_iff, hitsGetUrl_iff, hitsGetMsosDesc_iff, hitsSetAltEnum_iff, hitsSetWebusbEnable_iff]
    exact ⟨hUrl, hDesc, hAlt, hEnable⟩
  all_goals rfl

theorem wellFormed_of_decode {p : Params} {w : OpWord} {i : Instr} (h : decode p w = .ok i) :
    WellFormed p i = true := by
  cases w with
  | fcmd w => exact wellFormed_of_decodeFcmd h
  | seq c => exact wellFormed_of_decodeSeq h
  | ctrl w => cases h; exact wellFormed_classify p (unpackReq w)
  | evt | load | setAndCommit | reset => cases h; rfl

/-! ## What a step runs (R10, R63, R67 to R69, R139) -/

/-- A stimulus whose word is an operation runs that operation. -/
theorem runStimulus_of_decode {c : Stimulus} {s : State} {w : OpWord} {i : Instr} (hw : fetchWord c s = some w)
    (hi : decode s.params w = .ok i) : runStimulus c s = exec i s := by
  simp only [runStimulus, hw, runWord, hi]

/-- A listed stimulus runs its operation, as the agent that brings it. -/
theorem step_of_listed_decode {s : State} {c : Stimulus} {rest : List Stimulus} {w : OpWord} {i : Instr}
    (h : s.stimuli = c :: rest)
    (hw : fetchWord c { s with stimuli := rest, agent := stimulusAgent c } = some w)
    (hi : decode s.params w = .ok i) :
    step s = exec i { s with stimuli := rest, agent := stimulusAgent c } :=
  (step_of_listed h).trans (runStimulus_of_decode hw hi)

/-- Where none is listed, the free choice runs its operation, and the count of free values advances. -/
theorem step_of_free_decode {s : State} {w : OpWord} {i : Instr} (h : s.stimuli = [])
    (hw : fetchWord (freeStimulus s) { s with draws := s.draws + 1, agent := stimulusAgent (freeStimulus s) } = some w)
    (hi : decode s.params w = .ok i) :
    step s = exec i { s with draws := s.draws + 1, agent := stimulusAgent (freeStimulus s) } :=
  (step_of_free h).trans (runStimulus_of_decode hw hi)

/-- Settles O46: the listed and the free case are the two lemmas above; what each kind of stimulus brings, and who
brings it, is read off `fetchWord` and `stimulusAgent`. -/
theorem stepRunsDecodedInstruction : Obligations.StepRunsDecodedInstruction := by
  intro s c w i
  refine ⟨fun rest h hw hi => ⟨wellFormed_of_decode hi, step_of_listed_decode h hw hi⟩, ?free, ⟨rfl, rfl⟩,
    fun b => ⟨rfl, rfl, ?byte⟩, fun x => ⟨rfl, rfl, ?setup⟩, ⟨rfl, rfl, ?reset⟩, fun a x => ⟨rfl, rfl⟩, ⟨rfl, rfl⟩⟩
  case free =>
    rintro h rfl hw hi
    exact ⟨wellFormed_of_decode hi, step_of_free_decode h hw hi⟩
  case byte => exact fun rest h => step_of_listed_decode h rfl rfl
  case setup => exact fun rest h => step_of_listed_decode h rfl rfl
  case reset => exact fun rest h => step_of_listed_decode h rfl rfl

end Sys2Proof.Machine
end

section
/-! PROOFS. What any instruction can do to the mode and phase registers and to each buffer, said once for all of them:
two inductive predicates, and one theorem that `exec` does nothing else. The invariants of 10_state.md follow from the
predicates without another split over the instructions. -/

namespace Sys2Proof.Machine

open Sys2Proof

/-! ## The registers beside the buffers -/

/-- The mode, phase and burst registers (R21, R23, R26, R27, R30). -/
structure Control where
  modeLive : Bit
  nv : Byte
  resetPending : Bool
  fgPc : Phase
  nLeft : Nat

/-- The mode, phase and burst registers of a state. -/
def State.control (s : State) : Control := ⟨s.modeLive, s.nv, s.resetPending, s.fgPc, s.nLeft⟩

/-- The instructions that store to `fg_pc` whenever they complete: those it selects, and RESET (R69, R118). -/
def writesPhase : Instr → Bool
  | .boot | .pollS1 | .pollS2 | .pollS2l | .pollS3 | .pollS4 | .reset => true
  | _ => false

/-- The buffer operations at a port (R60). -/
def isPortCommand : Instr → Bool
  | .init _ | .tryInsert _ _ | .tryRemove _ | .peek _ | .count _ | .isFull _ | .isEmpty _ => true
  | _ => false

/-- The two operations that can commit a mode (R113, R130). -/
def CanCommit (i : Instr) : Prop := (∃ v, i = .setAndCommit v) ∨ ∃ value length, i = .setWebusbEnable value length

/-- What instruction `i`, run in `s`, can leave in the mode, phase and burst registers, and when (R22, R112 to R118). -/
inductive ControlStep (s : State) : Instr → Control → Prop
  | keep {i : Instr} (other : writesPhase i = false) : ControlStep s i s.control
  | load (phase : s.fgPc = .boot) : ControlStep s .load { s.control with modeLive := nvMode s.nv }
  | boot (phase : s.fgPc = .boot) : ControlStep s .boot { s.control with modeLive := nvMode s.nv, fgPc := .s1 }
  | pollS1 (phase : s.fgPc = .s1) : ControlStep s .pollS1 { s.control with fgPc := .s2 }
  | noBurst (phase : s.fgPc = .s2)
      (why : s.d2h.count = 0 ∨ s.answers.usbReady.head?.getD (Config.usbReady s.draws) = false) :
      ControlStep s .pollS2 { s.control with fgPc := .s3 }
  | burst (phase : s.fgPc = .s2) (nonempty : s.d2h.count ≠ 0)
      (ready : s.answers.usbReady.head?.getD (Config.usbReady s.draws) = true) :
      ControlStep s .pollS2 { s.control with
        fgPc := if burstLength s.params s.d2h.count = 0 then .s3 else .s2l
        nLeft := burstLength s.params s.d2h.count }
  | sendFails (phase : s.fgPc = .s2l)
      (answer : s.answers.usbSend.head?.getD (Config.usbSend s.draws) = false) :
      ControlStep s .pollS2l { s.control with fgPc := .s3 }
  | sent (phase : s.fgPc = .s2l) (left : s.nLeft ≠ 0) :
      ControlStep s .pollS2l { s.control with
        fgPc := if s.nLeft - 1 = 0 then .s3 else .s2l
        nLeft := s.nLeft - 1 }
  | pollS3 (phase : s.fgPc = .s3) : ControlStep s .pollS3 { s.control with fgPc := .s4 }
  | pollS4 (phase : s.fgPc = .s4) : ControlStep s .pollS4 { s.control with fgPc := .s1 }
  | commit {i : Instr} {v : Bit} (operation : CanCommit i) (serving : s.serving = true) (changed : v ≠ s.modeLive) :
      ControlStep s i (commitMode v s).control
  | reset : ControlStep s .reset (resetMachine s).control

/-- The instructions that can take a byte out of buffer `f`: the command at its port, and the poll step that drains it
(R79, R102, R103). -/
def TakesFrom (f : BufId) (i : Instr) : Prop := i = .tryRemove f ∨ f = .d2h ∧ i = .pollS2l ∨ f = .h2d ∧ i = .pollS3

/-- What instruction `i`, run in `s`, can leave in buffer `f`, and when (R77 to R79, R118). -/
inductive BufStep (s : State) (f : BufId) : Instr → Buf → Prop
  | keep {i : Instr} (other : i ≠ .boot) : BufStep s f i (s.buf f)
  | init {i : Instr} (operation : i = .init f ∨ i = .boot) (fresh : (s.buf f).inited = false) :
      BufStep s f i ((s.afterInit f).buf f)
  | insert {i : Instr} (b : Byte) (inited : (s.buf f).inited = true) (room : s.full f = false) :
      BufStep s f i ((s.afterInsert f b).buf f)
  | remove {i : Instr} (operation : TakesFrom f i) (inited : (s.buf f).inited = true) (nonempty : s.empty f = false) :
      BufStep s f i ((s.afterRemove f).buf f)
  | reset : BufStep s f .reset ((resetMachine s).buf f)

/-- All an instruction does to the block: the parameters stay, and each part makes one of its steps. -/
structure Effect (s : State) (i : Instr) (t : State) : Prop where
  params : t.params = s.params
  control : ControlStep s i t.control
  bufs : ∀ f, BufStep s f i (t.buf f)

/-- A step of one buffer is a step of each: the other is kept (R13). -/
theorem bufStep_setBuf {s : State} {f : BufId} {i : Instr} {b : Buf} (hi : i ≠ .boot) (h : BufStep s f i b)
    (g : BufId) : BufStep s g i ((s.setBuf f b).buf g) := by
  rw [buf_setBuf]
  split
  case isTrue hg => exact hg ▸ h
  case isFalse => exact .keep hi

theorem ne_of_writesPhase {i j : Instr} (hi : writesPhase i = false) (hj : writesPhase j = true) : i ≠ j := by
  rintro rfl
  exact absurd (hi.symm.trans hj) nofun

/-- An instruction that touches the response, the draws and the record only. -/
theorem effect_of_quiet {s t : State} {i : Instr} (hi : writesPhase i = false)
    (ht : t = { s with frsp := t.frsp, answers := t.answers, draws := t.draws, log := t.log }) : Effect s i t := by
  rw [ht]
  exact ⟨rfl, .keep hi, fun _ => .keep (ne_of_writesPhase hi rfl)⟩

/-- An instruction that besides does one operation on one buffer. -/
theorem effect_of_setBuf {s t : State} {i : Instr} {f : BufId} {b : Buf} (hi : writesPhase i = false)
    (hb : BufStep s f i b) (ht : t = { s.setBuf f b with frsp := t.frsp, log := t.log }) : Effect s i t := by
  rw [ht]
  exact ⟨setBuf_params s f b, by cases f <;> exact .keep hi, bufStep_setBuf (ne_of_writesPhase hi rfl) hb⟩

/-! ## The effect of each kind of instruction -/

theorem effect_of_portCommand {s t : State} {i : Instr} (hi : isPortCommand i = true) (h : exec i s = .next t) :
    Effect s i t := by
  cases i with
  | init f =>
    obtain ⟨fresh, -, rfl⟩ := exec_init.1 h
    exact effect_of_setBuf rfl (.init (.inl rfl) fresh) (by simp [State.afterInit])
  | tryInsert f b =>
    obtain ⟨inited, -, ⟨-, rfl⟩ | ⟨room, -, rfl⟩⟩ := exec_tryInsert.1 h
    · exact effect_of_quiet rfl rfl
    · exact effect_of_setBuf rfl (.insert b inited room) (by simp [State.afterInsert])
  | tryRemove f =>
    obtain ⟨inited, -, ⟨-, rfl⟩ | ⟨nonempty, -, rfl⟩⟩ := exec_tryRemove.1 h
    · exact effect_of_quiet rfl rfl
    · exact effect_of_setBuf rfl (.remove (.inl rfl) inited nonempty) (by simp [State.afterRemove])
  | peek f => obtain ⟨-, -, ⟨-, rfl⟩ | ⟨-, -, rfl⟩⟩ := exec_peek.1 h <;> exact effect_of_quiet rfl rfl
  | count f => obtain ⟨-, rfl⟩ := exec_count.1 h; exact effect_of_quiet rfl rfl
  | isFull f => obtain ⟨-, rfl⟩ := exec_isFull.1 h; exact effect_of_quiet rfl rfl
  | isEmpty f => obtain ⟨-, rfl⟩ := exec_isEmpty.1 h; exact effect_of_quiet rfl rfl
  | _ => cases hi

theorem effect_of_boot {s t : State} (h : exec .boot s = .next t) : Effect s .boot t := by
  obtain ⟨phase, fresh1, fresh2, rfl⟩ := exec_boot.1 h
  refine ⟨rfl, .boot phase, fun f => ?_⟩
  cases f with
  | h2d => exact .init (f := .h2d) (.inr rfl) fresh1
  | d2h => exact .init (f := .d2h) (.inr rfl) fresh2

theorem effect_of_pollS1 {s t : State} (h : exec .pollS1 s = .next t) : Effect s .pollS1 t := by
  obtain ⟨phase, inited, ⟨-, rfl⟩ | ⟨room, r, s', hd, h⟩⟩ := exec_pollS1.1 h
  · exact ⟨rfl, .pollS1 phase, fun _ => .keep nofun⟩
  · obtain ⟨rfl, rfl⟩ := Ret.ok.inj ((drawUsbRead_eq s).symm.trans hd)
    obtain ⟨-, rfl⟩ | ⟨b, -, -, rfl⟩ := h
    · exact ⟨rfl, .pollS1 phase, fun _ => .keep nofun⟩
    · exact ⟨rfl, .pollS1 phase, bufStep_setBuf nofun (f := .h2d) (.insert b inited room)⟩

theorem effect_of_pollS2 {s t : State} (h : exec .pollS2 s = .next t) : Effect s .pollS2 t := by
  obtain ⟨phase, -, ⟨empty, rfl⟩ | ⟨nonempty, r, s', hd, h⟩⟩ := exec_pollS2.1 h
  · exact ⟨rfl, .noBurst phase (.inl (by simpa [State.empty] using empty)), fun _ => .keep nofun⟩
  · obtain ⟨rfl, rfl⟩ := Ret.ok.inj ((drawUsbReady_eq s).symm.trans hd)
    obtain ⟨notReady, rfl⟩ | ⟨ready, rfl⟩ := h
    · exact ⟨rfl, .noBurst phase (.inr notReady), fun _ => .keep nofun⟩
    · exact ⟨rfl, .burst phase (by simpa [State.empty] using nonempty) ready, fun _ => .keep nofun⟩

theorem effect_of_pollS2l {s t : State} (h : exec .pollS2l s = .next t) : Effect s .pollS2l t := by
  obtain ⟨phase, left, inited, nonempty, -, r, s', hd, h⟩ := exec_pollS2l.1 h
  obtain ⟨rfl, rfl⟩ := Ret.ok.inj ((drawUsbSend_eq s).symm.trans hd)
  obtain ⟨answer, rfl⟩ | ⟨-, rfl⟩ := h
  · exact ⟨rfl, .sendFails phase answer, fun _ => .keep nofun⟩
  · exact ⟨rfl, .sent phase left, bufStep_setBuf nofun (f := .d2h) (.remove (.inr (.inl ⟨rfl, rfl⟩)) inited nonempty)⟩

theorem effect_of_pollS3 {s t : State} (h : exec .pollS3 s = .next t) : Effect s .pollS3 t := by
  obtain ⟨phase, inited, r, s', hd, h⟩ := exec_pollS3.1 h
  obtain ⟨rfl, rfl⟩ := Ret.ok.inj ((drawUartReady_eq s).symm.trans hd)
  obtain ⟨-, rfl⟩ | ⟨nonempty, -, -, rfl⟩ := h
  · exact ⟨rfl, .pollS3 phase, fun _ => .keep nofun⟩
  · exact ⟨rfl, .pollS3 phase, bufStep_setBuf nofun (f := .h2d) (.remove (.inr (.inr ⟨rfl, rfl⟩)) inited nonempty)⟩

theorem effect_of_setAltEnum {s t : State} {v l : BitVec 16} (h : exec (.setAltEnum v l) s = .next t) :
    Effect s (.setAltEnum v l) t := by
  obtain ⟨-, ⟨-, rfl⟩ | ⟨-, -, rfl⟩ | ⟨-, -, ack, s', hd, rfl⟩⟩ := exec_setAltEnum.1 h
  · exact effect_of_quiet rfl rfl
  · exact effect_of_quiet rfl rfl
  · obtain ⟨rfl, rfl⟩ := Ret.ok.inj ((drawAltEnumAck_eq s).symm.trans hd)
    exact effect_of_quiet rfl rfl

/-- Every instruction that completes has only the effects listed. -/
theorem effect_of_exec {s t : State} {i : Instr} (h : exec i s = .next t) : Effect s i t := by
  cases i with
  | init | tryInsert | tryRemove | peek | count | isFull | isEmpty => exact effect_of_portCommand rfl h
  | uartRx b =>
    obtain ⟨-, inited, ⟨-, rfl⟩ | ⟨room, -, rfl⟩⟩ := exec_uartRx.1 h
    · exact effect_of_quiet rfl rfl
    · exact effect_of_setBuf (f := .d2h) rfl (.insert b inited room) rfl
  | boot => exact effect_of_boot h
  | pollS1 => exact effect_of_pollS1 h
  | pollS2 => exact effect_of_pollS2 h
  | pollS2l => exact effect_of_pollS2l h
  | pollS3 => exact effect_of_pollS3 h
  | pollS4 => obtain ⟨phase, rfl⟩ := exec_pollS4.1 h; exact ⟨rfl, .pollS4 phase, fun _ => .keep nofun⟩
  | load => obtain ⟨phase, rfl⟩ := exec_load.1 h; exact ⟨rfl, .load phase, fun _ => .keep nofun⟩
  | setAndCommit v =>
    obtain ⟨serving, ⟨-, rfl⟩ | ⟨changed, rfl⟩⟩ := exec_setAndCommit.1 h
    · exact effect_of_quiet rfl rfl
    · exact ⟨rfl, .commit (.inl ⟨v, rfl⟩) serving changed, fun _ => .keep nofun⟩
  | haltWait => exact absurd h exec_haltWait
  | reset => obtain rfl := exec_reset.1 h; exact ⟨rfl, .reset, fun _ => .reset⟩
  | getUrl => obtain ⟨-, rfl⟩ := exec_getUrl.1 h; exact effect_of_quiet rfl rfl
  | getMsosDesc => obtain ⟨-, rfl⟩ := exec_getMsosDesc.1 h; exact effect_of_quiet rfl rfl
  | setAltEnum => exact effect_of_setAltEnum h
  | setWebusbEnable v l =>
    obtain ⟨serving, ⟨-, rfl⟩ | ⟨changed, rfl⟩⟩ := exec_setWebusbEnable.1 h
    · exact effect_of_quiet rfl rfl
    · exact ⟨rfl, .commit (.inr ⟨v, l, rfl⟩) serving changed, fun _ => .keep nofun⟩
  | cdcDelegateStandard => obtain ⟨-, rfl⟩ := exec_cdcDelegateStandard.1 h; exact effect_of_quiet rfl rfl
  | cdcDelegateClass => obtain ⟨-, rfl⟩ := exec_cdcDelegateClass.1 h; exact effect_of_quiet rfl rfl
  | cdcDelegateReserved => obtain ⟨-, rfl⟩ := exec_cdcDelegateReserved.1 h; exact effect_of_quiet rfl rfl
  | vendorStall => obtain ⟨-, rfl⟩ := exec_vendorStall.1 h; exact effect_of_quiet rfl rfl

end Sys2Proof.Machine
end

section
/-! PROOFS. The invariants of 10_state.md: the state after reset meets them and every step keeps them (O54 to O57). -/

namespace Sys2Proof.Machine

open Sys2Proof

/-! ## What a step takes from the state before an instruction runs (R10, R163) -/

/-- The next stimulus is taken out of the model's own fields; the block is as it was. -/
theorem nextStimulus_snd (s : State) :
    ∃ stimuli agent draws, (nextStimulus s).2 = { s with stimuli := stimuli, agent := agent, draws := draws } := by
  unfold nextStimulus
  split
  · exact ⟨_, _, _, rfl⟩
  · exact ⟨_, _, _, rfl⟩

/-- While the environment issues no buffer command, neither a listed nor a freely chosen stimulus is one (R163). -/
theorem nextStimulus_fst_ne_fcmd {s : State} (hs : s.NoForeignCommand) (a : Agent) (w : BitVec 12) :
    (nextStimulus s).1 ≠ .fcmd a w := by
  unfold nextStimulus
  split
  case h_1 c rest hl =>
    rintro rfl
    exact hs a w (by rw [hl]; rfl)
  case h_2 =>
    intro h
    have henabled := enables_freeStimulus s
    rw [show freeStimulus s = .fcmd a w from h] at henabled
    cases henabled

theorem isPortCommand_of_decodeSeq {c : BitVec 3} {i : Instr} (h : decodeSeq c = .ok i) : isPortCommand i = false := by
  unfold decodeSeq at h
  split_ifs at h <;> cases h <;> rfl

theorem isPortCommand_classify (p : Params) (r : CtrlReq) : isPortCommand (classify p r) = false := by
  unfold classify
  split_ifs <;> rfl

/-- Only a buffer command of a foreign agent brings an operation at a port (R58, R63). -/
theorem isPortCommand_of_decode {c : Stimulus} {s : State} {p : Params} {w : OpWord} {i : Instr}
    (hc : ∀ a x, c ≠ .fcmd a x) (hw : fetchWord c s = some w) (hi : decode p w = .ok i) : isPortCommand i = false := by
  cases c with
  | fg => cases hw; exact isPortCommand_of_decodeSeq hi
  | uartRx => cases hw; cases hi; rfl
  | timer => cases hw
  | setup x => cases hw; cases hi; exact isPortCommand_classify p (unpackReq x)
  | reset => cases hw; cases hi; rfl
  | fcmd a x => exact absurd rfl (hc a x)

/-- A step that completes is the timer's, which changes nothing, or it runs one instruction. -/
theorem step_cases {s t : State} (h : step s = .next t) :
    t = (nextStimulus s).2 ∨
      ∃ i, exec i (nextStimulus s).2 = .next t ∧ (s.NoForeignCommand → isPortCommand i = false) := by
  unfold step runStimulus at h
  split at h
  case h_1 w hw =>
    unfold runWord at h
    split at h
    case h_1 i hi => exact .inr ⟨i, h, fun hs => isPortCommand_of_decode (nextStimulus_fst_ne_fcmd hs) hw hi⟩
    case h_2 => cases h
  case h_2 =>
    unfold runTimer at h
    split at h
    · cases h
    · cases h; exact .inl rfl

/-! ## The invariant of buffers, mode and reset (R15, R16, R28, R30, R31, R34, R35) -/

/-- The part of the invariant that speaks of the mode and phase registers alone (R28, R30). -/
structure Control.Ok (c : Control) : Prop where
  mode : c.fgPc ≠ .boot → c.modeLive = nvMode c.nv
  halted : c.resetPending = true ↔ c.fgPc = .halt

theorem running_iff {p : Phase} : p.running = true ↔ p ≠ .boot ∧ p ≠ .halt := by
  cases p <;> decide

/-- From one running phase to another, with any burst length. -/
theorem Control.Ok.advance {c : Control} {p q : Phase} {n : Nat} (hc : c.Ok) (hp : c.fgPc = p) (hpr : p.running = true)
    (hqr : q.running = true) : Control.Ok { c with fgPc := q, nLeft := n } := by
  obtain ⟨hpBoot, hpHalt⟩ := running_iff.1 hpr
  obtain ⟨-, hqHalt⟩ := running_iff.1 hqr
  have hpending : c.resetPending ≠ true := fun h => hpHalt (hp ▸ hc.halted.1 h)
  exact ⟨fun _ => hc.mode (hp ▸ hpBoot), iff_of_false hpending hqHalt⟩

/-- The persisted byte gives the mode back (R112, R115). -/
theorem nvMode_nvByte (v : Bit) : nvMode (nvByte v) = v := by
  revert v
  decide

theorem ControlStep.ok {s : State} {i : Instr} {c : Control} (h : ControlStep s i c) (hs : s.control.Ok) : c.Ok := by
  cases h with
  | keep => exact hs
  | load phase => exact ⟨fun hp => absurd phase hp, hs.halted⟩
  | boot phase =>
    have hpending : s.resetPending ≠ true := fun h => by simpa [State.control, phase] using hs.halted.1 h
    exact ⟨fun _ => rfl, iff_of_false hpending nofun⟩
  | pollS1 phase => exact hs.advance phase rfl rfl
  | noBurst phase => exact hs.advance phase rfl rfl
  | burst phase => exact hs.advance phase rfl (by split <;> rfl)
  | sendFails phase => exact hs.advance phase rfl rfl
  | sent phase => exact hs.advance phase rfl (by split <;> rfl)
  | pollS3 phase => exact hs.advance phase rfl rfl
  | pollS4 phase => exact hs.advance phase rfl rfl
  | commit => exact ⟨fun _ => (nvMode_nvByte _).symm, iff_of_true rfl rfl⟩
  | reset => exact ⟨fun hp => absurd rfl hp, iff_of_false nofun nofun⟩

theorem BufStep.ok {s : State} {f : BufId} {i : Instr} {b : Buf} (h : BufStep s f i b) (hp : s.params.Valid)
    (hs : (s.buf f).Ok (s.params.cap f)) : b.Ok (s.params.cap f) := by
  cases h with
  | keep => exact hs
  | init => exact ok_afterInit (valid_cap_pos hp f) hs
  | insert b inited room => exact ok_afterInsert b hs inited ((full_eq_false hs inited).1 room)
  | remove _ inited nonempty => exact ok_afterRemove hs inited (empty_eq_false.1 nonempty)
  | reset => exact ok_uninitialised (resetMachine_mem s f) (resetMachine_inited s f)

/-- Only RESET ends a buffer's life, and BOOT begins it (R20, R34). -/
theorem BufStep.inited {s : State} {f : BufId} {i : Instr} {b : Buf} (h : BufStep s f i b) (hi : i ≠ .reset)
    (hs : i = .boot ∨ (s.buf f).inited = true) : b.inited = true := by
  cases h with
  | keep other => exact hs.resolve_left other
  | init => rw [afterInit_buf]
  | insert b inited => rw [afterInsert_buf]; exact inited
  | remove _ inited => rw [afterRemove_buf]; exact inited
  | reset => exact absurd rfl hi

/-- Outside `BOOT` after the instruction: it was no RESET, and the machine was outside `BOOT` before or has booted. -/
theorem ControlStep.of_ne_boot {s : State} {i : Instr} {c : Control} (h : ControlStep s i c) (hc : c.fgPc ≠ .boot) :
    i ≠ .reset ∧ (i = .boot ∨ s.fgPc ≠ .boot) := by
  cases h with
  | keep other => exact ⟨ne_of_writesPhase other rfl, .inr hc⟩
  | load phase => exact absurd phase hc
  | boot => exact ⟨nofun, .inl rfl⟩
  | pollS1 phase | noBurst phase | burst phase | sendFails phase | sent phase | pollS3 phase | pollS4 phase =>
    exact ⟨nofun, .inr (by simp [phase])⟩
  | commit operation serving =>
    obtain ⟨-, notBoot, -⟩ := serving_iff.1 serving
    exact ⟨fun hi => by simp [hi, CanCommit] at operation, .inr notBoot⟩
  | reset => exact absurd rfl hc

theorem inv_nextStimulus {s : State} (hs : s.Inv) : (nextStimulus s).2.Inv := by
  obtain ⟨_, _, _, h⟩ := nextStimulus_snd s
  rw [h]
  exact ⟨hs.params, hs.bufs, hs.inited, hs.mode, hs.halted⟩

theorem exec_keeps_inv {s t : State} {i : Instr} (hs : s.Inv) (h : exec i s = .next t) : t.Inv := by
  obtain ⟨params, control, bufs⟩ := effect_of_exec h
  have hc : t.control.Ok := control.ok ⟨hs.mode, hs.halted⟩
  refine ⟨params ▸ hs.params, fun f => params ▸ (bufs f).ok hs.params (hs.bufs f), fun hp f => ?_, hc.mode, hc.halted⟩
  obtain ⟨notReset, hboot⟩ := control.of_ne_boot hp
  exact (bufs f).inited notReset (hboot.imp_right fun hs' => hs.inited hs' f)

/-- Settles O55: the stimulus taken is none of the block's registers, and each instruction's steps of the buffers and of
the mode and phase registers keep their part of the invariant. -/
theorem stepKeepsInvariant : Obligations.StepKeepsInvariant := by
  intro s t hs h
  obtain rfl | ⟨i, hi, -⟩ := step_cases h
  · exact inv_nextStimulus hs
  · exact exec_keeps_inv (inv_nextStimulus hs) hi

/-! ## The widths (R14) -/

/-- The registers of a buffer fit their widths. -/
def Buf.Fits (p : Params) (f : BufId) (b : Buf) : Prop :=
  b.head < 2 ^ idxWidth p f ∧ b.tail < 2 ^ idxWidth p f ∧ b.count < 2 ^ cntWidth p f

/-- The buffer invariant gives an initialised buffer the widths. -/
theorem fits_of_ok {p : Params} {f : BufId} {b : Buf} (hb : b.Ok (p.cap f)) (hi : b.inited = true) : b.Fits p f := by
  have hhead := hb.head_lt hi
  have htail : b.tail < p.cap f := by
    rw [hb.tail_eq hi]
    exact Nat.mod_lt _ (Nat.zero_lt_of_lt hhead)
  exact ⟨hhead.trans_le (cap_le_two_pow_idxWidth p f), htail.trans_le (cap_le_two_pow_idxWidth p f),
    (hb.count_le hi).trans_lt (cap_lt_two_pow_cntWidth p f)⟩

/-- An initialised buffer fits by the invariant; one that is not was kept, or was given values of its widths by RESET. -/
theorem BufStep.fits {s : State} {f : BufId} {i : Instr} {b : Buf} (h : BufStep s f i b) (hs : s.Inv)
    (hf : (s.buf f).Fits s.params f) : b.Fits s.params f := by
  have hb := h.ok hs.params (hs.bufs f)
  cases h with
  | keep => exact hf
  | init => exact fits_of_ok hb (by rw [afterInit_buf])
  | insert b inited => exact fits_of_ok hb (by rw [afterInsert_buf]; exact inited)
  | remove _ inited => exact fits_of_ok hb (by rw [afterRemove_buf]; exact inited)
  | reset =>
    unfold Buf.Fits
    rw [resetMachine_head, resetMachine_tail, resetMachine_count]
    exact ⟨Nat.mod_lt _ (Nat.two_pow_pos _), Nat.mod_lt _ (Nat.two_pow_pos _), Nat.mod_lt _ (Nat.two_pow_pos _)⟩

/-- `n_left` is kept, lowered, drawn within its width by RESET, or at most the count of `D2H` (R23, R101). -/
theorem ControlStep.nLeft_lt {s : State} {i : Instr} {c : Control} (h : ControlStep s i c)
    (hcount : s.d2h.count < 2 ^ cntWidth s.params .d2h) (hleft : s.nLeft < 2 ^ cntWidth s.params .d2h) :
    c.nLeft < 2 ^ cntWidth s.params .d2h := by
  cases h with
  | burst => exact (Nat.min_le_left _ _).trans_lt hcount
  | sent => exact (Nat.sub_le _ _).trans_lt hleft
  | reset => exact Nat.mod_lt _ (Nat.two_pow_pos _)
  | keep | load | boot | pollS1 | noBurst | sendFails | pollS3 | pollS4 | commit => exact hleft

theorem exec_keeps_widths {s t : State} {i : Instr} (hs : s.Inv) (hf : s.FitsWidths) (h : exec i s = .next t) :
    t.FitsWidths := by
  obtain ⟨hbufs, hleft⟩ := hf
  obtain ⟨params, control, bufs⟩ := effect_of_exec h
  obtain ⟨-, -, hcount⟩ := hbufs .d2h
  unfold State.FitsWidths
  rw [params]
  exact ⟨fun f => (bufs f).fits hs (hbufs f), control.nLeft_lt hcount hleft⟩

theorem fitsWidths_nextStimulus {s : State} (hf : s.FitsWidths) : (nextStimulus s).2.FitsWidths := by
  obtain ⟨_, _, _, h⟩ := nextStimulus_snd s
  rw [h]
  exact hf

/-- Settles O57. -/
theorem stepKeepsWidths : Obligations.StepKeepsWidths := by
  intro s t hs hf h
  obtain rfl | ⟨i, hi, -⟩ := step_cases h
  · exact fitsWidths_nextStimulus hf
  · exact exec_keeps_widths (inv_nextStimulus hs) (fitsWidths_nextStimulus hf) hi

/-! ## The invariant of the block's own agents (R23, R33, R101) -/

/-- In `BOOT` after an instruction other than RESET: the machine was there before, and has not booted. -/
theorem ControlStep.of_eq_boot {s : State} {i : Instr} {c : Control} (h : ControlStep s i c) (hi : i ≠ .reset)
    (hc : c.fgPc = .boot) : s.fgPc = .boot ∧ i ≠ .boot := by
  cases h with
  | keep other => exact ⟨hc, ne_of_writesPhase other rfl⟩
  | load phase => exact ⟨phase, nofun⟩
  | reset => exact absurd rfl hi
  | burst | sent => simp only at hc; split at hc <;> cases hc
  | boot | pollS1 | noBurst | sendFails | pollS3 | pollS4 | commit => cases hc

/-- Only INIT and BOOT begin a buffer's life (R20, R33). -/
theorem BufStep.fresh {s : State} {f : BufId} {i : Instr} {b : Buf} (h : BufStep s f i b) (hi : i ≠ .boot)
    (hport : isPortCommand i = false) (hs : (s.buf f).inited = false) : b.inited = false := by
  cases h with
  | keep => exact hs
  | init operation =>
    rcases operation with rfl | rfl
    · cases hport
    · exact absurd rfl hi
  | insert _ inited => exact absurd (hs.symm.trans inited) nofun
  | remove _ inited => exact absurd (hs.symm.trans inited) nofun
  | reset => exact resetMachine_inited s f

/-- An initialised buffer keeps every byte it holds, unless one is taken out. -/
theorem BufStep.count_ge {s : State} {f : BufId} {i : Instr} {b : Buf} (h : BufStep s f i b) (hi : i ≠ .reset)
    (hs : (s.buf f).inited = true) :
    (s.buf f).count ≤ b.count ∨ TakesFrom f i ∧ b.count = (s.buf f).count - 1 := by
  cases h with
  | keep => exact .inl le_rfl
  | init _ fresh => exact absurd (fresh.symm.trans hs) nofun
  | insert => rw [afterInsert_buf]; exact .inl (Nat.le_succ _)
  | remove operation => rw [afterRemove_buf]; exact .inr ⟨operation, rfl⟩
  | reset => exact absurd rfl hi

/-- Of the block's own steps that leave `fg_pc` alone, none takes a byte out. -/
theorem not_takesFrom {f : BufId} {i : Instr} (hport : isPortCommand i = false) (hphase : writesPhase i = false) :
    ¬TakesFrom f i := by
  rintro (rfl | ⟨-, rfl⟩ | ⟨-, rfl⟩)
  · cases hport
  · cases hphase
  · cases hphase

/-- What the registers say of a burst that is under way, over a buffer that holds `count` bytes (R23, R101, R102). -/
def Control.BurstOk (p : Params) (count : Nat) (c : Control) : Prop :=
  c.fgPc = .s2l → 1 ≤ c.nLeft ∧ c.nLeft ≤ count ∧ c.nLeft ≤ p.maxPkt - 1

/-- A burst is decided within its bounds, each byte sent lowers both `n_left` and `count`, and nothing else does. -/
theorem ControlStep.burstOk {s : State} {i : Instr} {c : Control} {b : Buf} (h : ControlStep s i c)
    (hb : BufStep s .d2h i b) (hi : i ≠ .reset) (hport : isPortCommand i = false)
    (hinited : s.fgPc ≠ .boot → s.d2h.inited = true) (hs : s.control.BurstOk s.params s.d2h.count) :
    c.BurstOk s.params b.count := by
  intro hc
  cases h with
  | keep other =>
    have hphase : s.fgPc = .s2l := hc
    obtain ⟨hone, hleft, hmax⟩ := hs hc
    obtain hcount | ⟨htakes, -⟩ := hb.count_ge hi (hinited (by simp [hphase]))
    · exact ⟨hone, hleft.trans hcount, hmax⟩
    · exact absurd htakes (not_takesFrom hport other)
  | burst phase =>
    obtain hcount | ⟨htakes, -⟩ := hb.count_ge hi (hinited (by simp [phase]))
    · have hpos : burstLength s.params s.d2h.count ≠ 0 := fun h0 => by simp [h0] at hc
      exact ⟨Nat.pos_of_ne_zero hpos, (Nat.min_le_left _ _).trans hcount, Nat.min_le_right _ _⟩
    · exact absurd htakes (by simp [TakesFrom])
  | sent phase =>
    obtain ⟨-, hleft, hmax⟩ := hs phase
    have hpos : s.nLeft - 1 ≠ 0 := fun h0 => by simp [h0] at hc
    have hcount : s.d2h.count - 1 ≤ b.count := by
      obtain hge | ⟨-, heq⟩ := hb.count_ge hi (hinited (by simp [phase]))
      · exact (Nat.sub_le _ _).trans hge
      · exact heq.ge
    exact ⟨Nat.pos_of_ne_zero hpos, (Nat.sub_le_sub_right hleft 1).trans hcount, (Nat.sub_le _ _).trans hmax⟩
  | load phase => exact absurd (phase.symm.trans hc) nofun
  | reset => exact absurd rfl hi
  | boot | pollS1 | noBurst | sendFails | pollS3 | pollS4 | commit => cases hc

theorem resetMachine_ownInv (s : State) : (resetMachine s).OwnInv :=
  ⟨fun _ => resetMachine_inited s, nofun⟩

theorem exec_keeps_ownInv {s t : State} {i : Instr} (hs : s.Inv) (hown : s.OwnInv) (hport : isPortCommand i = false)
    (h : exec i s = .next t) : t.OwnInv := by
  by_cases hi : i = .reset
  · subst hi
    obtain rfl := exec_reset.1 h
    exact resetMachine_ownInv s
  obtain ⟨params, control, bufs⟩ := effect_of_exec h
  refine ⟨fun hp f => ?boot, ?burst⟩
  case boot =>
    obtain ⟨phase, notBoot⟩ := control.of_eq_boot hi hp
    exact (bufs f).fresh notBoot hport (hown.boot phase f)
  case burst =>
    rw [params]
    exact control.burstOk (bufs .d2h) hi hport (fun hp => hs.inited hp .d2h) hown.burst

theorem ownInv_nextStimulus {s : State} (hown : s.OwnInv) : (nextStimulus s).2.OwnInv := by
  obtain ⟨_, _, _, h⟩ := nextStimulus_snd s
  rw [h]
  exact ⟨hown.boot, hown.burst⟩

/-- Settles O56: without a foreign command the instruction is none at a port, so that buffers live from BOOT to RESET
and only the send loop takes bytes from `D2H`. -/
theorem stepKeepsOwnInvariant : Obligations.StepKeepsOwnInvariant := by
  intro s t hs hown hforeign h
  obtain rfl | ⟨i, hi, hport⟩ := step_cases h
  · exact ownInv_nextStimulus hown
  · exact exec_keeps_ownInv (inv_nextStimulus hs) (ownInv_nextStimulus hown) (hport hforeign) hi

/-! ## The state after reset (R33, R36) -/

/-- Before any step both buffers are as `Buf.reset` has them. -/
theorem reset_buf (f : BufId) : State.reset.buf f = Buf.reset := by
  cases f <;> rfl

theorem reset_inv : State.reset.Inv where
  params := config_params_valid
  bufs f := by rw [reset_buf]; exact ok_uninitialised rfl rfl
  inited h := absurd rfl h
  mode h := absurd rfl h
  halted := iff_of_false nofun nofun

theorem reset_ownInv : State.reset.OwnInv :=
  ⟨fun _ f => by rw [reset_buf]; rfl, nofun⟩

theorem reset_fitsWidths : State.reset.FitsWidths :=
  ⟨fun f => by rw [reset_buf]; exact ⟨Nat.two_pow_pos _, Nat.two_pow_pos _, Nat.two_pow_pos _⟩, Nat.two_pow_pos _⟩

/-- Nothing has been recorded yet, in either direction. -/
theorem reset_streams : State.reset.Streams :=
  ⟨nofun, fun _ => ⟨rfl, rfl⟩, nofun, fun _ => ⟨rfl, rfl⟩⟩

/-- Settles O54. -/
theorem resetStateMeetsInvariants : Obligations.ResetStateMeetsInvariants :=
  ⟨reset_inv, reset_ownInv, reset_fitsWidths, reset_streams, rfl, rfl, fun f => by rw [reset_buf]; rfl, rfl⟩

end Sys2Proof.Machine
end

section
/-! PROOFS. How the phase and the mode change, read off `ControlStep` (O53, O32). -/

namespace Sys2Proof.Machine

open Sys2Proof

theorem phase_of_serving {s : State} (h : s.serving = true) : s.fgPc ∈ [Phase.s1, .s2, .s2l, .s3, .s4] := by
  obtain ⟨-, notBoot, notHalt⟩ := serving_iff.1 h
  revert notBoot notHalt
  cases s.fgPc <;> decide

/-- Settles O53: each way to write the phase registers is one line of R22's list, or leaves `fg_pc` as it is. -/
theorem phaseSuccessors : Obligations.PhaseSuccessors := by
  intro i s t h hne
  obtain ⟨-, control, -⟩ := effect_of_exec h
  generalize hc : t.control = c at control
  have hphase : t.fgPc = c.fgPc := congrArg Control.fgPc hc
  cases control with
  | keep => exact absurd hphase hne
  | load => exact absurd hphase hne
  | boot phase => exact .inl ⟨rfl, phase, hphase⟩
  | pollS1 phase => exact .inr (.inl ⟨rfl, phase, hphase⟩)
  | noBurst phase why => exact .inr (.inr (.inr (.inl ⟨rfl, phase, hphase, why.imp_right .inl⟩)))
  | burst phase nonempty ready =>
    by_cases hn : burstLength s.params s.d2h.count = 0
    · exact .inr (.inr (.inr (.inl ⟨rfl, phase, hphase.trans (if_pos hn), .inr (.inr hn)⟩)))
    · have hleft : t.nLeft = burstLength s.params s.d2h.count := congrArg Control.nLeft hc
      exact .inr (.inr (.inl ⟨rfl, phase, hphase.trans (if_neg hn), hleft ▸ Nat.pos_of_ne_zero hn, nonempty, ready⟩))
  | sendFails phase answer => exact .inr (.inr (.inr (.inr (.inl ⟨rfl, phase, hphase, .inl answer⟩))))
  | sent phase left =>
    by_cases hn : s.nLeft - 1 = 0
    · have hlast : s.nLeft = 1 := by omega
      exact .inr (.inr (.inr (.inr (.inl ⟨rfl, phase, hphase.trans (if_pos hn), .inr hlast⟩))))
    · exact absurd ((hphase.trans (if_neg hn)).trans phase.symm) hne
  | pollS3 phase => exact .inr (.inr (.inr (.inr (.inr (.inl ⟨rfl, phase, hphase⟩)))))
  | pollS4 phase => exact .inr (.inr (.inr (.inr (.inr (.inr (.inl ⟨rfl, phase, hphase⟩))))))
  | commit operation serving changed =>
    have hmode : t.modeLive ≠ s.modeLive := fun hm => changed ((congrArg Control.modeLive hc).symm.trans hm)
    exact .inr (.inr (.inr (.inr (.inr (.inr (.inr (.inl
      ⟨hphase, hmode, phase_of_serving serving, operation⟩)))))))
  | reset => exact .inr (.inr (.inr (.inr (.inr (.inr (.inr (.inr ⟨rfl, hphase⟩)))))))

/-- SET_AND_COMMIT persists one of two bytes (R27). -/
theorem nvByte_eq_zero_or_one (v : Bit) : nvByte v = 0x00#8 ∨ nvByte v = 0x01#8 := by
  revert v
  decide

/-- Only a commit writes `nv`. -/
theorem ControlStep.nv_eq {s : State} {i : Instr} {c : Control} (h : ControlStep s i c) :
    c.nv = s.nv ∨ CanCommit i ∧ ∃ v, c = (commitMode v s).control := by
  cases h with
  | commit operation => exact .inr ⟨operation, _, rfl⟩
  | keep | load | boot | pollS1 | noBurst | burst | sendFails | sent | pollS3 | pollS4 | reset => exact .inl rfl

/-- Outside `BOOT`, only a commit and a RESET write `mode_live`. -/
theorem ControlStep.modeLive_eq {s : State} {i : Instr} {c : Control} (h : ControlStep s i c) (hs : s.fgPc ≠ .boot)
    (hi : i ≠ .reset) : c.modeLive = s.modeLive ∨ ∃ v, c = (commitMode v s).control := by
  cases h with
  | load phase | boot phase => exact absurd phase hs
  | commit => exact .inr ⟨_, rfl⟩
  | reset => exact absurd rfl hi
  | keep | pollS1 | noBurst | burst | sendFails | sent | pollS3 | pollS4 => exact .inl rfl

/-- A commit persists the mode it has set, owes a RESET and halts (R115). -/
theorem registers_of_committed {s t : State} {v : Bit} (h : t.control = (commitMode v s).control) :
    t.resetPending = true ∧ t.fgPc = .halt ∧ t.modeLive = v ∧ t.nv = nvByte v :=
  ⟨congrArg Control.resetPending h, congrArg Control.fgPc h, congrArg Control.modeLive h, congrArg Control.nv h⟩

/-- Settles O32: whichever of `nv` and `mode_live` has changed, the step was a commit. -/
theorem modeChangesAreCommits : Obligations.ModeChangesAreCommits := by
  intro i s t h
  obtain ⟨-, control, -⟩ := effect_of_exec h
  refine ⟨fun hnv => ?nv, fun hs hi hmode => ?mode⟩
  case nv =>
    obtain ⟨operation, v, hc⟩ := control.nv_eq.resolve_left hnv
    obtain ⟨-, -, rfl, hbyte⟩ := registers_of_committed hc
    rw [hbyte]
    exact ⟨operation, nvByte_eq_zero_or_one t.modeLive, rfl⟩
  case mode =>
    obtain ⟨v, hc⟩ := (control.modeLive_eq hs hi).resolve_left hmode
    obtain ⟨hpending, hhalt, rfl, hbyte⟩ := registers_of_committed hc
    exact ⟨hpending, hhalt, hbyte⟩

end Sys2Proof.Machine
end

section
/-! PROOFS. An operation on one buffer ignores the other (R13): O14. -/

namespace Sys2Proof.Machine

open Sys2Proof

/-- A result with its state changed by `φ`; a fault or a refusal is as it was. -/
def Ret.mapState {α : Type} (φ : State → State) : Ret α → Ret α
  | .ok a s => .ok a (φ s)
  | .fault r => .fault r
  | .refused r => .refused r

/-- The operation neither reads nor writes buffer `g`: whatever `g` is replaced by, it does the same, and leaves that. -/
def Ignores {α : Type} (g : BufId) (op : State → Ret α) : Prop :=
  ∀ (s : State) (x : Buf), op (s.setBuf g x) = (op s).mapState fun t => t.setBuf g x

/-- A sequence ignores what each of its parts ignores. -/
theorem Ignores.andThen {α β : Type} {g : BufId} {op : State → Ret α} {k : α → State → Ret β} (hop : Ignores g op)
    (hk : ∀ a, Ignores g (k a)) : Ignores g fun s => (op s).andThen k := by
  intro s x
  show (op (s.setBuf g x)).andThen k = ((op s).andThen k).mapState _
  rw [hop s x]
  cases op s with
  | ok a t => exact hk a t x
  | fault | refused => rfl

/-- A response goes to no buffer. -/
theorem ignores_respond (f g : BufId) (ok : Bool) (val : Nat) : Ignores g (respond f ok val) := by
  intro s x
  cases g <;> rfl

theorem ignores_respondByte (f g : BufId) (r : Option Byte) : Ignores g (respondByte f r) := by
  cases r with
  | none => exact ignores_respond f g false 0
  | some b => exact ignores_respond f g true b.toNat

section
variable {f g : BufId} (hne : g ≠ f)
include hne

/-- Writes to different buffers commute. -/
theorem setBuf_comm (s : State) (b x : Buf) : (s.setBuf g x).setBuf f b = (s.setBuf f b).setBuf g x := by
  cases f with
  | h2d => cases g with
    | h2d => exact absurd rfl hne
    | d2h => rfl
  | d2h => cases g with
    | h2d => rfl
    | d2h => exact absurd rfl hne

theorem buf_setBuf_other (s : State) (x : Buf) : (s.setBuf g x).buf f = s.buf f := buf_setBuf_ne s x hne.symm

theorem full_setBuf_other (s : State) (x : Buf) : (s.setBuf g x).full f = s.full f := by
  simp only [State.full, buf_setBuf_other hne, setBuf_params]

theorem empty_setBuf_other (s : State) (x : Buf) : (s.setBuf g x).empty f = s.empty f := by
  simp only [State.empty, buf_setBuf_other hne]

theorem cell_setBuf_other (s : State) (x : Buf) (i : Nat) : (s.setBuf g x).cell f i = s.cell f i := by
  simp only [State.cell, buf_setBuf_other hne, setBuf_resets]

/-! ### One lemma per operation of 40_fifo_ops.md -/

theorem ignores_memRead (i : Nat) : Ignores g (memRead f i) := by
  intro s x
  simp only [memRead, setBuf_params, cell_setBuf_other hne]
  split_ifs <;> rfl

theorem ignores_memWrite (i : Nat) (v : Byte) : Ignores g (memWrite f i v) := by
  intro s x
  simp only [memWrite, setBuf_params, buf_setBuf_other hne, setBuf_comm hne]
  split_ifs <;> rfl

theorem ignores_initBuf (a : Agent) : Ignores g (initBuf a f) := by
  intro s x
  simp only [initBuf, buf_setBuf_other hne, setBuf_comm hne]
  split_ifs <;> rfl

/-- The store to the cell, then the one to `tail` and `count`. -/
theorem ignores_insertByte (b : Byte) : Ignores g (insertByte f b) := by
  intro s x
  unfold insertByte
  rw [buf_setBuf_other hne]
  refine (ignores_memWrite hne _ b).andThen (fun _ t y => ?_) s x
  simp only [setBuf_params, buf_setBuf_other hne, setBuf_comm hne]
  rfl

theorem ignores_tryInsert (a : Agent) (b : Byte) : Ignores g (tryInsert a f b) := by
  intro s x
  simp only [tryInsert, buf_setBuf_other hne, full_setBuf_other hne, ignores_insertByte hne b s x]
  split_ifs <;> rfl

/-- The read of the cell, then the store to `head` and `count`. -/
theorem ignores_removeByte : Ignores g (removeByte f) := by
  intro s x
  unfold removeByte
  rw [buf_setBuf_other hne]
  refine (ignores_memRead hne _).andThen (fun _ t y => ?_) s x
  simp only [setBuf_params, buf_setBuf_other hne, setBuf_comm hne]
  rfl

theorem ignores_tryRemove (a : Agent) : Ignores g (tryRemove a f) := by
  intro s x
  simp only [tryRemove, buf_setBuf_other hne, empty_setBuf_other hne, ignores_removeByte hne s x]
  split_ifs <;> rfl

theorem ignores_peekBuf (a : Agent) : Ignores g (peekBuf a f) := by
  intro s x
  have hread := (ignores_memRead hne (s.buf f).head).andThen (k := fun b t => .ok (some b) t) (fun _ _ _ => rfl) s x
  simp only [peekBuf, buf_setBuf_other hne, empty_setBuf_other hne, hread]
  split_ifs <;> rfl

theorem ignores_countBuf : Ignores g (countBuf f) := by
  intro s x
  simp only [countBuf, buf_setBuf_other hne]
  split_ifs <;> rfl

theorem ignores_isFullBuf : Ignores g (isFullBuf f) := by
  intro s x
  simp only [isFullBuf, buf_setBuf_other hne, full_setBuf_other hne]
  split_ifs <;> rfl

theorem ignores_isEmptyBuf : Ignores g (isEmptyBuf f) := by
  intro s x
  simp only [isEmptyBuf, buf_setBuf_other hne, empty_setBuf_other hne]
  split_ifs <;> rfl

/-- Each command, issued by agent `a`, is one of these operations and then a response. -/
theorem exec_ignores {b : Byte} {i : Instr}
    (hi : i ∈ [Instr.init f, .tryInsert f b, .tryRemove f, .peek f, .count f, .isFull f, .isEmpty f]) (a : Agent) :
    ∃ op : State → Ret Unit, Ignores g op ∧ ∀ s, s.agent = a → exec i s = (op s).finish := by
  simp only [List.mem_cons, List.not_mem_nil, or_false] at hi
  rcases hi with rfl | rfl | rfl | rfl | rfl | rfl | rfl
  · exact ⟨_, (ignores_initBuf hne a).andThen fun _ => ignores_respond f g true 0, by rintro s rfl; rfl⟩
  · exact ⟨_, (ignores_tryInsert hne a b).andThen fun ok => ignores_respond f g ok 0, by rintro s rfl; rfl⟩
  · exact ⟨_, (ignores_tryRemove hne a).andThen (ignores_respondByte f g), by rintro s rfl; rfl⟩
  · exact ⟨_, (ignores_peekBuf hne a).andThen (ignores_respondByte f g), by rintro s rfl; rfl⟩
  · exact ⟨_, (ignores_countBuf hne).andThen (ignores_respond f g true), fun _ _ => rfl⟩
  · exact ⟨_, (ignores_isFullBuf hne).andThen fun r => ignores_respond f g true r.toNat, fun _ _ => rfl⟩
  · exact ⟨_, (ignores_isEmptyBuf hne).andThen fun r => ignores_respond f g true r.toNat, fun _ _ => rfl⟩

end

/-- Settles O14: with `g` replaced each command answers the same and leaves the replacement; that it leaves `g` itself
is the case of replacing `g` by what it already is. -/
theorem buffersAreIndependent : Obligations.BuffersAreIndependent := by
  intro f g b s x hne i hi
  obtain ⟨op, hop, hexec⟩ := exec_ignores hne hi s.agent
  have hreplaced : ∀ y, exec i (s.setBuf g y) = ((op s).mapState fun t => t.setBuf g y).finish := fun y => by
    rw [hexec _ (setBuf_agent s g y), hop s y]
  rw [hexec s rfl]
  cases hr : op s with
  | ok _ u =>
    rw [hr] at hreplaced
    have hsame : exec i (s.setBuf g (s.buf g)) = .next u := by rw [setBuf_buf, hexec s rfl, hr]; rfl
    have hu : u.setBuf g (s.buf g) = u := Host.Outcome.next.inj ((hreplaced (s.buf g)).symm.trans hsame)
    refine ⟨fun t ht => ?_, nofun, nofun⟩
    obtain rfl : u = t := Host.Outcome.next.inj ht
    exact ⟨by rw [← hu, buf_setBuf_same], hreplaced x⟩
  | fault | refused => simp [hreplaced x, hr, Ret.mapState]

end Sys2Proof.Machine
end

section
/-! PROOFS. The cells of 20_memory.md: what a write reads back as, and the frames of the operations that store to one
cell or to none (O15, O48 to O50, O52). -/

namespace Sys2Proof.Machine

open Sys2Proof

/-! ## When a cell reads as before, and when it does not (R40, R43) -/

/-- What a cell reads as depends on its own store and on the number of resets only. -/
theorem cell_congr {s t : State} (hmem : ∀ g, (t.buf g).mem = (s.buf g).mem) (hresets : t.resets = s.resets)
    (g : BufId) (a : Nat) : t.cell g a = s.cell g a := by
  simp only [State.cell, hmem, hresets]

/-- A buffer whose registers alone are replaced keeps its store, and so does the other. -/
theorem mem_setBuf_of_mem_eq {s : State} {f : BufId} {x : Buf} (hx : x.mem = (s.buf f).mem) (g : BufId) :
    ((s.setBuf f x).buf g).mem = (s.buf g).mem := by
  rw [buf_setBuf]
  split
  case isTrue hg => rw [hg, hx]
  case isFalse => rfl

/-- A store to cell `i` of buffer `f`, whatever becomes of its registers, is read back there and nowhere else. -/
theorem cell_setBuf_write {s : State} {f : BufId} {x : Buf} {i : Nat} {v : Byte}
    (hx : x.mem = Memory.write (s.buf f).mem i v) (g : BufId) (a : Nat) :
    (s.setBuf f x).cell g a = if g = f ∧ a = i then v else s.cell g a := by
  simp only [State.cell, setBuf_resets]
  by_cases hg : g = f
  · subst hg
    simp only [buf_setBuf_same, hx, read_write, true_and]
    split <;> rfl
  · rw [buf_setBuf_ne s x hg, if_neg fun h => hg h.1]

/-- The accepted byte is in the cell at `tail`; every other cell reads as before. -/
theorem cell_afterInsert (s : State) (f : BufId) (b : Byte) (g : BufId) (a : Nat) :
    (s.afterInsert f b).cell g a = if g = f ∧ a = (s.buf f).tail then b else s.cell g a :=
  cell_setBuf_write rfl g a

theorem memWrite_eq {f : BufId} {i : Nat} {s : State} (v : Byte) (hi : i < s.params.cap f) :
    memWrite f i v s = .ok () (s.setBuf f { s.buf f with mem := Memory.write (s.buf f).mem i v }) := if_pos hi

theorem memRead_eq {f : BufId} {i : Nat} {s : State} (hi : i < s.params.cap f) :
    memRead f i s = .ok (s.cell f i) s := if_pos hi

/-- Settles O15: the state after the write is the one `memWrite_eq` names, and `cell_setBuf_write` reads its cells. -/
theorem cellReadAfterWrite : Obligations.CellReadAfterWrite := by
  intro f i v s hi
  have hcell := cell_setBuf_write (s := s) (f := f) (x := { s.buf f with mem := Memory.write (s.buf f).mem i v }) rfl
  refine ⟨_, memWrite_eq v hi, ?_, fun g a hne => (hcell g a).trans (if_neg hne), ?_⟩
  · rw [memRead_eq (by rwa [setBuf_params]), hcell, if_pos ⟨rfl, rfl⟩]
  · rw [buf_setBuf_same]

/-! ## The commands at a port (40_fifo_ops.md) -/

/-- Settles O48: each of the four answers with the state as it was and a response. -/
theorem queryFrame : Obligations.QueryFrame := by
  intro f i s t hi h
  have hframe : ∃ r, t = { s with frsp := r } := by
    simp only [List.mem_cons, List.not_mem_nil, or_false] at hi
    rcases hi with rfl | rfl | rfl | rfl
    · obtain ⟨-, -, ⟨-, ht⟩ | ⟨-, -, ht⟩⟩ := exec_peek.1 h <;> exact ⟨_, ht⟩
    · exact ⟨_, (exec_count.1 h).2⟩
    · exact ⟨_, (exec_isFull.1 h).2⟩
    · exact ⟨_, (exec_isEmpty.1 h).2⟩
  obtain ⟨r, rfl⟩ := hframe
  exact ⟨rfl, cell_congr (fun _ => rfl) rfl⟩

theorem init_frame {f : BufId} {s t : State} (h : exec (.init f) s = .next t) :
    t = { s.setBuf f { t.buf f with mem := (s.buf f).mem } with frsp := t.frsp } ∧
      ∀ g a, t.cell g a = s.cell g a := by
  obtain ⟨-, -, rfl⟩ := exec_init.1 h
  exact ⟨by cases f <;> rfl, cell_congr (mem_setBuf_of_mem_eq rfl) (afterInit_resets s f)⟩

theorem tryRemove_frame {f : BufId} {s t : State} (h : exec (.tryRemove f) s = .next t) :
    t = { s.setBuf f { s.buf f with head := (t.buf f).head, count := (t.buf f).count } with frsp := t.frsp } ∧
      ∀ g a, t.cell g a = s.cell g a := by
  obtain ⟨-, -, ⟨-, rfl⟩ | ⟨-, -, rfl⟩⟩ := exec_tryRemove.1 h
  · exact ⟨by cases f <;> rfl, cell_congr (fun _ => rfl) rfl⟩
  · exact ⟨by cases f <;> rfl, cell_congr (mem_setBuf_of_mem_eq rfl) (afterRemove_resets s f)⟩

/-- Settles O49: INIT and TRY_REMOVE replace registers of their own buffer, and a store that is kept reads as before. -/
theorem initAndRemoveFrame : Obligations.InitAndRemoveFrame := fun _ _ _ => ⟨init_frame, tryRemove_frame⟩

/-- The cells after an insertion into a buffer that is not full, in any state that differs in other fields only. -/
theorem cell_frame_of_inserted {s t : State} {f : BufId} {b : Byte} (room : s.full f = false)
    (ht : ∀ g a, t.cell g a = (s.afterInsert f b).cell g a) :
    ∀ g a, ¬(s.full f = false ∧ g = f ∧ a = (s.buf f).tail) → t.cell g a = s.cell g a := by
  intro g a hne
  rw [ht, cell_afterInsert, if_neg fun hcell => hne ⟨room, hcell⟩]

theorem tryInsert_frame {f : BufId} {b : Byte} {s t : State} (h : exec (.tryInsert f b) s = .next t) :
    t = { s.setBuf f { s.buf f with mem := (t.buf f).mem, tail := (t.buf f).tail, count := (t.buf f).count } with
        frsp := t.frsp } ∧
      ∀ g a, ¬(s.full f = false ∧ g = f ∧ a = (s.buf f).tail) → t.cell g a = s.cell g a := by
  obtain ⟨-, -, ⟨-, rfl⟩ | ⟨room, -, rfl⟩⟩ := exec_tryInsert.1 h
  · exact ⟨by cases f <;> rfl, fun g a _ => cell_congr (fun _ => rfl) rfl g a⟩
  · exact ⟨by cases f <;> rfl, cell_frame_of_inserted room (cell_congr (fun _ => rfl) rfl)⟩

theorem uartRx_frame {b : Byte} {s t : State} (h : exec (.uartRx b) s = .next t) :
    t = { s with
        d2h := { s.d2h with mem := t.d2h.mem, tail := t.d2h.tail, count := t.d2h.count }, log := t.log } ∧
      ∀ g a, ¬(s.full .d2h = false ∧ g = .d2h ∧ a = s.d2h.tail) → t.cell g a = s.cell g a := by
  obtain ⟨-, -, ⟨-, rfl⟩ | ⟨room, -, rfl⟩⟩ := exec_uartRx.1 h
  · exact ⟨rfl, fun g a _ => cell_congr (fun _ => rfl) rfl g a⟩
  · exact ⟨rfl, cell_frame_of_inserted room (cell_congr (fun _ => rfl) rfl)⟩

/-- Settles O50: a full buffer is left as it is, and an insertion stores to the cell at `tail` (`cell_afterInsert`). -/
theorem insertFrame : Obligations.InsertFrame := fun _ _ _ _ => ⟨tryInsert_frame, uartRx_frame⟩

/-! ## The mode, the control flows and RESET (42_mode_state.md, 43_control_dispatch.md) -/

theorem load_frame {s t : State} (h : exec .load s = .next t) :
    t = { s with modeLive := t.modeLive } ∧ ∀ g a, t.cell g a = s.cell g a := by
  obtain ⟨-, rfl⟩ := exec_load.1 h
  exact ⟨rfl, cell_congr (fun _ => rfl) rfl⟩

/-- SET_AND_COMMIT and SET_WEBUSB_ENABLE: committed or not, only the mode, the phase and the record change. -/
theorem canCommit_frame {s t : State} {i : Instr} (hi : CanCommit i) (h : exec i s = .next t) :
    t = { s with
        modeLive := t.modeLive, nv := t.nv, resetPending := t.resetPending, fgPc := t.fgPc, log := t.log } ∧
      ∀ g a, t.cell g a = s.cell g a := by
  obtain ⟨v, rfl⟩ | ⟨v, l, rfl⟩ := hi
  · obtain ⟨-, ⟨-, rfl⟩ | ⟨-, rfl⟩⟩ := exec_setAndCommit.1 h <;> exact ⟨rfl, cell_congr (fun _ => rfl) rfl⟩
  · obtain ⟨-, ⟨-, rfl⟩ | ⟨-, rfl⟩⟩ := exec_setWebusbEnable.1 h <;> exact ⟨rfl, cell_congr (fun _ => rfl) rfl⟩

/-- The flows that only conclude: each emits one event (R123). -/
theorem exec_emits_of_concluding {s t : State} {i : Instr}
    (hi : (∃ v l, i = .getUrl v l ∨ i = .getMsosDesc v l) ∨
      ∃ r, i = .cdcDelegateStandard r ∨ i = .cdcDelegateClass r ∨ i = .cdcDelegateReserved r ∨ i = .vendorStall r)
    (h : exec i s = .next t) : ∃ e, t = s.emit e := by
  obtain ⟨v, l, rfl | rfl⟩ | ⟨r, rfl | rfl | rfl | rfl⟩ := hi
  · exact ⟨_, (exec_getUrl.1 h).2⟩
  · exact ⟨_, (exec_getMsosDesc.1 h).2⟩
  · exact ⟨_, (exec_cdcDelegateStandard.1 h).2⟩
  · exact ⟨_, (exec_cdcDelegateClass.1 h).2⟩
  · exact ⟨_, (exec_cdcDelegateReserved.1 h).2⟩
  · exact ⟨_, (exec_vendorStall.1 h).2⟩

theorem setAltEnum_frame {v l : BitVec 16} {s t : State} (h : exec (.setAltEnum v l) s = .next t) :
    t = { s with answers := t.answers, draws := t.draws, log := t.log } ∧ ∀ g a, t.cell g a = s.cell g a := by
  obtain ⟨-, ⟨-, rfl⟩ | ⟨-, -, rfl⟩ | ⟨-, -, ack, s', hd, rfl⟩⟩ := exec_setAltEnum.1 h
  · exact ⟨rfl, cell_congr (fun _ => rfl) rfl⟩
  · exact ⟨rfl, cell_congr (fun _ => rfl) rfl⟩
  · rw [drawAltEnumAck_frame hd]
    exact ⟨rfl, cell_congr (fun _ => rfl) rfl⟩

/-- Settles O52: one frame lemma per kind of operation; RESET is the model's `resetMachine`, which sets none of the
fields listed. -/
theorem modeAndControlFrame : Obligations.ModeAndControlFrame := by
  refine fun s t => ⟨load_frame, fun _ => canCommit_frame, fun i hi h => ?concluding, fun _ _ => setAltEnum_frame,
    fun h => ?reset⟩
  case concluding =>
    obtain ⟨e, rfl⟩ := exec_emits_of_concluding hi h
    exact ⟨rfl, cell_congr (fun _ => rfl) rfl⟩
  case reset =>
    obtain rfl := exec_reset.1 h
    exact ⟨rfl, rfl, rfl, rfl, rfl, rfl, rfl⟩

end Sys2Proof.Machine
end

section
/-! PROOFS. The encodings of 30_encoding.md: the packed response (R62, O16) and the reserved command words (R65, O42). -/

namespace Sys2Proof.Machine

open Sys2Proof

/-! ## The packed response (R62) -/

/-- A response in range, a byte or a count, fits in the field `val`. -/
theorem lt_two_pow_rspWidth {p : Params} {f : BufId} {n : Nat} (h : n ≤ max 255 (p.cap f)) :
    n < 2 ^ rspWidth p f := by
  have hbyte : 2 ^ 8 ≤ 2 ^ rspWidth p f := Nat.pow_le_pow_right (by decide) (Nat.le_max_left _ _)
  have hcount : p.cap f < 2 ^ rspWidth p f :=
    (cap_lt_two_pow_cntWidth p f).trans_le (Nat.pow_le_pow_right (by decide) (Nat.le_max_right _ _))
  omega

/-- The two fields of a packed response do not overlap when `val` fits in its own. -/
theorem toNat_frspWord {p : Params} {r : Frsp} (h : r.val < 2 ^ rspWidth p r.buf) :
    (frspWord p r).toNat = r.ok.toNat * 2 ^ rspWidth p r.buf + r.val := by
  rw [frspWord, BitVec.toNat_append, BitVec.toNat_ofBool, BitVec.toNat_ofNat, Nat.mod_eq_of_lt h,
    ← Nat.shiftLeft_add_eq_or_of_lt h, Nat.shiftLeft_eq]

/-- Settles O16: `RSPW[f]` is the greater of a byte's width and a count's, so a value in range fits below `ok`. -/
theorem responsePacking : Obligations.ResponsePacking := fun _ _ h =>
  ⟨toNat_frspWord (lt_two_pow_rspWidth h), Nat.le_max_left _ _, Nat.le_max_right _ _⟩

/-! ## The reserved command words (R65) -/

/-- The codes of R60 but TRY_INSERT's: six operations without an operand, and the reserved one. -/
theorem op_cases_of_ne_tryInsert {op : BitVec 3} (h : op ≠ 1#3) :
    op = 0#3 ∨ op = 2#3 ∨ op = 3#3 ∨ op = 4#3 ∨ op = 5#3 ∨ op = 6#3 ∨ op = 7#3 := by
  decide +revert

/-- Which FCMD words the decoder rejects, in the order of its tests: TRY_INSERT first, then `data`, then `op`. -/
theorem decodeFcmd_eq_reserved_iff {w : BitVec 12} : decodeFcmd w = .error .reservedCommand ↔
    fcmdOp w = 7#3 ∨ (fcmdOp w ≠ 1#3 ∧ fcmdData w ≠ 0#8) := by
  by_cases hop : fcmdOp w = 1#3
  case pos => simp [decodeFcmd, hop]
  case neg =>
    by_cases hdata : fcmdData w = 0#8
    case neg => simp [decodeFcmd, hop, hdata]
    case pos =>
      obtain h | h | h | h | h | h | h := op_cases_of_ne_tryInsert hop <;> simp [decodeFcmd, hdata, h]

/-- A stimulus whose word is no operation is refused by the name of the decoder's error. -/
theorem runStimulus_of_decode_error {c : Stimulus} {s : State} {w : OpWord} {e : DecodeError}
    (hw : fetchWord c s = some w) (he : decode s.params w = .error e) : runStimulus c s = .refused (refuseWord e) := by
  simp only [runStimulus, hw, runWord, he]

/-- A listed stimulus whose word is no operation is refused, so the step has no next state. -/
theorem step_of_listed_decode_error {s : State} {c : Stimulus} {rest : List Stimulus} {w : OpWord} {e : DecodeError}
    (h : s.stimuli = c :: rest)
    (hw : fetchWord c { s with stimuli := rest, agent := stimulusAgent c } = some w)
    (he : decode s.params w = .error e) : step s = .refused (refuseWord e) :=
  (step_of_listed h).trans (runStimulus_of_decode_error hw he)

/-- Settles O42: the decoder rejects exactly the reserved words, and the step that fetches one is refused. -/
theorem reservedCommandsRefused : Obligations.ReservedCommandsRefused := fun _ _ =>
  ⟨decodeFcmd_eq_reserved_iff, fun hreserved _ _ hs =>
    step_of_listed_decode_error hs rfl (decodeFcmd_eq_reserved_iff.2 hreserved)⟩

end Sys2Proof.Machine
end

section
/-! PROOFS. The seven commands at a port, one by one (40_fifo_ops.md, R77 to R83): the whole next state, the rejections,
the refusals and the faults (O1 to O8), and what they do to the abstract contents (O9). -/

namespace Sys2Proof.Machine

open Sys2Proof

/-! ## The two flags as propositions and as numbers (R24) -/

theorem full_iff {s : State} {f : BufId} : s.full f = true ↔ (s.buf f).count = s.params.cap f := beq_iff_eq

theorem empty_iff {s : State} {f : BufId} : s.empty f = true ↔ (s.buf f).count = 0 := beq_iff_eq

theorem toNat_full (s : State) (f : BufId) : (s.full f).toNat = if (s.buf f).count = s.params.cap f then 1 else 0 := by
  simp only [← full_iff]
  cases s.full f <;> rfl

theorem toNat_empty (s : State) (f : BufId) : (s.empty f).toNat = if (s.buf f).count = 0 then 1 else 0 := by
  simp only [← empty_iff]
  cases s.empty f <;> rfl

/-! ## INIT and the queries -/

/-- Settles O1: the equation is `exec_init`; a buffer with a cell and no byte is not full. -/
theorem initCreatesEmptyBuffer : Obligations.InitCreatesEmptyBuffer := by
  intro f s hp hi ha
  have hcap := valid_cap_pos hp f
  refine ⟨exec_init.2 ⟨hi, ha, rfl⟩, contents_afterInit s f, ?_, ?_⟩
  · rw [empty_iff, afterInit_buf]
  · rw [Bool.eq_false_iff, ne_eq, full_iff, afterInit_buf, afterInit_params]
    exact hcap.ne

/-- Settles O5: the answers of `exec_count`, `exec_isFull` and `exec_isEmpty`, with a flag as the number of R62. -/
theorem queryResults : Obligations.QueryResults := by
  intro f s hi
  rw [← toNat_full, ← toNat_empty]
  exact ⟨exec_count.2 ⟨hi, rfl⟩, exec_isFull.2 ⟨hi, rfl⟩, exec_isEmpty.2 ⟨hi, rfl⟩⟩

/-! ## TRY_INSERT, TRY_REMOVE and PEEK by their owner, on each kind of buffer -/

section
variable {f : BufId} {s : State} (hi : (s.buf f).inited = true)
include hi

theorem tryInsert_full (b : Byte) (ha : s.agent = producer f) (hfull : (s.buf f).count = s.params.cap f) :
    exec (.tryInsert f b) s = .next { s with frsp := some ⟨f, false, 0⟩ } :=
  exec_tryInsert.2 ⟨hi, ha, .inl ⟨full_iff.2 hfull, rfl⟩⟩

theorem tryInsert_room (b : Byte) (ha : s.agent = producer f) (ht : (s.buf f).tail < s.params.cap f)
    (hroom : (s.buf f).count ≠ s.params.cap f) :
    exec (.tryInsert f b) s = .next { s.afterInsert f b with frsp := some ⟨f, true, 0⟩ } :=
  exec_tryInsert.2 ⟨hi, ha, .inr ⟨Bool.eq_false_iff.2 (hroom ∘ full_iff.1), ht, rfl⟩⟩

theorem tryRemove_empty (ha : s.agent = consumer f) (hempty : (s.buf f).count = 0) :
    exec (.tryRemove f) s = .next { s with frsp := some ⟨f, false, 0⟩ } :=
  exec_tryRemove.2 ⟨hi, ha, .inl ⟨empty_iff.2 hempty, rfl⟩⟩

theorem tryRemove_nonempty (ha : s.agent = consumer f) (hh : (s.buf f).head < s.params.cap f)
    (hne : (s.buf f).count ≠ 0) :
    exec (.tryRemove f) s =
      .next { s.afterRemove f with frsp := some ⟨f, true, (s.cell f (s.buf f).head).toNat⟩ } :=
  exec_tryRemove.2 ⟨hi, ha, .inr ⟨Bool.eq_false_iff.2 (hne ∘ empty_iff.1), hh, rfl⟩⟩

theorem peek_empty (ha : s.agent = consumer f) (hempty : (s.buf f).count = 0) :
    exec (.peek f) s = .next { s with frsp := some ⟨f, false, 0⟩ } :=
  exec_peek.2 ⟨hi, ha, .inl ⟨empty_iff.2 hempty, rfl⟩⟩

theorem peek_nonempty (ha : s.agent = consumer f) (hh : (s.buf f).head < s.params.cap f)
    (hne : (s.buf f).count ≠ 0) :
    exec (.peek f) s = .next { s with frsp := some ⟨f, true, (s.cell f (s.buf f).head).toNat⟩ } :=
  exec_peek.2 ⟨hi, ha, .inr ⟨Bool.eq_false_iff.2 (hne ∘ empty_iff.1), hh, rfl⟩⟩

end

/-- Settles O2: `tryInsert_full` and `tryInsert_room`; the flags are read from the raised `count`. -/
theorem tryInsertResult : Obligations.TryInsertResult := by
  intro f b s hi ha ht
  refine ⟨?_, ?_, ?_⟩
  · split
    case isTrue hfull => exact tryInsert_full hi b ha hfull
    case isFalse hroom => exact tryInsert_room hi b ha ht hroom
  · rw [Bool.eq_false_iff, ne_eq, empty_iff, afterInsert_buf]
    exact Nat.succ_ne_zero _
  · rw [full_iff, afterInsert_buf, afterInsert_params]

/-- Settles O3: `tryRemove_empty` and `tryRemove_nonempty`; the flag is read from the lowered `count`. -/
theorem tryRemoveResult : Obligations.TryRemoveResult := by
  intro f s hi ha hh
  refine ⟨?_, ?_⟩
  · split
    case isTrue hempty => exact tryRemove_empty hi ha hempty
    case isFalse hne => exact tryRemove_nonempty hi ha hh hne
  · rw [empty_iff, afterRemove_buf]
    exact Nat.sub_eq_zero_iff_le

/-- Settles O4: `peek_empty` and `peek_nonempty`. -/
theorem peekResult : Obligations.PeekResult := by
  intro f s hi ha hh
  split
  case isTrue hempty => exact peek_empty hi ha hempty
  case isFalse hne => exact peek_nonempty hi ha hh hne

/-- Settles O6: a rejection leaves the buffer and the agent as they were, so the same lemma applies to the state it
answers. -/
theorem rejectionsAreResults : Obligations.RejectionsAreResults := by
  intro f b s hi
  have hi' : (({ s with frsp := some ⟨f, false, 0⟩ } : State).buf f).inited = true := by rwa [buf_with_frsp]
  refine ⟨fun hfull ha => ⟨tryInsert_full hi b ha hfull, tryInsert_full hi' b ha ?_⟩, fun hempty ha =>
    ⟨tryRemove_empty hi ha hempty, peek_empty hi ha hempty, tryRemove_empty hi' ha ?_, peek_empty hi' ha ?_⟩⟩ <;>
  rwa [buf_with_frsp]

/-! ## Refusals before INIT (R86) and faults at a port the agent does not own (R87), in the order of R144 -/

section
variable {f : BufId} {s : State} (hi : (s.buf f).inited = false)
include hi

theorem tryInsert_uninitialised (a : Agent) (b : Byte) : tryInsert a f b s = .refused (.notInitialised f) := by
  rw [tryInsert, hi]; rfl

theorem tryRemove_uninitialised (a : Agent) : tryRemove a f s = .refused (.notInitialised f) := by
  rw [tryRemove, hi]; rfl

theorem peekBuf_uninitialised (a : Agent) : peekBuf a f s = .refused (.notInitialised f) := by
  rw [peekBuf, hi]; rfl

theorem countBuf_uninitialised : countBuf f s = .refused (.notInitialised f) := by
  rw [countBuf, hi]; rfl

theorem isFullBuf_uninitialised : isFullBuf f s = .refused (.notInitialised f) := by
  rw [isFullBuf, hi]; rfl

theorem isEmptyBuf_uninitialised : isEmptyBuf f s = .refused (.notInitialised f) := by
  rw [isEmptyBuf, hi]; rfl

end

section
variable {f : BufId} {s : State} {a : Agent} (hi : (s.buf f).inited = true)
include hi

theorem initBuf_initialised : initBuf a f s = .refused (.alreadyInitialised f) := if_pos hi

theorem tryInsert_nonproducer (b : Byte) (ha : a ≠ producer f) :
    tryInsert a f b s = .fault (.contractViolation a f) := by
  rw [tryInsert, hi, if_pos ha]; rfl

theorem tryRemove_nonconsumer (ha : a ≠ consumer f) : tryRemove a f s = .fault (.contractViolation a f) := by
  rw [tryRemove, hi, if_pos ha]; rfl

theorem peekBuf_nonconsumer (ha : a ≠ consumer f) : peekBuf a f s = .fault (.contractViolation a f) := by
  rw [peekBuf, hi, if_pos ha]; rfl

end

/-- Settles O7: each command ends where the operation it calls is refused. -/
theorem lifecycleRefusals : Obligations.LifecycleRefusals := by
  refine fun f b s => ⟨fun hi => ⟨?_, ?_, ?_, ?_, ?_, ?_⟩, fun hi => ?_⟩
  · rw [exec, execTryInsert, tryInsert_uninitialised hi]; rfl
  · rw [exec, execTryRemove, tryRemove_uninitialised hi]; rfl
  · rw [exec, execPeek, peekBuf_uninitialised hi]; rfl
  · rw [exec, execCount, countBuf_uninitialised hi]; rfl
  · rw [exec, execIsFull, isFullBuf_uninitialised hi]; rfl
  · rw [exec, execIsEmpty, isEmptyBuf_uninitialised hi]; rfl
  · rw [exec, execInit, initBuf_initialised hi]; rfl

/-- Settles O8: ownership is checked before the buffer is looked at. -/
theorem contractViolationsFault : Obligations.ContractViolationsFault := by
  refine fun f b s hi => ⟨fun ha => ?_, fun ha => ⟨?_, ?_⟩⟩
  · rw [exec, execTryInsert, tryInsert_nonproducer hi b ha]; rfl
  · rw [exec, execTryRemove, tryRemove_nonconsumer hi ha]; rfl
  · rw [exec, execPeek, peekBuf_nonconsumer hi ha]; rfl

/-! ## The abstract contents (R89) -/

@[simp] theorem contents_with_frsp (s : State) (r : Option Frsp) (f : BufId) :
    ({ s with frsp := r } : State).contents f = s.contents f := contents_congr (buf_with_frsp s r f) rfl rfl

@[simp] theorem contents_with_agent (s : State) (a : Agent) (f : BufId) :
    ({ s with agent := a } : State).contents f = s.contents f := contents_congr (buf_with_agent s a f) rfl rfl

/-- A non-empty buffer that meets its invariant holds the byte at `head` and then what a removal leaves. -/
theorem contents_of_nonempty {s : State} {f : BufId} (hok : (s.buf f).Ok (s.params.cap f))
    (hi : (s.buf f).inited = true) (hne : s.empty f = false) :
    s.contents f = s.cell f (s.buf f).head :: (s.afterRemove f).contents f :=
  contents_afterRemove hok hi (empty_eq_false.1 hne)

theorem contents_of_empty {s : State} {f : BufId} (hempty : s.empty f = true) : s.contents f = [] :=
  contents_eq_nil.2 (empty_iff.1 hempty)

section
variable {f : BufId} {s t : State} (hok : (s.buf f).Ok (s.params.cap f))
include hok

/-- TRY_INSERT appends the byte while there is room. -/
theorem tryInsert_abstract {b : Byte} (h : exec (.tryInsert f b) s = .next t) :
    t.frsp = some ⟨f, decide ((s.contents f).length < s.params.cap f), 0⟩ ∧
    t.contents f = if (s.contents f).length < s.params.cap f then s.contents f ++ [b] else s.contents f := by
  obtain ⟨hi, -, ⟨hfull, rfl⟩ | ⟨hroom, -, rfl⟩⟩ := exec_tryInsert.1 h
  · have hnot : ¬(s.buf f).count < s.params.cap f := (full_iff.1 hfull).not_lt
    simp [hnot]
  · have hlt := (full_eq_false hok hi).1 hroom
    refine ⟨by simp [hlt], (contents_with_frsp _ _ f).trans ?_⟩
    rw [contents_length, if_pos hlt, contents_afterInsert b hok hi hlt]

/-- TRY_REMOVE takes the first byte if there is one. -/
theorem tryRemove_abstract (h : exec (.tryRemove f) s = .next t) :
    match s.contents f with
    | [] => t.frsp = some ⟨f, false, 0⟩ ∧ t.contents f = []
    | b :: rest => t.frsp = some ⟨f, true, b.toNat⟩ ∧ t.contents f = rest := by
  obtain ⟨hi, -, ⟨hempty, rfl⟩ | ⟨hne, -, rfl⟩⟩ := exec_tryRemove.1 h
  · simp [contents_of_empty hempty]
  · rw [contents_of_nonempty hok hi hne]
    exact ⟨rfl, contents_with_frsp _ _ f⟩

/-- PEEK answers the first byte if there is one. -/
theorem peek_abstract (h : exec (.peek f) s = .next t) : t.contents f = s.contents f ∧
    match s.contents f with
    | [] => t.frsp = some ⟨f, false, 0⟩
    | b :: _ => t.frsp = some ⟨f, true, b.toNat⟩ := by
  obtain ⟨hi, -, ⟨hempty, rfl⟩ | ⟨hne, -, rfl⟩⟩ := exec_peek.1 h
  · simp [contents_of_empty hempty]
  · simp [contents_of_nonempty hok hi hne]

end

/-- Settles O9: the three operations that look at the bytes have a lemma each; INIT and the queries look at `count`,
the length of the contents. -/
theorem abstractSemantics : Obligations.AbstractSemantics := by
  refine fun f s t hok => ⟨fun h => ?init, fun _ => tryInsert_abstract hok, tryRemove_abstract hok, peek_abstract hok,
    fun h => ?count, fun h => ?isFull, fun h => ?isEmpty⟩
  case init => obtain ⟨-, -, rfl⟩ := exec_init.1 h; exact (contents_with_frsp _ _ f).trans (contents_afterInit s f)
  case count => obtain ⟨-, rfl⟩ := exec_count.1 h; simp
  case isFull => obtain ⟨-, rfl⟩ := exec_isFull.1 h; simp [toNat_full]
  case isEmpty => obtain ⟨-, rfl⟩ := exec_isEmpty.1 h; simp [toNat_empty]

end Sys2Proof.Machine
end

section
/-! PROOFS. Sequences of TRY_INSERT and TRY_REMOVE on one buffer (R84, R85, R88, R90): every such sequence is one on a
bounded queue of bytes (`fifoRun_simulates`), and the laws of the family are laws of the queue (O10 to O13). -/

namespace Sys2Proof.Machine

open Sys2Proof

/-! ## The bounded queue -/

/-- The bytes a queue has accepted, those it has given back, and those it holds, each oldest first. -/
structure Queue where
  accepted : List Byte
  removed : List Byte
  held : List Byte

/-- One operation on a queue of `cap` places: insert a byte (`some b`) if there is room, or remove the oldest. -/
def Queue.step (cap : Nat) (q : Queue) : Option Byte → Queue
  | some b => if q.held.length < cap then ⟨q.accepted ++ [b], q.removed, q.held ++ [b]⟩ else q
  | none =>
    match q.held with
    | [] => q
    | b :: rest => ⟨q.accepted, q.removed ++ [b], rest⟩

/-- A sequence of operations. -/
def Queue.run (cap : Nat) : List (Option Byte) → Queue → Queue
  | [], q => q
  | op :: ops, q => (q.step cap op).run cap ops

/-! ## A run on a buffer is a run on a queue -/

/-- Buffer `f` is initialised, meets its invariant and has `cap` cells: it can take any operation of its owners. -/
structure State.Ready (s : State) (f : BufId) (cap : Nat) : Prop where
  cap_eq : s.params.cap f = cap
  ok : (s.buf f).Ok (s.params.cap f)
  inited : (s.buf f).inited = true

/-- What a run on buffer `f` has done, seen as a queue. -/
def FifoRun.queue (f : BufId) (r : FifoRun) : Queue := ⟨r.accepted, r.removed, r.state.contents f⟩

theorem ready_with_agent {s : State} {f : BufId} {cap : Nat} (h : s.Ready f cap) (a : Agent) :
    ({ s with agent := a } : State).Ready f cap :=
  ⟨h.cap_eq, by rw [buf_with_agent]; exact h.ok, by rw [buf_with_agent]; exact h.inited⟩

theorem ready_with_frsp {s : State} {f : BufId} {cap : Nat} (h : s.Ready f cap) (r : Option Frsp) :
    ({ s with frsp := r } : State).Ready f cap :=
  ⟨h.cap_eq, by rw [buf_with_frsp]; exact h.ok, by rw [buf_with_frsp]; exact h.inited⟩

/-- The producer's TRY_INSERT completes on a ready buffer and leaves it ready. -/
theorem tryInsert_completes {s : State} {f : BufId} {cap : Nat} (b : Byte) (h : s.Ready f cap)
    (ha : s.agent = producer f) : ∃ t, exec (.tryInsert f b) s = .next t ∧ t.Ready f cap := by
  obtain ⟨rfl, hok, hi⟩ := h
  by_cases hfull : (s.buf f).count = s.params.cap f
  case pos => exact ⟨_, tryInsert_full hi b ha hfull, ready_with_frsp ⟨rfl, hok, hi⟩ _⟩
  case neg =>
    have hroom := lt_of_le_of_ne (hok.count_le hi) hfull
    refine ⟨_, tryInsert_room hi b ha (tail_lt hok hi) hfull, ready_with_frsp ⟨?_, ?_, ?_⟩ _⟩
    · rw [afterInsert_params]
    · rw [afterInsert_params]; exact ok_afterInsert b hok hi hroom
    · rw [afterInsert_buf]; exact hi

/-- The consumer's TRY_REMOVE completes on a ready buffer and leaves it ready. -/
theorem tryRemove_completes {s : State} {f : BufId} {cap : Nat} (h : s.Ready f cap)
    (ha : s.agent = consumer f) : ∃ t, exec (.tryRemove f) s = .next t ∧ t.Ready f cap := by
  obtain ⟨rfl, hok, hi⟩ := h
  by_cases hempty : (s.buf f).count = 0
  case pos => exact ⟨_, tryRemove_empty hi ha hempty, ready_with_frsp ⟨rfl, hok, hi⟩ _⟩
  case neg =>
    refine ⟨_, tryRemove_nonempty hi ha (hok.head_lt hi) hempty, ready_with_frsp ⟨?_, ?_, ?_⟩ _⟩
    · rw [afterRemove_params]
    · rw [afterRemove_params]; exact ok_afterRemove hok hi (Nat.pos_of_ne_zero hempty)
    · rw [afterRemove_buf]; exact hi

/-- One operation on a ready buffer is the operation on the queue: `tryInsert_abstract` and `tryRemove_abstract`. -/
theorem fifoStep_simulates {f : BufId} {cap : Nat} (op : Option Byte) {r : FifoRun} (h : r.state.Ready f cap) :
    ∃ r', fifoStep f op r = some r' ∧ r'.state.Ready f cap ∧ r'.queue f = (r.queue f).step cap op := by
  cases op with
  | some b =>
    have hready := ready_with_agent h (producer f)
    obtain ⟨t, ht, hnext⟩ := tryInsert_completes b hready rfl
    obtain ⟨hfrsp, hcontents⟩ := tryInsert_abstract hready.ok ht
    simp only [hready.cap_eq, contents_with_agent] at hfrsp hcontents
    by_cases hroom : (r.state.contents f).length < cap
    case pos =>
      simp only [hroom, decide_true, if_true] at hfrsp hcontents
      exact ⟨⟨r.accepted ++ [b], r.removed, t⟩, by simp [fifoStep, ht, hfrsp], hnext,
        by rw [Queue.step, FifoRun.queue, FifoRun.queue, if_pos hroom, hcontents]⟩
    case neg =>
      simp only [hroom, decide_false, if_false] at hfrsp hcontents
      exact ⟨⟨r.accepted, r.removed, t⟩, by simp [fifoStep, ht, hfrsp], hnext,
        by rw [Queue.step, FifoRun.queue, FifoRun.queue, if_neg hroom, hcontents]⟩
  | none =>
    have hready := ready_with_agent h (consumer f)
    obtain ⟨t, ht, hnext⟩ := tryRemove_completes hready rfl
    have habstract := tryRemove_abstract hready.ok ht
    rw [contents_with_agent] at habstract
    cases hheld : r.state.contents f with
    | nil =>
      rw [hheld] at habstract
      obtain ⟨hfrsp, hcontents⟩ := habstract
      exact ⟨⟨r.accepted, r.removed, t⟩, by simp [fifoStep, ht, hfrsp], hnext,
        by simp [FifoRun.queue, Queue.step, hheld, hcontents]⟩
    | cons b rest =>
      rw [hheld] at habstract
      obtain ⟨hfrsp, hcontents⟩ := habstract
      exact ⟨⟨r.accepted, r.removed ++ [b], t⟩, by simp [fifoStep, ht, hfrsp], hnext,
        by simp [FifoRun.queue, Queue.step, hheld, hcontents]⟩

/-- A whole sequence of operations on a ready buffer completes, and does what it does to the queue. -/
theorem fifoRun_simulates {f : BufId} {cap : Nat} (ops : List (Option Byte)) {r : FifoRun} (h : r.state.Ready f cap) :
    ∃ r', fifoRun f ops r = some r' ∧ r'.state.Ready f cap ∧ r'.queue f = (r.queue f).run cap ops := by
  induction ops generalizing r with
  | nil => exact ⟨r, rfl, h, rfl⟩
  | cons op ops ih =>
    obtain ⟨r₁, hstep, h₁, hq₁⟩ := fifoStep_simulates op h
    obtain ⟨r₂, hrun, h₂, hq₂⟩ := ih h₁
    exact ⟨r₂, by rw [fifoRun, hstep]; exact hrun, h₂, by rw [hq₂, hq₁]; rfl⟩

/-! ## The laws of the queue -/

/-- What was accepted is what was removed followed by what is held. -/
def Queue.Ordered (q : Queue) : Prop := q.accepted = q.removed ++ q.held

theorem Queue.Ordered.step {q : Queue} (h : q.Ordered) (cap : Nat) (op : Option Byte) : (q.step cap op).Ordered := by
  obtain ⟨accepted, removed, held⟩ := q
  obtain rfl : accepted = removed ++ held := h
  cases op with
  | some b =>
    rw [Queue.step]
    split
    case isTrue => exact List.append_assoc removed held [b]
    case isFalse => rfl
  | none =>
    cases held with
    | nil => rfl
    | cons b rest => exact List.append_cons removed b rest

theorem Queue.Ordered.run {q : Queue} (h : q.Ordered) (cap : Nat) (ops : List (Option Byte)) :
    (q.run cap ops).Ordered := by
  induction ops generalizing q with
  | nil => exact h
  | cons op ops ih => exact ih (h.step cap op)

theorem Queue.run_append (cap : Nat) (ops ops' : List (Option Byte)) (q : Queue) :
    q.run cap (ops ++ ops') = (q.run cap ops).run cap ops' := by
  induction ops generalizing q with
  | nil => rfl
  | cons op ops ih => exact ih (q.step cap op)

/-- As many insertions as there are places free are all accepted. -/
theorem Queue.run_inserts {cap : Nat} {bs : List Byte} {q : Queue} (h : q.held.length + bs.length ≤ cap) :
    q.run cap (bs.map some) = ⟨q.accepted ++ bs, q.removed, q.held ++ bs⟩ := by
  induction bs generalizing q with
  | nil => simp [Queue.run]
  | cons b bs ih =>
    rw [List.length_cons] at h
    rw [List.map_cons, Queue.run, Queue.step, if_pos (by omega), ih (by simp; omega)]
    simp

/-- As many removals as there are bytes held return them all, in order. -/
theorem Queue.run_removes (cap : Nat) (accepted removed held : List Byte) :
    Queue.run cap (List.replicate held.length none) ⟨accepted, removed, held⟩ = ⟨accepted, removed ++ held, []⟩ := by
  induction held generalizing removed with
  | nil => simp [Queue.run]
  | cons b rest ih => rw [List.length_cons, List.replicate_succ, Queue.run, Queue.step, ih, ← List.append_cons]

/-- Insertions only append: the oldest bytes stay in front. -/
theorem Queue.held_prefix_run_inserts (cap : Nat) (bs : List Byte) (q : Queue) :
    q.held <+: (q.run cap (bs.map some)).held := by
  induction bs generalizing q with
  | nil => exact List.prefix_rfl
  | cons b bs ih =>
    refine List.IsPrefix.trans ?_ (ih (q.step cap (some b)))
    rw [Queue.step]
    split
    case isTrue => exact List.prefix_append q.held [b]
    case isFalse => exact List.prefix_rfl

/-- While the removals are no more than the bytes held at first, each returns one. -/
theorem Queue.length_removed_run {cap : Nat} {ops : List (Option Byte)} {q : Queue}
    (h : ops.countP (·.isNone) ≤ q.held.length) :
    (q.run cap ops).removed.length = q.removed.length + ops.countP (·.isNone) := by
  induction ops generalizing q with
  | nil => rfl
  | cons op ops ih =>
    obtain ⟨accepted, removed, held⟩ := q
    cases op with
    | some b =>
      rw [List.countP_cons_of_neg (by simp)] at h ⊢
      rw [Queue.run, Queue.step]
      split
      case isTrue => exact ih (by rw [List.length_append]; exact h.trans (Nat.le_add_right _ _))
      case isFalse => exact ih h
    | none =>
      rw [List.countP_cons_of_pos rfl] at h ⊢
      cases held with
      | nil => exact absurd h (Nat.not_succ_le_zero _)
      | cons b rest =>
        rw [Queue.run, Queue.step, ih (Nat.le_of_succ_le_succ h), List.length_append, List.length_singleton]
        omega

/-- While the insertions are no more than the places free at first, each is accepted. -/
theorem Queue.length_accepted_run {cap : Nat} {ops : List (Option Byte)} {q : Queue}
    (h : ops.countP (·.isSome) ≤ cap - q.held.length) :
    (q.run cap ops).accepted.length = q.accepted.length + ops.countP (·.isSome) := by
  induction ops generalizing q with
  | nil => rfl
  | cons op ops ih =>
    obtain ⟨accepted, removed, held⟩ := q
    cases op with
    | some b =>
      rw [List.countP_cons_of_pos rfl] at h ⊢
      have hroom : held.length < cap := by simp only at h; omega
      have hrest : ops.countP (·.isSome) ≤ cap - (held ++ [b]).length := by
        rw [List.length_append, List.length_singleton]; simp only at h; omega
      rw [Queue.run, Queue.step, if_pos hroom, ih hrest, List.length_append, List.length_singleton]
      omega
    | none =>
      rw [List.countP_cons_of_neg (by simp)] at h ⊢
      cases held with
      | nil => exact ih h
      | cons b rest => exact ih (h.trans (Nat.sub_le_sub_left (Nat.le_succ rest.length) cap))

/-! ## The laws of the family -/

/-- Settles O10: an empty buffer is an ordered queue, and every run keeps it ordered. -/
theorem fifoOrder : Obligations.FifoOrder := by
  intro f s ops hok hi hempty
  obtain ⟨r, hrun, hready, hq⟩ := fifoRun_simulates (r := ⟨[], [], s⟩) ops ⟨rfl, hok, hi⟩
  have hstart : (FifoRun.queue f ⟨[], [], s⟩).Ordered := hempty.symm
  have hend : (r.queue f).Ordered := hq ▸ hstart.run _ ops
  exact ⟨r, hrun, hend, hready.cap_eq ▸ hready.ok.count_le hready.inited⟩

/-- Settles O11: the insertions are all accepted (`Queue.run_inserts`), and then the queue is emptied
(`Queue.run_removes`). -/
theorem roundTripOfBytes : Obligations.RoundTripOfBytes := by
  intro f s bs hok hi hcount hlen
  obtain ⟨r, hrun, -, hq⟩ := fifoRun_simulates (r := ⟨[], [], s⟩) (bs.map some ++ List.replicate bs.length none)
    ⟨rfl, hok, hi⟩
  have hstart : FifoRun.queue f ⟨[], [], s⟩ = ⟨[], [], []⟩ := by rw [FifoRun.queue, contents_eq_nil.2 hcount]
  have hend : r.queue f = ⟨bs, bs, []⟩ := by
    rw [hq, hstart, Queue.run_append, Queue.run_inserts (by simpa using hlen), List.nil_append, Queue.run_removes,
      List.nil_append]
  obtain ⟨haccepted, hremoved, hheld⟩ := Queue.mk.inj hend
  exact ⟨r, hrun, haccepted, hremoved, hheld⟩

/-- The producer's insertions leave what the buffer held in front. -/
theorem fifoRun_inserts {f : BufId} {cap : Nat} (bs : List Byte) {r : FifoRun} (h : r.state.Ready f cap) :
    ∃ r' more, fifoRun f (bs.map some) r = some r' ∧ r'.state.Ready f cap ∧
      r'.state.contents f = r.state.contents f ++ more := by
  obtain ⟨r', hrun, hready, hq⟩ := fifoRun_simulates (bs.map some) h
  have hprefix : (r.queue f).held <+: (r'.queue f).held := hq ▸ Queue.held_prefix_run_inserts cap bs _
  obtain ⟨more, hmore⟩ := hprefix
  exact ⟨r', more, hrun, hready, hmore.symm⟩

/-- Settles O12: PEEK answers the first byte of the contents, and the insertions leave it the first. -/
theorem peekThenRemove : Obligations.PeekThenRemove := by
  intro f s t v bs hok hpeek hv
  obtain ⟨hi, -, ⟨-, rfl⟩ | ⟨hne, -, rfl⟩⟩ := exec_peek.1 hpeek
  · exact absurd hv (by simp)
  · obtain rfl : (s.cell f (s.buf f).head).toNat = v := by simpa using hv
    obtain ⟨r, more, hrun, hready, hcontents⟩ := fifoRun_inserts (r := ⟨[], [], _⟩) bs
      (ready_with_frsp ⟨rfl, hok, hi⟩ (some ⟨f, true, (s.cell f (s.buf f).head).toNat⟩))
    have hconsumer := ready_with_agent hready (consumer f)
    obtain ⟨u, hu, -⟩ := tryRemove_completes hconsumer rfl
    have hanswer := tryRemove_abstract hconsumer.ok hu
    rw [contents_with_agent, hcontents, contents_with_frsp, contents_of_nonempty hok hi hne] at hanswer
    exact ⟨r, u, hrun, hu, hanswer.1⟩

/-- Settles O13: the counts are the length of the queue and the places free in it. -/
theorem countsAreLowerBounds : Obligations.CountsAreLowerBounds := by
  intro f s ops hok hi
  obtain ⟨r, hrun, -, hq⟩ := fifoRun_simulates (r := ⟨[], [], s⟩) ops ⟨rfl, hok, hi⟩
  have hheld : (FifoRun.queue f ⟨[], [], s⟩).held.length = (s.buf f).count := contents_length s f
  refine ⟨fun h => ⟨r, hrun, ?_⟩, fun h => ⟨r, hrun, ?_⟩⟩
  · have hremoved := Queue.length_removed_run (cap := s.params.cap f) (h.trans_eq hheld.symm)
    rw [← hq] at hremoved
    exact hremoved.trans (Nat.zero_add _)
  · have haccepted := Queue.length_accepted_run (cap := s.params.cap f) (h.trans_eq (by rw [hheld]))
    rw [← hq] at haccepted
    exact haccepted.trans (Nat.zero_add _)

end Sys2Proof.Machine
end

section
/-! PROOFS. The steps of the engine, one by one (41_bridge_engine.md, R95 to R104): the whole next state (O17 to O23),
and the bounds of the burst (O25). -/

namespace Sys2Proof.Machine

open Sys2Proof

/-! ## The steps one by one: each whole next state is a branch of the step's `exec_` law -/

theorem full_eq_false_iff {s : State} {f : BufId} : s.full f = false ↔ (s.buf f).count ≠ s.params.cap f :=
  beq_eq_false_iff_ne

theorem empty_eq_false_iff {s : State} {f : BufId} : s.empty f = false ↔ (s.buf f).count ≠ 0 := beq_eq_false_iff_ne

/-- Settles O17: full or not, `exec_uartRx` gives the next state. -/
theorem uartRxResult : Obligations.UartRxResult := by
  intro b s hphase hi ht
  split
  case isTrue hfull => exact exec_uartRx.2 ⟨hphase, hi, .inl ⟨full_iff.2 hfull, rfl⟩⟩
  case isFalse hroom => exact exec_uartRx.2 ⟨hphase, hi, .inr ⟨full_eq_false_iff.2 hroom, ht, rfl⟩⟩

/-- Settles O18: the next state is the one of `exec_boot`; each buffer in it is as INIT leaves it. -/
theorem bootResult : Obligations.BootResult := by
  intro s hphase hh hd
  refine ⟨_, exec_boot.2 ⟨hphase, hh, hd, rfl⟩, rfl, fun f => ?_, rfl, rfl⟩
  cases f with
  | h2d => exact ⟨rfl, rfl, rfl, rfl, rfl⟩
  | d2h => exact ⟨rfl, rfl, rfl, rfl, rfl⟩

/-- Settles O19: `exec_pollS1` on a full buffer, and on one that is not full for either answer. -/
theorem pollS1Result : Obligations.PollS1Result := by
  refine fun s hphase hi ht => ⟨fun hfull => ?full, fun hroom r s' hd => ?room⟩
  case full => exact exec_pollS1.2 ⟨hphase, hi, .inl ⟨full_iff.2 hfull, rfl⟩⟩
  case room =>
    refine exec_pollS1.2 ⟨hphase, hi, .inr ⟨full_eq_false_iff.2 hroom, r, s', hd, ?_⟩⟩
    cases r with
    | none => exact .inl ⟨rfl, rfl⟩
    | some b => exact .inr ⟨b, rfl, ht, rfl⟩

/-- Settles O20: `exec_pollS2` on an empty buffer, and on one that is not empty for either answer. -/
theorem pollS2Result : Obligations.PollS2Result := by
  refine fun s hphase hi => ⟨fun hempty => ?empty, fun hne rdy s' hd => ?nonempty⟩
  case empty => exact exec_pollS2.2 ⟨hphase, hi, .inl ⟨empty_iff.2 hempty, rfl⟩⟩
  case nonempty =>
    refine exec_pollS2.2 ⟨hphase, hi, .inr ⟨empty_eq_false_iff.2 hne, rdy, s', hd, ?_⟩⟩
    cases rdy with
    | false => exact .inl ⟨rfl, rfl⟩
    | true => exact .inr ⟨rfl, rfl⟩

/-- Settles O21: `exec_pollS2l` for either answer. -/
theorem pollS2lResult : Obligations.PollS2lResult := by
  intro s hphase hi hleft hcount hh sent s' hd
  refine exec_pollS2l.2 ⟨hphase, Nat.ne_of_gt hleft, hi, empty_eq_false.2 hcount, hh, sent, s', hd, ?_⟩
  cases sent with
  | false => exact .inl ⟨rfl, rfl⟩
  | true => exact .inr ⟨rfl, rfl⟩

/-- Settles O22: `exec_pollS3` where there is a byte and the UART is ready, and where one of the two fails. -/
theorem pollS3Result : Obligations.PollS3Result := by
  intro s hphase hi hh rdy s' hd
  refine exec_pollS3.2 ⟨hphase, hi, rdy, s', hd, ?_⟩
  split
  case isTrue hboth =>
    obtain ⟨hready, hne⟩ := hboth
    exact .inr ⟨empty_eq_false_iff.2 hne, hready, hh, rfl⟩
  case isFalse hnot =>
    refine .inl ⟨?_, rfl⟩
    by_cases hready : rdy = true
    · exact .inl (empty_iff.2 (not_not.1 fun hne => hnot ⟨hready, hne⟩))
    · exact .inr (Bool.eq_false_iff.2 hready)

/-- Settles O23. -/
theorem pollS4Result : Obligations.PollS4Result := fun _ hphase => exec_pollS4.2 ⟨hphase, rfl⟩

/-! ## The burst (R101) -/

/-- There is no burst exactly if nothing is buffered or `MAXPKT` is 1 (it is 0 in no valid configuration, R5). -/
theorem burstLength_eq_zero_iff {p : Params} {k : Nat} : burstLength p k = 0 ↔ k = 0 ∨ p.maxPkt ≤ 1 := by
  unfold burstLength
  omega

/-- Settles O25: a burst is entered only from the last branch of `exec_pollS2`, with `burstLength` bytes to send. -/
theorem burstBounds : Obligations.BurstBounds := by
  intro s t h
  obtain ⟨-, -, ⟨hempty, rfl⟩ | ⟨hne, rdy, s', hd, h⟩⟩ := exec_pollS2.1 h
  · exact ⟨nofun, fun _ => rfl, fun _ hcount => absurd (empty_iff.1 hempty) hcount⟩
  obtain ⟨rfl, rfl⟩ := Ret.ok.inj ((drawUsbReady_eq s).symm.trans hd)
  obtain ⟨hanswer, rfl⟩ | ⟨-, rfl⟩ := h
  · exact ⟨nofun, fun _ => rfl, fun _ _ hready => absurd (hanswer.symm.trans hready) nofun⟩
  refine ⟨fun hphase => ?entered, fun hmax => if_pos ?single, fun hmax hcount _ => if_neg ?several⟩
  case entered =>
    have hpos : burstLength s.params s.d2h.count ≠ 0 := fun h0 => by simp [h0] at hphase
    exact ⟨Nat.pos_of_ne_zero hpos, Nat.min_le_right _ _, Nat.min_le_left _ _⟩
  case single => exact burstLength_eq_zero_iff.2 (.inr hmax.le)
  case several => rw [burstLength_eq_zero_iff]; omega

end Sys2Proof.Machine
end

section
/-! PROOFS. What the steps of the engine leave unchanged (O51), and the independence of its half of the block from the
mode and the dispatcher (O41). -/

namespace Sys2Proof.Machine

open Sys2Proof

/-! ## The frames of the sequencer (R43, R96 to R104) -/

/-- A step that stores to neither memory leaves every cell reading as before. -/
theorem cell_eq_of_stores_kept {s t : State} (hh2d : t.h2d.mem = s.h2d.mem) (hd2h : t.d2h.mem = s.d2h.mem)
    (hresets : t.resets = s.resets) (g : BufId) (a : Nat) : t.cell g a = s.cell g a :=
  cell_congr (fun g => by cases g <;> assumption) hresets g a

theorem boot_frame {s t : State} (h : exec .boot s = .next t) :
    t = { s with
        h2d := { t.h2d with mem := s.h2d.mem }, d2h := { t.d2h with mem := s.d2h.mem }, modeLive := t.modeLive,
        fgPc := t.fgPc } ∧ ∀ g a, t.cell g a = s.cell g a := by
  obtain ⟨-, -, -, rfl⟩ := exec_boot.1 h
  exact ⟨rfl, cell_eq_of_stores_kept rfl rfl rfl⟩

theorem pollS1_frame {s t : State} (h : exec .pollS1 s = .next t) :
    t = { s with
        h2d := { s.h2d with mem := t.h2d.mem, tail := t.h2d.tail, count := t.h2d.count }, fgPc := t.fgPc,
        answers := t.answers, draws := t.draws, log := t.log } ∧
      ∀ g a, ¬(s.full .h2d = false ∧ g = .h2d ∧ a = s.h2d.tail) → t.cell g a = s.cell g a := by
  obtain ⟨-, -, ⟨-, rfl⟩ | ⟨room, r, s', hd, h⟩⟩ := exec_pollS1.1 h
  · exact ⟨rfl, fun g a _ => cell_eq_of_stores_kept rfl rfl rfl g a⟩
  obtain ⟨rfl, rfl⟩ := Ret.ok.inj ((drawUsbRead_eq s).symm.trans hd)
  obtain ⟨-, rfl⟩ | ⟨b, -, -, rfl⟩ := h
  · exact ⟨rfl, fun g a _ => cell_eq_of_stores_kept rfl rfl rfl g a⟩
  · exact ⟨rfl, cell_frame_of_inserted (f := .h2d) (b := b) room (cell_eq_of_stores_kept rfl rfl rfl)⟩

theorem pollS2_frame {s t : State} (h : exec .pollS2 s = .next t) :
    t = { s with fgPc := t.fgPc, nLeft := t.nLeft, answers := t.answers, draws := t.draws, log := t.log } ∧
      ∀ g a, t.cell g a = s.cell g a := by
  obtain ⟨-, -, ⟨-, rfl⟩ | ⟨-, rdy, s', hd, h⟩⟩ := exec_pollS2.1 h
  · exact ⟨rfl, cell_eq_of_stores_kept rfl rfl rfl⟩
  obtain ⟨rfl, rfl⟩ := Ret.ok.inj ((drawUsbReady_eq s).symm.trans hd)
  obtain ⟨-, rfl⟩ | ⟨-, rfl⟩ := h <;> exact ⟨rfl, cell_eq_of_stores_kept rfl rfl rfl⟩

theorem pollS2l_frame {s t : State} (h : exec .pollS2l s = .next t) :
    t = { s with
        d2h := { s.d2h with head := t.d2h.head, count := t.d2h.count }, fgPc := t.fgPc, nLeft := t.nLeft,
        answers := t.answers, draws := t.draws, log := t.log } ∧ ∀ g a, t.cell g a = s.cell g a := by
  obtain ⟨-, -, -, -, -, sent, s', hd, h⟩ := exec_pollS2l.1 h
  obtain ⟨rfl, rfl⟩ := Ret.ok.inj ((drawUsbSend_eq s).symm.trans hd)
  obtain ⟨-, rfl⟩ | ⟨-, rfl⟩ := h
  · exact ⟨rfl, cell_eq_of_stores_kept rfl rfl rfl⟩
  · exact ⟨rfl, cell_eq_of_stores_kept rfl rfl rfl⟩

theorem pollS3_frame {s t : State} (h : exec .pollS3 s = .next t) :
    t = { s with
        h2d := { s.h2d with head := t.h2d.head, count := t.h2d.count }, fgPc := t.fgPc, answers := t.answers,
        draws := t.draws, log := t.log } ∧ ∀ g a, t.cell g a = s.cell g a := by
  obtain ⟨-, -, rdy, s', hd, h⟩ := exec_pollS3.1 h
  obtain ⟨rfl, rfl⟩ := Ret.ok.inj ((drawUartReady_eq s).symm.trans hd)
  obtain ⟨-, rfl⟩ | ⟨-, -, -, rfl⟩ := h
  · exact ⟨rfl, cell_eq_of_stores_kept rfl rfl rfl⟩
  · exact ⟨rfl, cell_eq_of_stores_kept rfl rfl rfl⟩

theorem pollS4_frame {s t : State} (h : exec .pollS4 s = .next t) :
    t = { s with fgPc := t.fgPc } ∧ ∀ g a, t.cell g a = s.cell g a := by
  obtain ⟨-, rfl⟩ := exec_pollS4.1 h
  exact ⟨rfl, cell_eq_of_stores_kept rfl rfl rfl⟩

/-- Settles O51: one frame lemma per step. -/
theorem sequencerFrame : Obligations.SequencerFrame := fun _ _ =>
  ⟨boot_frame, pollS1_frame, pollS2_frame, pollS2l_frame, pollS3_frame, pollS4_frame⟩

/-! ## The two halves (R110, R140) -/

/-- The buffers and `n_left` replaced. -/
def State.withTransfer (s : State) (x y : Buf) (n : Nat) : State := { s with h2d := x, d2h := y, nLeft := n }

/-- The mode, `nv` and `reset_pending` replaced. -/
def State.withMode (s : State) (m : Bit) (x : Byte) (p : Bool) : State :=
  { s with modeLive := m, nv := x, resetPending := p }

/-- The operations of the dispatcher, and those of the mode but RESET. -/
def IsModeOrControl (i : Instr) : Prop :=
  (∃ v l, i = .getUrl v l ∨ i = .getMsosDesc v l ∨ i = .setAltEnum v l ∨ i = .setWebusbEnable v l) ∨
    (∃ r, i = .cdcDelegateStandard r ∨ i = .cdcDelegateClass r ∨ i = .cdcDelegateReserved r ∨ i = .vendorStall r) ∨
    i = .load ∨ ∃ v, i = .setAndCommit v

/-- The steps of the engine but BOOT. -/
def IsTransfer (i : Instr) : Prop := (∃ b, i = .uartRx b) ∨ i ∈ [Instr.pollS1, .pollS2, .pollS2l, .pollS3, .pollS4]

section
variable {s t : State} (x y : Buf) (n : Nat)

/-- Either outcome, and either answer, rests on the request and the parameters alone. -/
theorem setAltEnum_withTransfer {v l : BitVec 16} (h : exec (.setAltEnum v l) s = .next t) :
    exec (.setAltEnum v l) (s.withTransfer x y n) = .next (t.withTransfer x y n) := by
  obtain ⟨serving, ⟨other, rfl⟩ | ⟨code, fixed, rfl⟩ | ⟨code, drawn, ack, s', hd, rfl⟩⟩ := exec_setAltEnum.1 h
  · exact exec_setAltEnum.2 ⟨serving, .inl ⟨other, rfl⟩⟩
  · exact exec_setAltEnum.2 ⟨serving, .inr (.inl ⟨code, fixed, rfl⟩)⟩
  · obtain ⟨rfl, rfl⟩ := Ret.ok.inj ((drawAltEnumAck_eq s).symm.trans hd)
    exact exec_setAltEnum.2 ⟨serving, .inr (.inr ⟨code, drawn, _, _, drawAltEnumAck_eq _, rfl⟩)⟩

/-- The two operations that can commit look at the mode alone. -/
theorem canCommit_withTransfer {i : Instr} (hi : CanCommit i) (h : exec i s = .next t) :
    exec i (s.withTransfer x y n) = .next (t.withTransfer x y n) := by
  obtain ⟨v, rfl⟩ | ⟨v, l, rfl⟩ := hi
  · obtain ⟨serving, ⟨same, rfl⟩ | ⟨changed, rfl⟩⟩ := exec_setAndCommit.1 h
    · exact exec_setAndCommit.2 ⟨serving, .inl ⟨same, rfl⟩⟩
    · exact exec_setAndCommit.2 ⟨serving, .inr ⟨changed, rfl⟩⟩
  · obtain ⟨serving, ⟨same, rfl⟩ | ⟨changed, rfl⟩⟩ := exec_setWebusbEnable.1 h
    · exact exec_setWebusbEnable.2 ⟨serving, .inl ⟨same, rfl⟩⟩
    · exact exec_setWebusbEnable.2 ⟨serving, .inr ⟨changed, rfl⟩⟩

/-- The `exec_` law of each operation of this half applies to the replaced state by the same conditions. -/
theorem exec_withTransfer {i : Instr} (hi : IsModeOrControl i) (h : exec i s = .next t) :
    exec i (s.withTransfer x y n) = .next (t.withTransfer x y n) := by
  obtain ⟨v, l, rfl | rfl | rfl | rfl⟩ | ⟨r, rfl | rfl | rfl | rfl⟩ | rfl | ⟨v, rfl⟩ := hi
  · obtain ⟨serving, rfl⟩ := exec_getUrl.1 h; exact exec_getUrl.2 ⟨serving, rfl⟩
  · obtain ⟨serving, rfl⟩ := exec_getMsosDesc.1 h; exact exec_getMsosDesc.2 ⟨serving, rfl⟩
  · exact setAltEnum_withTransfer x y n h
  · exact canCommit_withTransfer x y n (.inr ⟨v, l, rfl⟩) h
  · obtain ⟨serving, rfl⟩ := exec_cdcDelegateStandard.1 h; exact exec_cdcDelegateStandard.2 ⟨serving, rfl⟩
  · obtain ⟨serving, rfl⟩ := exec_cdcDelegateClass.1 h; exact exec_cdcDelegateClass.2 ⟨serving, rfl⟩
  · obtain ⟨serving, rfl⟩ := exec_cdcDelegateReserved.1 h; exact exec_cdcDelegateReserved.2 ⟨serving, rfl⟩
  · obtain ⟨serving, rfl⟩ := exec_vendorStall.1 h; exact exec_vendorStall.2 ⟨serving, rfl⟩
  · obtain ⟨phase, rfl⟩ := exec_load.1 h; exact exec_load.2 ⟨phase, rfl⟩
  · exact canCommit_withTransfer x y n (.inl ⟨v, rfl⟩) h

end

/-! ### One lemma per step of the engine: each gets the same answer and takes the same branch -/

section
variable {s t : State} (m : Bit) (x : Byte) (p : Bool)

theorem uartRx_withMode {b : Byte} (h : exec (.uartRx b) s = .next t) :
    exec (.uartRx b) (s.withMode m x p) = .next (t.withMode m x p) := by
  obtain ⟨phase, inited, ⟨full, rfl⟩ | ⟨room, tail, rfl⟩⟩ := exec_uartRx.1 h
  · exact exec_uartRx.2 ⟨phase, inited, .inl ⟨full, rfl⟩⟩
  · exact exec_uartRx.2 ⟨phase, inited, .inr ⟨room, tail, rfl⟩⟩

theorem pollS1_withMode (h : exec .pollS1 s = .next t) :
    exec .pollS1 (s.withMode m x p) = .next (t.withMode m x p) := by
  obtain ⟨phase, inited, ⟨full, rfl⟩ | ⟨room, r, s', hd, h⟩⟩ := exec_pollS1.1 h
  · exact exec_pollS1.2 ⟨phase, inited, .inl ⟨full, rfl⟩⟩
  obtain ⟨rfl, rfl⟩ := Ret.ok.inj ((drawUsbRead_eq s).symm.trans hd)
  refine exec_pollS1.2 ⟨phase, inited, .inr ⟨room, _, _, drawUsbRead_eq _, ?_⟩⟩
  obtain ⟨answer, rfl⟩ | ⟨b, answer, tail, rfl⟩ := h
  · exact .inl ⟨answer, rfl⟩
  · exact .inr ⟨b, answer, tail, rfl⟩

theorem pollS2_withMode (h : exec .pollS2 s = .next t) :
    exec .pollS2 (s.withMode m x p) = .next (t.withMode m x p) := by
  obtain ⟨phase, inited, ⟨empty, rfl⟩ | ⟨nonempty, rdy, s', hd, h⟩⟩ := exec_pollS2.1 h
  · exact exec_pollS2.2 ⟨phase, inited, .inl ⟨empty, rfl⟩⟩
  obtain ⟨rfl, rfl⟩ := Ret.ok.inj ((drawUsbReady_eq s).symm.trans hd)
  refine exec_pollS2.2 ⟨phase, inited, .inr ⟨nonempty, _, _, drawUsbReady_eq _, ?_⟩⟩
  obtain ⟨answer, rfl⟩ | ⟨answer, rfl⟩ := h
  · exact .inl ⟨answer, rfl⟩
  · exact .inr ⟨answer, rfl⟩

theorem pollS2l_withMode (h : exec .pollS2l s = .next t) :
    exec .pollS2l (s.withMode m x p) = .next (t.withMode m x p) := by
  obtain ⟨phase, left, inited, nonempty, head, sent, s', hd, h⟩ := exec_pollS2l.1 h
  obtain ⟨rfl, rfl⟩ := Ret.ok.inj ((drawUsbSend_eq s).symm.trans hd)
  refine exec_pollS2l.2 ⟨phase, left, inited, nonempty, head, _, _, drawUsbSend_eq _, ?_⟩
  obtain ⟨answer, rfl⟩ | ⟨answer, rfl⟩ := h
  · exact .inl ⟨answer, rfl⟩
  · exact .inr ⟨answer, rfl⟩

theorem pollS3_withMode (h : exec .pollS3 s = .next t) :
    exec .pollS3 (s.withMode m x p) = .next (t.withMode m x p) := by
  obtain ⟨phase, inited, rdy, s', hd, h⟩ := exec_pollS3.1 h
  obtain ⟨rfl, rfl⟩ := Ret.ok.inj ((drawUartReady_eq s).symm.trans hd)
  refine exec_pollS3.2 ⟨phase, inited, _, _, drawUartReady_eq _, ?_⟩
  obtain ⟨why, rfl⟩ | ⟨nonempty, answer, head, rfl⟩ := h
  · exact .inl ⟨why, rfl⟩
  · exact .inr ⟨nonempty, answer, head, rfl⟩

theorem pollS4_withMode (h : exec .pollS4 s = .next t) :
    exec .pollS4 (s.withMode m x p) = .next (t.withMode m x p) := by
  obtain ⟨phase, rfl⟩ := exec_pollS4.1 h
  exact exec_pollS4.2 ⟨phase, rfl⟩

theorem exec_withMode {i : Instr} (hi : IsTransfer i) (h : exec i s = .next t) :
    exec i (s.withMode m x p) = .next (t.withMode m x p) := by
  simp only [IsTransfer, List.mem_cons, List.not_mem_nil, or_false] at hi
  obtain ⟨b, rfl⟩ | rfl | rfl | rfl | rfl | rfl := hi
  · exact uartRx_withMode m x p h
  · exact pollS1_withMode m x p h
  · exact pollS2_withMode m x p h
  · exact pollS2l_withMode m x p h
  · exact pollS3_withMode m x p h
  · exact pollS4_withMode m x p h

end

/-- Settles O41: a step that answers the same whatever the registers are replaced by leaves them, since they may be
replaced by what they already are. -/
theorem halvesAreIndependent : Obligations.HalvesAreIndependent := by
  refine ⟨fun i s t x y n hi h => ?modeOrControl, fun i s t m x p hi h => ?transfer⟩
  case modeOrControl =>
    have hkept : t = t.withTransfer s.h2d s.d2h s.nLeft :=
      Host.Outcome.next.inj (h.symm.trans (exec_withTransfer _ _ _ hi h))
    exact ⟨(congrArg State.h2d hkept).trans rfl, (congrArg State.d2h hkept).trans rfl,
      (congrArg State.nLeft hkept).trans rfl, exec_withTransfer x y n hi h⟩
  case transfer =>
    have hkept : t = t.withMode s.modeLive s.nv s.resetPending :=
      Host.Outcome.next.inj (h.symm.trans (exec_withMode _ _ _ hi h))
    exact ⟨(congrArg State.modeLive hkept).trans rfl, (congrArg State.nv hkept).trans rfl,
      (congrArg State.resetPending hkept).trans rfl, exec_withMode m x p hi h⟩

end Sys2Proof.Machine
end

section
/-! PROOFS. The streams of R107 (O58): whatever a step records to have come into a buffer or gone out of it, the buffer
has taken or given (`Passage`), and such steps keep the streams in order. -/

namespace Sys2Proof.Machine

open Sys2Proof

/-! ## The record of one boot -/

/-- RESET starts the record of a boot afresh (R179). -/
theorem sinceReset_reset (log : List Record) : sinceReset (log ++ [.event .reset]) = [] := by
  simp [sinceReset]

/-- Any other record goes to its end. -/
theorem sinceReset_append {rs : List Record} (hrs : .event .reset ∉ rs) (log : List Record) :
    sinceReset (log ++ rs) = sinceReset log ++ rs := by
  induction rs generalizing log with
  | nil => simp
  | cons r rs ih =>
    rw [List.mem_cons, not_or] at hrs
    obtain ⟨hr, hrest⟩ := hrs
    rw [List.append_cons, ih hrest, List.append_cons (sinceReset log)]
    congr 1
    simp [sinceReset, Ne.symm hr]

/-! ## The stream through one buffer (R107) -/

/-- The byte a record shows to have come into buffer `f`. -/
def cameIn : BufId → Record → Option Byte
  | .h2d => usbReadByte?
  | .d2h => acceptedRxByte?

/-- The byte a record shows to have gone out of buffer `f`. -/
def wentOut : BufId → Record → Option Byte
  | .h2d => uartTxByte?
  | .d2h => usbInByte?

/-- R107 for buffer `f`: what has come in is what has gone out followed by what it holds; before INIT, nothing has. -/
structure State.Stream (s : State) (f : BufId) : Prop where
  ordered : (s.buf f).inited = true → s.bytesOf (cameIn f) = s.bytesOf (wentOut f) ++ s.contents f
  fresh : (s.buf f).inited = false → s.bytesOf (cameIn f) = [] ∧ s.bytesOf (wentOut f) = []

theorem streams_iff {s : State} : s.Streams ↔ ∀ f, s.Stream f := by
  constructor
  · intro h f
    cases f with
    | h2d => exact ⟨h.h2d, h.h2d_fresh⟩
    | d2h => exact ⟨h.d2h, h.d2h_fresh⟩
  · exact fun h => ⟨(h .h2d).ordered, (h .h2d).fresh, (h .d2h).ordered, (h .d2h).fresh⟩

/-- What a step from `s` lets into buffer `f` and out of it, and how it leaves the buffer: the bytes a step records are
those the buffer takes and gives. -/
inductive Flow (s : State) (f : BufId) : (came went : List Byte) → Buf → Prop
  | keep : Flow s f [] [] (s.buf f)
  | init (fresh : (s.buf f).inited = false) : Flow s f [] [] ((s.afterInit f).buf f)
  | insert (b : Byte) (inited : (s.buf f).inited = true) (room : s.full f = false) :
      Flow s f [b] [] ((s.afterInsert f b).buf f)
  | remove (inited : (s.buf f).inited = true) (nonempty : s.empty f = false) :
      Flow s f [] [s.cell f (s.buf f).head] ((s.afterRemove f).buf f)

section
variable {s t : State} {f : BufId} {came went : List Byte} {b : Buf}

/-- What an initialised buffer held and has taken is what it has given and holds. -/
theorem Flow.balance (h : Flow s f came went b) (hb : t.buf f = b) (hparams : t.params = s.params)
    (hresets : t.resets = s.resets) (hok : (s.buf f).Ok (s.params.cap f)) (hi : (s.buf f).inited = true) :
    s.contents f ++ came = went ++ t.contents f := by
  cases h with
  | keep => rw [contents_congr hb hparams hresets, List.append_nil, List.nil_append]
  | init fresh => exact absurd (fresh.symm.trans hi) nofun
  | insert c _ room =>
    rw [contents_congr hb (hparams.trans (afterInsert_params s f c).symm)
        (hresets.trans (afterInsert_resets s f c).symm),
      contents_afterInsert c hok hi ((full_eq_false hok hi).1 room), List.nil_append]
  | remove _ nonempty =>
    rw [contents_congr hb (hparams.trans (afterRemove_params s f).symm)
        (hresets.trans (afterRemove_resets s f).symm),
      contents_of_nonempty hok hi nonempty, List.append_nil, List.singleton_append]

/-- Nothing passes a buffer before INIT, and INIT leaves it empty. -/
theorem Flow.of_fresh (h : Flow s f came went b) (hi : (s.buf f).inited = false) :
    came = [] ∧ went = [] ∧ (b.inited = true → b.count = 0) := by
  cases h with
  | keep => exact ⟨rfl, rfl, fun hinited => absurd (hi.symm.trans hinited) nofun⟩
  | init => exact ⟨rfl, rfl, fun _ => by rw [afterInit_buf]⟩
  | insert _ inited => exact absurd (hi.symm.trans inited) nofun
  | remove inited => exact absurd (hi.symm.trans inited) nofun

/-- Only RESET ends a buffer's life. -/
theorem Flow.inited (h : Flow s f came went b) (hi : (s.buf f).inited = true) : b.inited = true := by
  cases h with
  | keep => exact hi
  | init => rw [afterInit_buf]
  | insert => rw [afterInsert_buf]; exact hi
  | remove => rw [afterRemove_buf]; exact hi

end

/-- A step within one boot, whose records are `rs`. -/
structure Passage (s t : State) (rs : List Record) : Prop where
  log : t.log = s.log ++ rs
  sameBoot : .event .reset ∉ rs
  params : t.params = s.params
  resets : t.resets = s.resets
  flow : ∀ f, Flow s f (rs.filterMap (cameIn f)) (rs.filterMap (wentOut f)) (t.buf f)

section
variable {s t : State} {rs : List Record} (h : Passage s t rs)
include h

theorem Passage.bytesOf (kind : Record → Option Byte) : t.bytesOf kind = s.bytesOf kind ++ rs.filterMap kind := by
  rw [State.bytesOf, h.log, sinceReset_append h.sameBoot, List.filterMap_append, State.bytesOf]

theorem Passage.keeps_stream {f : BufId} (hok : (s.buf f).Ok (s.params.cap f)) (hs : s.Stream f) : t.Stream f := by
  have hflow := h.flow f
  cases hi : (s.buf f).inited with
  | true =>
    refine ⟨fun _ => ?_, fun hfresh => absurd (hfresh.symm.trans (hflow.inited hi)) nofun⟩
    rw [h.bytesOf, h.bytesOf, hs.ordered hi, List.append_assoc, hflow.balance rfl h.params h.resets hok hi,
      List.append_assoc]
  | false =>
    obtain ⟨hcame, hwent⟩ := hs.fresh hi
    obtain ⟨hcame', hwent', hempty⟩ := hflow.of_fresh hi
    have hin : t.bytesOf (cameIn f) = [] := by rw [h.bytesOf, hcame, hcame', List.nil_append]
    have hout : t.bytesOf (wentOut f) = [] := by rw [h.bytesOf, hwent, hwent', List.nil_append]
    exact ⟨fun hinited => by rw [hin, hout, contents_eq_nil.2 (hempty hinited), List.nil_append], fun _ => ⟨hin, hout⟩⟩

end

/-! ## Every instruction of the block but RESET is a passage (R95 to R103, R109) -/

/-- A record that begins no boot and carries no byte of either stream. -/
def Record.idle (r : Record) : Bool :=
  r != .event .reset && [BufId.h2d, .d2h].all fun f => (cameIn f r).isNone && (wentOut f r).isNone

theorem not_reset_of_idle {rs : List Record} (h : rs.all Record.idle = true) : .event .reset ∉ rs :=
  fun hmem => absurd (List.all_eq_true.1 h _ hmem) (by decide)

/-- Idle records are of no byte that comes in or goes out. -/
theorem no_bytes_of_idle {rs : List Record} (h : rs.all Record.idle = true) (f : BufId) :
    rs.filterMap (cameIn f) = [] ∧ rs.filterMap (wentOut f) = [] := by
  simp only [List.filterMap_eq_nil_iff, ← forall₂_and]
  intro r hr
  have hidle := List.all_eq_true.1 h r hr
  simp only [Record.idle, List.all_cons, List.all_nil, Bool.and_eq_true, Option.isNone_iff_eq_none] at hidle
  obtain ⟨-, hh2d, hd2h, -⟩ := hidle
  cases f with
  | h2d => exact hh2d
  | d2h => exact hd2h

/-- A step that leaves both buffers as they are and records no byte. -/
theorem passage_of_idle {s t : State} {rs : List Record} (hlog : t.log = s.log ++ rs)
    (hrs : rs.all Record.idle = true)
    (ht : t = { s with
      modeLive := t.modeLive, nv := t.nv, resetPending := t.resetPending, fgPc := t.fgPc, nLeft := t.nLeft,
      answers := t.answers, draws := t.draws, log := t.log }) : ∃ rs, Passage s t rs := by
  refine ⟨rs, hlog, not_reset_of_idle hrs, by rw [ht], by rw [ht], fun f => ?_⟩
  obtain ⟨hcame, hwent⟩ := no_bytes_of_idle hrs f
  rw [hcame, hwent, show t.buf f = s.buf f by rw [ht]; rfl]
  exact .keep

theorem passage_of_uartRx {b : Byte} {s t : State} (h : exec (.uartRx b) s = .next t) : ∃ rs, Passage s t rs := by
  obtain ⟨-, inited, ⟨-, rfl⟩ | ⟨room, -, rfl⟩⟩ := exec_uartRx.1 h
  · exact passage_of_idle rfl rfl rfl
  refine ⟨_, rfl, by simp, rfl, rfl, fun f => ?_⟩
  cases f with
  | h2d => exact .keep
  | d2h => exact .insert (f := .d2h) b inited room

theorem passage_of_boot {s t : State} (h : exec .boot s = .next t) : ∃ rs, Passage s t rs := by
  obtain ⟨-, fresh1, fresh2, rfl⟩ := exec_boot.1 h
  refine ⟨_, (List.append_nil _).symm, List.not_mem_nil, rfl, rfl, fun f => ?_⟩
  cases f with
  | h2d => exact .init (f := .h2d) fresh1
  | d2h => exact .init (f := .d2h) fresh2

theorem passage_of_pollS1 {s t : State} (h : exec .pollS1 s = .next t) : ∃ rs, Passage s t rs := by
  obtain ⟨-, inited, ⟨-, rfl⟩ | ⟨room, r, s', hd, h⟩⟩ := exec_pollS1.1 h
  · exact passage_of_idle (List.append_nil _).symm rfl rfl
  rw [drawUsbRead_frame hd] at h
  obtain ⟨rfl, rfl⟩ | ⟨b, rfl, -, rfl⟩ := h
  · exact passage_of_idle rfl rfl rfl
  refine ⟨_, rfl, by simp, rfl, rfl, fun f => ?_⟩
  cases f with
  | h2d => exact .insert (f := .h2d) b inited room
  | d2h => exact .keep

theorem passage_of_pollS2 {s t : State} (h : exec .pollS2 s = .next t) : ∃ rs, Passage s t rs := by
  obtain ⟨-, -, ⟨-, rfl⟩ | ⟨-, rdy, s', hd, h⟩⟩ := exec_pollS2.1 h
  · exact passage_of_idle (List.append_nil _).symm rfl rfl
  rw [drawUsbReady_frame hd] at h
  obtain ⟨-, rfl⟩ | ⟨-, rfl⟩ := h <;> exact passage_of_idle rfl rfl rfl

theorem passage_of_pollS2l {s t : State} (h : exec .pollS2l s = .next t) : ∃ rs, Passage s t rs := by
  obtain ⟨-, -, inited, nonempty, -, sent, s', hd, h⟩ := exec_pollS2l.1 h
  rw [drawUsbSend_frame hd] at h
  obtain ⟨-, rfl⟩ | ⟨-, rfl⟩ := h
  · exact passage_of_idle rfl rfl rfl
  refine ⟨_, List.append_assoc _ _ _, by simp, rfl, rfl, fun f => ?_⟩
  cases f with
  | h2d => exact .keep
  | d2h => exact .remove (f := .d2h) inited nonempty

theorem passage_of_pollS3 {s t : State} (h : exec .pollS3 s = .next t) : ∃ rs, Passage s t rs := by
  obtain ⟨-, inited, rdy, s', hd, h⟩ := exec_pollS3.1 h
  rw [drawUartReady_frame hd] at h
  obtain ⟨-, rfl⟩ | ⟨nonempty, -, -, rfl⟩ := h
  · exact passage_of_idle rfl rfl rfl
  refine ⟨_, List.append_assoc _ _ _, by simp, rfl, rfl, fun f => ?_⟩
  cases f with
  | h2d => exact .remove (f := .h2d) inited nonempty
  | d2h => exact .keep

theorem passage_of_setAltEnum {v l : BitVec 16} {s t : State} (h : exec (.setAltEnum v l) s = .next t) :
    ∃ rs, Passage s t rs := by
  obtain ⟨-, ⟨-, rfl⟩ | ⟨-, -, rfl⟩ | ⟨-, -, ack, s', hd, rfl⟩⟩ := exec_setAltEnum.1 h
  · exact passage_of_idle rfl rfl rfl
  · exact passage_of_idle rfl rfl rfl
  · rw [drawAltEnumAck_frame hd]
    exact passage_of_idle (List.append_assoc _ _ _) rfl rfl

/-- Every instruction but RESET and the commands at a port passes bytes as its records say. -/
theorem passage_of_exec {s t : State} {i : Instr} (hport : isPortCommand i = false) (hi : i ≠ .reset)
    (h : exec i s = .next t) : ∃ rs, Passage s t rs := by
  cases i with
  | init | tryInsert | tryRemove | peek | count | isFull | isEmpty => cases hport
  | uartRx => exact passage_of_uartRx h
  | boot => exact passage_of_boot h
  | pollS1 => exact passage_of_pollS1 h
  | pollS2 => exact passage_of_pollS2 h
  | pollS2l => exact passage_of_pollS2l h
  | pollS3 => exact passage_of_pollS3 h
  | pollS4 => obtain ⟨-, rfl⟩ := exec_pollS4.1 h; exact passage_of_idle (List.append_nil _).symm rfl rfl
  | load => obtain ⟨-, rfl⟩ := exec_load.1 h; exact passage_of_idle (List.append_nil _).symm rfl rfl
  | setAndCommit =>
    obtain ⟨-, ⟨-, rfl⟩ | ⟨-, rfl⟩⟩ := exec_setAndCommit.1 h
    · exact passage_of_idle (List.append_nil _).symm rfl rfl
    · exact passage_of_idle (commitMode_log _ s) rfl rfl
  | haltWait => exact absurd h exec_haltWait
  | reset => exact absurd rfl hi
  | getUrl => obtain ⟨-, rfl⟩ := exec_getUrl.1 h; exact passage_of_idle rfl rfl rfl
  | getMsosDesc => obtain ⟨-, rfl⟩ := exec_getMsosDesc.1 h; exact passage_of_idle rfl rfl rfl
  | setAltEnum => exact passage_of_setAltEnum h
  | setWebusbEnable =>
    obtain ⟨-, ⟨-, rfl⟩ | ⟨-, rfl⟩⟩ := exec_setWebusbEnable.1 h
    · exact passage_of_idle rfl rfl rfl
    · exact passage_of_idle ((commitMode_log _ _).trans (List.append_assoc _ _ _)) rfl rfl
  | cdcDelegateStandard => obtain ⟨-, rfl⟩ := exec_cdcDelegateStandard.1 h; exact passage_of_idle rfl rfl rfl
  | cdcDelegateClass => obtain ⟨-, rfl⟩ := exec_cdcDelegateClass.1 h; exact passage_of_idle rfl rfl rfl
  | cdcDelegateReserved => obtain ⟨-, rfl⟩ := exec_cdcDelegateReserved.1 h; exact passage_of_idle rfl rfl rfl
  | vendorStall => obtain ⟨-, rfl⟩ := exec_vendorStall.1 h; exact passage_of_idle rfl rfl rfl

/-- RESET begins a boot in which nothing has come in and neither buffer is initialised. -/
theorem resetMachine_stream (s : State) (f : BufId) : (resetMachine s).Stream f := by
  have hnone : ∀ kind, (resetMachine s).bytesOf kind = [] := fun kind => by
    rw [State.bytesOf, resetMachine_log, sinceReset_reset, List.filterMap_nil]
  exact ⟨fun hi => absurd ((resetMachine_inited s f).symm.trans hi) nofun, fun _ => ⟨hnone _, hnone _⟩⟩

theorem exec_keeps_stream {s t : State} {i : Instr} (hs : s.Inv) (hport : isPortCommand i = false)
    (h : exec i s = .next t) {f : BufId} (hstream : s.Stream f) : t.Stream f := by
  by_cases hi : i = .reset
  case pos =>
    subst hi
    obtain rfl := exec_reset.1 h
    exact resetMachine_stream s f
  case neg =>
    obtain ⟨rs, hpassage⟩ := passage_of_exec hport hi h
    exact hpassage.keeps_stream (hs.bufs f) hstream

theorem stream_nextStimulus {s : State} {f : BufId} (hs : s.Stream f) : (nextStimulus s).2.Stream f := by
  obtain ⟨_, _, _, h⟩ := nextStimulus_snd s
  rw [h]
  exact ⟨hs.ordered, hs.fresh⟩

/-- Settles O58: a step takes a stimulus, which the record does not show, and then changes nothing (the timer), begins a
boot (RESET), or passes bytes as its records say. -/
theorem stepKeepsStreams : Obligations.StepKeepsStreams := by
  intro s t hs hstreams hforeign h
  rw [streams_iff] at hstreams ⊢
  intro f
  have hnext := stream_nextStimulus (hstreams f)
  obtain rfl | ⟨i, hi, hport⟩ := step_cases h
  · exact hnext
  · exact exec_keeps_stream (inv_nextStimulus hs) (hport hforeign) hi hnext

end Sys2Proof.Machine
end

section
/-! PROOFS. The mode, the terminal wait and the reset (42_mode_state.md, R112 to R119): each operation's whole next state
(O26 to O30), what stays while a reset is in flight (O31), and the boot that follows a commit (O33). -/

namespace Sys2Proof.Machine

open Sys2Proof

/-! ## LOAD, SET_AND_COMMIT and HALT_WAIT -/

/-- With the transport up, the five running phases serve (R113, R139). -/
theorem serving_of_phase {s : State} (hpending : s.resetPending = false)
    (hphase : s.fgPc ∈ [Phase.s1, .s2, .s2l, .s3, .s4]) : s.serving = true :=
  serving_iff.2 ⟨hpending, fun h => by simp [h] at hphase, fun h => by simp [h] at hphase⟩

/-- Settles O26. -/
theorem loadResult : Obligations.LoadResult := fun _ hphase => exec_load.2 ⟨hphase, rfl⟩

/-- Settles O27: the branch of `exec_setAndCommit` for the current mode. -/
theorem commitSameModeIsNoOp : Obligations.CommitSameModeIsNoOp := fun _ hpending hphase =>
  exec_setAndCommit.2 ⟨serving_of_phase hpending hphase, .inl ⟨rfl, rfl⟩⟩

/-- Settles O28: the branch of `exec_setAndCommit` for the other mode; `commitMode_log` gives the events in order. -/
theorem commitChangedMode : Obligations.CommitChangedMode := by
  intro v s hpending hphase hv
  refine exec_setAndCommit.2 ⟨serving_of_phase hpending hphase, .inr ⟨hv, ?_⟩⟩
  rw [← commitMode_log]
  rfl

/-- Settles O29: HALT_WAIT refuses in either case, so the case can be taken inside the refusal. -/
theorem haltWaitIsNeverEnabled : Obligations.HaltWaitIsNeverEnabled := fun _ =>
  (apply_ite Host.Outcome.refused _ _ _).symm

/-! ## RESET (R33, R118) -/

/-- Every register that RESET leaves unspecified gets a value of its width (R14, R33). -/
theorem resetMachine_fitsWidths (s : State) : (resetMachine s).FitsWidths := by
  refine ⟨fun f => ?_, Nat.mod_lt _ (Nat.two_pow_pos _)⟩
  rw [resetMachine_head, resetMachine_tail, resetMachine_count]
  exact ⟨Nat.mod_lt _ (Nat.two_pow_pos _), Nat.mod_lt _ (Nat.two_pow_pos _), Nat.mod_lt _ (Nat.two_pow_pos _)⟩

/-- After RESET nothing is written, so every cell is the free value of the new boot (R35). -/
theorem resetMachine_cell (s : State) (f : BufId) (a : Nat) :
    (resetMachine s).cell f a = Config.unwrittenCell (resetMachine s).resets f a := by
  rw [State.cell, resetMachine_mem]
  rfl

/-- Settles O30: the next state is `resetMachine s`, whose registers and cells the laws above give. -/
theorem resetResult : Obligations.ResetResult := fun s =>
  ⟨resetMachine s, exec_reset.2 rfl, rfl, rfl, resetMachine_inited s, rfl, emit_trace s .reset, rfl,
    resetMachine_fitsWidths s, rfl,
    fun f => ⟨resetMachine_head s f, resetMachine_tail s f, resetMachine_count s f, resetMachine_cell s f⟩, rfl, rfl⟩

/-! ## A reset in flight (R57, R117, R119) -/

theorem serving_eq_false_of_resetPending {s : State} (h : s.resetPending = true) : s.serving = false := by
  simp [State.serving, h]

theorem setAndCommit_of_not_serving {s : State} (h : s.serving = false) (v : Bit) :
    setAndCommit v s = .refused .notEnabled := by
  simp [setAndCommit, h]

theorem whenServing_of_not_serving {s : State} (h : s.serving = false) (k : Ret Unit) :
    whenServing s k = .refused .notEnabled := by
  simp [whenServing, h]

/-- Whichever row of the table a request is, its flow is not enabled unless the block serves requests (R139). -/
theorem exec_classify_of_not_serving {s : State} (h : s.serving = false) (p : Params) (r : CtrlReq) :
    exec (classify p r) s = .refused .notEnabled := by
  unfold classify
  split_ifs <;> exact congrArg Ret.finish (whenServing_of_not_serving h _)

/-- In `HALT` only RESET writes the mode, phase and burst registers: every other step that does runs in another phase. -/
theorem ControlStep.eq_of_halt {s : State} {i : Instr} {c : Control} (h : ControlStep s i c) (hs : s.fgPc = .halt)
    (hi : i ≠ .reset) : c = s.control := by
  cases h with
  | keep => rfl
  | load phase | boot phase | pollS1 phase | noBurst phase | burst phase | sendFails phase | sent phase
  | pollS3 phase | pollS4 phase => exact absurd (phase.symm.trans hs) nofun
  | commit operation serving =>
    obtain ⟨-, -, notHalt⟩ := serving_iff.1 serving
    exact absurd hs notHalt
  | reset => exact absurd rfl hi

/-- Settles O31: a reset in flight means `HALT` (R30), where the block serves nothing and only RESET writes the
registers. -/
theorem committedResetIsNotCancellable : Obligations.CommittedResetIsNotCancellable := by
  intro s t hs hpending
  have hserving := serving_eq_false_of_resetPending hpending
  have hhalt := hs.halted.1 hpending
  refine ⟨fun v => congrArg Ret.finish (setAndCommit_of_not_serving hserving v),
    fun w => exec_classify_of_not_serving hserving s.params (unpackReq w), fun i hi h => ?_⟩
  obtain ⟨-, control, -⟩ := effect_of_exec h
  have hkept := control.eq_of_halt hhalt hi
  exact ⟨congrArg Control.nv hkept, congrArg Control.modeLive hkept,
    (congrArg Control.resetPending hkept).trans hpending, (congrArg Control.fgPc hkept).trans hhalt⟩

/-! ## The boot after a RESET (R96, R118) -/

/-- From any state, RESET and BOOT give a running machine, its buffers empty, in the mode that `nv` holds. -/
theorem boot_of_resetMachine (s : State) : ∃ t, exec .boot (resetMachine s) = .next t ∧
    t.modeLive = nvMode s.nv ∧ t.fgPc = .s1 ∧ t.resetPending = false ∧ ∀ f, t.contents f = [] := by
  refine ⟨_, exec_boot.2 ⟨rfl, rfl, rfl, rfl⟩, rfl, rfl, rfl, fun f => contents_eq_nil.2 ?_⟩
  cases f <;> rfl

/-- Settles O33: `nv` carries the committed mode through the RESET to the BOOT. -/
theorem rebootInCommittedMode : Obligations.RebootInCommittedMode := by
  intro v s hpending hphase hv
  obtain ⟨c, hboot, hmode, hrunning⟩ := boot_of_resetMachine (commitMode v s)
  exact ⟨commitMode v s, resetMachine (commitMode v s), c,
    exec_setAndCommit.2 ⟨serving_of_phase hpending hphase, .inr ⟨hv, rfl⟩⟩, exec_reset.2 rfl, hboot,
    hmode.trans (nvMode_nvByte v), hrunning⟩

end Sys2Proof.Machine
end

section
/-! PROOFS. The control requests (43_control_dispatch.md): which operation each request is (R73), the outcome of each flow
(O34 to O38), the dispatcher as the table of R125 (O39), and the fields that no flow examines (O40). -/

namespace Sys2Proof.Machine

open Sys2Proof

/-! ## The flows one by one: each whole next state is the flow's `exec_` law -/

/-- Settles O34. -/
theorem getUrlResult : Obligations.GetUrlResult := fun _ _ _ hpending hphase =>
  exec_getUrl.2 ⟨serving_of_phase hpending hphase, rfl⟩

/-- Settles O35. -/
theorem getMsosDescResult : Obligations.GetMsosDescResult := fun _ _ _ hpending hphase =>
  exec_getMsosDesc.2 ⟨serving_of_phase hpending hphase, rfl⟩

/-- Settles O36: the three branches of `exec_setAltEnum`. -/
theorem setAltEnumResult : Obligations.SetAltEnumResult := by
  intro value length s hpending hphase
  have serving := serving_of_phase hpending hphase
  exact ⟨fun other => exec_setAltEnum.2 ⟨serving, .inl ⟨other, rfl⟩⟩,
    fun code fixed => exec_setAltEnum.2 ⟨serving, .inr (.inl ⟨code, fixed, rfl⟩)⟩,
    fun code drawn ack s' hd => exec_setAltEnum.2 ⟨serving, .inr (.inr ⟨code, drawn, ack, s', hd, rfl⟩)⟩⟩

/-- A commit right after an event: the event comes first in the record (R115, R130). -/
theorem commitMode_emit (v : Bit) (e : Event) (s : State) : commitMode v (s.emit e) = { s with
    modeLive := v, nv := v.zeroExtend 8, resetPending := true, fgPc := .halt,
    log := s.log ++ [.event e, .event (.nvWrite v), .event .shutdown, .event .wdtArm] } := by
  rw [List.append_cons, ← emit_log, ← commitMode_log]
  rfl

/-- Settles O37: the two branches of `exec_setWebusbEnable`. -/
theorem setWebusbEnableResult : Obligations.SetWebusbEnableResult := by
  intro value length s hpending hphase
  refine exec_setWebusbEnable.2 ⟨serving_of_phase hpending hphase, ?_⟩
  by_cases same : value.extractLsb' 0 1 = s.modeLive
  · exact .inl ⟨same, if_pos same⟩
  · exact .inr ⟨same, (if_neg same).trans (commitMode_emit _ _ s).symm⟩

/-- Settles O38. -/
theorem delegateAndStallResults : Obligations.DelegateAndStallResults := by
  intro r s hpending hphase
  have serving := serving_of_phase hpending hphase
  exact ⟨exec_cdcDelegateStandard.2 ⟨serving, rfl⟩, exec_cdcDelegateClass.2 ⟨serving, rfl⟩,
    exec_cdcDelegateReserved.2 ⟨serving, rfl⟩, exec_vendorStall.2 ⟨serving, rfl⟩⟩

/-! ## Which operation a request is (R73, R74) -/

/-- Each control operation with the requests that stand for it (R127 to R131, R136). -/
inductive Dispatched (p : Params) : CtrlReq → Instr → Prop where
  | cdcDelegateStandard (b : CtrlBody) : Dispatched p (b.withType 0#2) (.cdcDelegateStandard b)
  | cdcDelegateClass (b : CtrlBody) : Dispatched p (b.withType 1#2) (.cdcDelegateClass b)
  | cdcDelegateReserved (b : CtrlBody) : Dispatched p (b.withType 3#2) (.cdcDelegateReserved b)
  | getUrl (v l : BitVec 16) : Dispatched p (getUrlReq p v l) (.getUrl v l)
  | getMsosDesc (v l : BitVec 16) : Dispatched p (getMsosDescReq p v l) (.getMsosDesc v l)
  | setAltEnum (v l : BitVec 16) : Dispatched p (setAltEnumReq p v l) (.setAltEnum v l)
  | setWebusbEnable (v l : BitVec 16) : Dispatched p (setWebusbEnableReq p v l) (.setWebusbEnable v l)
  | vendorStall (b : CtrlBody) (h : WellFormed p (.vendorStall b) = true) :
      Dispatched p (b.withType 2#2) (.vendorStall b)

theorem typ_eq_vendor {t : BitVec 2} (h0 : t ≠ 0#2) (h1 : t ≠ 1#2) (h3 : t ≠ 3#2) : t = 2#2 := by
  revert t; decide

/-- Every request stands for the operation it is classified as. -/
theorem dispatched_classify (p : Params) (r : CtrlReq) : Dispatched p r (classify p r) := by
  have hwf := wellFormed_classify p r
  obtain ⟨dir, typ, rcpt, code, value, index, length⟩ := r
  unfold classify at hwf ⊢
  split_ifs at hwf ⊢ with h0 h1 h3 hUrl hDesc hAlt hEnable
  · obtain rfl := h0; exact .cdcDelegateStandard ⟨dir, rcpt, code, value, index, length⟩
  · obtain rfl := h1; exact .cdcDelegateClass ⟨dir, rcpt, code, value, index, length⟩
  · obtain rfl := h3; exact .cdcDelegateReserved ⟨dir, rcpt, code, value, index, length⟩
  all_goals obtain rfl := typ_eq_vendor h0 h1 h3
  · obtain ⟨rfl, rfl, rfl, rfl⟩ := hUrl; exact .getUrl value length
  · obtain ⟨rfl, rfl, rfl, rfl⟩ := hDesc; exact .getMsosDesc value length
  · obtain ⟨rfl, rfl, rfl, rfl⟩ := hAlt; exact .setAltEnum value length
  · obtain ⟨rfl, rfl, rfl, rfl⟩ := hEnable; exact .setWebusbEnable value length
  · exact .vendorStall _ hwf

/-- The rows exclude each other: the codes of R8 differ, the two descriptor indices differ, and VENDOR_STALL stands for
none of the four flows. -/
theorem Dispatched.classify_eq {p : Params} {r : CtrlReq} {i : Instr} (hp : p.Valid) (h : Dispatched p r i) :
    classify p r = i := by
  obtain ⟨-, -, -, codes, indices⟩ := hp
  cases h with
  | cdcDelegateStandard | cdcDelegateClass | cdcDelegateReserved => rfl
  | getUrl => simp [classify, getUrlReq]
  | getMsosDesc => simp [classify, getMsosDescReq, codes.symm]
  | setAltEnum => simp [classify, setAltEnumReq, codes.symm, indices.symm]
  | setWebusbEnable => simp [classify, setWebusbEnableReq]
  | vendorStall b h =>
    rw [wellFormed_vendorStall_iff, hitsGetUrl_iff, hitsGetMsosDesc_iff, hitsSetAltEnum_iff,
      hitsSetWebusbEnable_iff] at h
    obtain ⟨notUrl, notDesc, notAlt, notEnable⟩ := h
    exact (if_neg notUrl).trans ((if_neg notDesc).trans ((if_neg notAlt).trans (if_neg notEnable)))

/-! ## The rows of the table (R125) -/

section
variable {p : Params} (mode : Bit) (v l : BitVec 16)

theorem tableOutcome_of_not_vendor {r : CtrlReq} (h : r.typ ≠ 2#2) : tableOutcome p mode r = some .delegateCdc := by
  simp [tableOutcome, dispatchTable, h]

theorem tableOutcome_getUrl : tableOutcome p mode (getUrlReq p v l) =
    some (if v = p.landingPage then .payload .urlDesc else .stall) := by
  by_cases landing : v = p.landingPage <;> simp [tableOutcome, dispatchTable, getUrlReq, landing]

theorem tableOutcome_getMsosDesc (codes : p.webusbCode ≠ p.msosCode) :
    tableOutcome p mode (getMsosDescReq p v l) = some (.payload (if mode = 1#1 then .msosReduced else .msosFull)) := by
  simp [tableOutcome, dispatchTable, getMsosDescReq, codes.symm, apply_ite CtrlOutcome.payload]

theorem tableOutcome_setAltEnum (codes : p.webusbCode ≠ p.msosCode) (indices : p.idxMsosDesc ≠ p.idxAltEnum) :
    tableOutcome p mode (setAltEnumReq p v l) = some (if v.extractLsb' 8 8 = p.altEnumCode then .ack else .stall) := by
  by_cases code : v.extractLsb' 8 8 = p.altEnumCode <;>
    simp [tableOutcome, dispatchTable, setAltEnumReq, codes.symm, indices.symm, code]

theorem tableOutcome_setWebusbEnable : tableOutcome p mode (setWebusbEnableReq p v l) = some .ack := by
  simp [tableOutcome, dispatchTable, setWebusbEnableReq]

theorem tableOutcome_vendorStall {b : CtrlBody} (h : WellFormed p (.vendorStall b) = true) :
    tableOutcome p mode (b.withType 2#2) = some .stall := by
  simp only [wellFormed_vendorStall_iff, CtrlBody.hitsGetUrl, CtrlBody.hitsGetMsosDesc, CtrlBody.hitsSetAltEnum,
    CtrlBody.hitsSetWebusbEnable, Bool.not_eq_true] at h
  obtain ⟨notUrl, notDesc, notAlt, notEnable⟩ := h
  have vendor : (2#2 == 2) = true := rfl
  simp only [tableOutcome, dispatchTable, CtrlBody.withType, List.find?_cons, vendor, Bool.true_and, notUrl, notDesc,
    notAlt, notEnable, Bool.false_and]
  rfl

end

/-! ## The dispatcher is the table (R125) -/

/-- A request of row 7 for the other mode: the one kind whose dispatch also commits (R130). -/
abbrev AsksToCommit (p : Params) (mode : Bit) (r : CtrlReq) : Prop :=
  r.typ = 2#2 ∧ r.dir = 0#1 ∧ r.rcpt = 0#5 ∧ r.code = p.webusbCode ∧ r.index = p.idxEnable ∧
    r.value.extractLsb' 0 1 ≠ mode

/-- The block after `r` is concluded with `o`: the event, and after it the commit if `r` asks for one (R115, R123). -/
def State.afterDispatch (s : State) (r : CtrlReq) (o : CtrlOutcome) : State :=
  if AsksToCommit s.params s.modeLive r then { s with
    modeLive := r.value.extractLsb' 0 1, nv := (r.value.extractLsb' 0 1).zeroExtend 8, resetPending := true,
    fgPc := .halt,
    log := s.log ++ [.event (.ctrl r o), .event (.nvWrite (r.value.extractLsb' 0 1)), .event .shutdown,
      .event .wdtArm] }
  else s.emit (.ctrl r o)

/-- An operation does what the table says of a request: the outcome of its row, and nothing but `afterDispatch`. -/
def FollowsTable (s : State) (r : CtrlReq) (i : Instr) : Prop :=
  ∃ o, tableOutcome s.params s.modeLive r = some o ∧ exec i s = .next (s.afterDispatch r o)

section
variable {s : State}

theorem followsTable_of_emit {r : CtrlReq} {i : Instr} {o : CtrlOutcome} (hr : ¬AsksToCommit s.params s.modeLive r)
    (ho : tableOutcome s.params s.modeLive r = some o) (h : exec i s = .next (s.emit (.ctrl r o))) :
    FollowsTable s r i :=
  ⟨o, ho, h.trans (congrArg _ (if_neg hr).symm)⟩

theorem followsTable_setWebusbEnable (hpending : s.resetPending = false)
    (hphase : s.fgPc ∈ [Phase.s1, .s2, .s2l, .s3, .s4]) (v l : BitVec 16) :
    FollowsTable s (setWebusbEnableReq s.params v l) (.setWebusbEnable v l) := by
  refine ⟨.ack, tableOutcome_setWebusbEnable _ v l, (setWebusbEnableResult v l s hpending hphase).trans (congrArg _ ?_)⟩
  by_cases same : v.extractLsb' 0 1 = s.modeLive
  · exact (if_pos same).trans (if_neg fun ⟨_, _, _, _, _, changed⟩ => changed same).symm
  · exact (if_neg same).trans (if_pos ⟨rfl, rfl, rfl, rfl, rfl, same⟩).symm

/-- With no draw in SET_ALT_ENUM, each control operation follows the table for the requests that stand for it. -/
theorem Dispatched.followsTable {r : CtrlReq} {i : Instr} (h : Dispatched s.params r i) (hp : s.params.Valid)
    (hfixed : s.params.altEnumFallthrough = false) (hpending : s.resetPending = false)
    (hphase : s.fgPc ∈ [Phase.s1, .s2, .s2l, .s3, .s4]) : FollowsTable s r i := by
  obtain ⟨-, -, -, codes, indices⟩ := hp
  cases h with
  | cdcDelegateStandard b =>
    obtain ⟨standardRow, -⟩ := delegateAndStallResults b s hpending hphase
    exact followsTable_of_emit nofun (tableOutcome_of_not_vendor _ nofun) standardRow
  | cdcDelegateClass b =>
    obtain ⟨-, classRow, -⟩ := delegateAndStallResults b s hpending hphase
    exact followsTable_of_emit nofun (tableOutcome_of_not_vendor _ nofun) classRow
  | cdcDelegateReserved b =>
    obtain ⟨-, -, reservedRow, -⟩ := delegateAndStallResults b s hpending hphase
    exact followsTable_of_emit nofun (tableOutcome_of_not_vendor _ nofun) reservedRow
  | getUrl v l =>
    exact followsTable_of_emit nofun (tableOutcome_getUrl _ v l) (getUrlResult v l s hpending hphase)
  | getMsosDesc v l =>
    exact followsTable_of_emit nofun (tableOutcome_getMsosDesc _ v l codes) (getMsosDescResult v l s hpending hphase)
  | setAltEnum v l =>
    obtain ⟨other, matching, -⟩ := setAltEnumResult v l s hpending hphase
    refine followsTable_of_emit nofun (tableOutcome_setAltEnum _ v l codes indices) ?_
    split_ifs with code
    · exact matching code hfixed
    · exact other code
  | setWebusbEnable v l => exact followsTable_setWebusbEnable hpending hphase v l
  | vendorStall b hb =>
    obtain ⟨-, -, -, stall⟩ := delegateAndStallResults b s hpending hphase
    refine followsTable_of_emit (fun ⟨_, dir, rcpt, code, index, _⟩ => ?_) (tableOutcome_vendorStall _ hb) stall
    obtain ⟨-, -, -, notEnable⟩ := wellFormed_vendorStall_iff.1 hb
    exact notEnable (hitsSetWebusbEnable_iff.2 ⟨dir, rcpt, code, index⟩)

end

/-- Settles O39: what a SETUP word runs is the operation its request is classified as. -/
theorem dispatcherImplementsTable : Obligations.DispatcherImplementsTable := by
  rintro w s _ rfl hp hfixed hpending hphase
  exact (dispatched_classify s.params (unpackReq w)).followsTable hp hfixed hpending hphase

/-! ## The fields that no flow examines (R72, R135) -/

/-- The value `v` in place of that of `r` differs only in bits that the flow of `r` does not examine (R72). -/
def ValueAlike (p : Params) (r : CtrlReq) (v : BitVec 16) : Prop :=
  v = r.value ∨ (r.code = p.msosCode ∧ r.index = p.idxAltEnum ∧ v.extractLsb' 8 8 = r.value.extractLsb' 8 8) ∨
    (r.code = p.msosCode ∧ r.index = p.idxMsosDesc) ∨ (r.dir = 0#1 ∧ v.extractLsb' 0 1 = r.value.extractLsb' 0 1)

/-- The operations `i` for `r` and `i'` for `r'` complete alike but for the request in the one event. -/
def ServedAlike (s : State) (r r' : CtrlReq) (i i' : Instr) : Prop :=
  ∃ pre more o t, exec i s = .next t ∧ t.log = pre ++ .event (.ctrl r o) :: more ∧
    exec i' s = .next { t with log := pre ++ .event (.ctrl r' o) :: more }

section
variable {s : State} {r r' : CtrlReq} {i i' : Instr} {o : CtrlOutcome}

/-- Both end with the event, after whatever they drew. -/
theorem servedAlike_of_emit {q : State} (h : exec i s = .next (q.emit (.ctrl r o)))
    (h' : exec i' s = .next (q.emit (.ctrl r' o))) : ServedAlike s r r' i i' :=
  ⟨q.log, [], o, _, h, rfl, h'⟩

/-- Both commit the same mode after the event. -/
theorem servedAlike_of_commit {v : Bit} (h : exec i s = .next (commitMode v (s.emit (.ctrl r o))))
    (h' : exec i' s = .next (commitMode v (s.emit (.ctrl r' o)))) : ServedAlike s r r' i i' := by
  rw [commitMode_emit] at h h'
  exact ⟨s.log, [.event (.nvWrite v), .event .shutdown, .event .wdtArm], o, _, h, rfl, h'⟩

end

section
variable {s : State} (serving : s.serving = true) (l l' : BitVec 16) {v v' : BitVec 16}
include serving

theorem setAltEnum_alike (hv : altCode v' = altCode v) :
    ServedAlike s (setAltEnumReq s.params v l) (setAltEnumReq s.params v' l') (.setAltEnum v l) (.setAltEnum v' l') := by
  by_cases code : altCode v = s.params.altEnumCode
  · cases drawn : s.params.altEnumFallthrough with
    | false =>
      exact servedAlike_of_emit (exec_setAltEnum.2 ⟨serving, .inr (.inl ⟨code, drawn, rfl⟩)⟩)
        (exec_setAltEnum.2 ⟨serving, .inr (.inl ⟨hv.trans code, drawn, rfl⟩)⟩)
    | true =>
      exact servedAlike_of_emit
        (exec_setAltEnum.2 ⟨serving, .inr (.inr ⟨code, drawn, _, _, drawAltEnumAck_eq s, rfl⟩)⟩)
        (exec_setAltEnum.2 ⟨serving, .inr (.inr ⟨hv.trans code, drawn, _, _, drawAltEnumAck_eq s, rfl⟩)⟩)
  · exact servedAlike_of_emit (exec_setAltEnum.2 ⟨serving, .inl ⟨code, rfl⟩⟩)
      (exec_setAltEnum.2 ⟨serving, .inl ⟨hv ▸ code, rfl⟩⟩)

theorem setWebusbEnable_alike (hv : desiredMode v' = desiredMode v) :
    ServedAlike s (setWebusbEnableReq s.params v l) (setWebusbEnableReq s.params v' l') (.setWebusbEnable v l)
      (.setWebusbEnable v' l') := by
  by_cases same : desiredMode v = s.modeLive
  · exact servedAlike_of_emit (exec_setWebusbEnable.2 ⟨serving, .inl ⟨same, rfl⟩⟩)
      (exec_setWebusbEnable.2 ⟨serving, .inl ⟨hv.trans same, rfl⟩⟩)
  · exact servedAlike_of_commit (exec_setWebusbEnable.2 ⟨serving, .inr ⟨same, rfl⟩⟩)
      (exec_setWebusbEnable.2 ⟨serving, .inr ⟨hv ▸ same, by rw [hv]⟩⟩)

/-- Another `length`, and a `value` that differs in unexamined bits, give the same operation with other operands, which
is served alike. -/
theorem Dispatched.servedAlike {r : CtrlReq} {i : Instr} (h : Dispatched s.params r i) (hp : s.params.Valid)
    (hv : ValueAlike s.params r v') : ∃ i', Dispatched s.params { r with value := v', length := l' } i' ∧
      ServedAlike s r { r with value := v', length := l' } i i' := by
  obtain ⟨-, -, -, codes, indices⟩ := hp
  cases h with
  | cdcDelegateStandard b =>
    exact ⟨_, .cdcDelegateStandard { b with value := v', length := l' }, servedAlike_of_emit
      (exec_cdcDelegateStandard.2 ⟨serving, rfl⟩) (exec_cdcDelegateStandard.2 ⟨serving, rfl⟩)⟩
  | cdcDelegateClass b =>
    exact ⟨_, .cdcDelegateClass { b with value := v', length := l' }, servedAlike_of_emit
      (exec_cdcDelegateClass.2 ⟨serving, rfl⟩) (exec_cdcDelegateClass.2 ⟨serving, rfl⟩)⟩
  | cdcDelegateReserved b =>
    exact ⟨_, .cdcDelegateReserved { b with value := v', length := l' }, servedAlike_of_emit
      (exec_cdcDelegateReserved.2 ⟨serving, rfl⟩) (exec_cdcDelegateReserved.2 ⟨serving, rfl⟩)⟩
  | getUrl v l =>
    have same : v' = v := by
      obtain same | ⟨code, -⟩ | ⟨code, -⟩ | ⟨dir, -⟩ := hv
      · exact same
      · exact absurd code codes
      · exact absurd code codes
      · exact absurd dir nofun
    subst same
    exact ⟨_, .getUrl v' l', servedAlike_of_emit (exec_getUrl.2 ⟨serving, rfl⟩) (exec_getUrl.2 ⟨serving, rfl⟩)⟩
  | getMsosDesc v l =>
    exact ⟨_, .getMsosDesc v' l', servedAlike_of_emit (exec_getMsosDesc.2 ⟨serving, rfl⟩)
      (exec_getMsosDesc.2 ⟨serving, rfl⟩)⟩
  | setAltEnum v l =>
    have same : altCode v' = altCode v := by
      obtain same | ⟨-, -, same⟩ | ⟨-, index⟩ | ⟨dir, -⟩ := hv
      · exact congrArg altCode same
      · exact same
      · exact absurd index.symm indices
      · exact absurd dir nofun
    exact ⟨_, .setAltEnum v' l', setAltEnum_alike serving l l' same⟩
  | setWebusbEnable v l =>
    have same : desiredMode v' = desiredMode v := by
      obtain same | ⟨code, -⟩ | ⟨code, -⟩ | ⟨-, same⟩ := hv
      · exact congrArg desiredMode same
      · exact absurd code codes
      · exact absurd code codes
      · exact same
    exact ⟨_, .setWebusbEnable v' l', setWebusbEnable_alike serving l l' same⟩
  | vendorStall b hb =>
    exact ⟨_, .vendorStall { b with value := v', length := l' } hb, servedAlike_of_emit
      (exec_vendorStall.2 ⟨serving, rfl⟩) (exec_vendorStall.2 ⟨serving, rfl⟩)⟩

end

/-- A request with the selectors of another differs from it in `value` and `length` alone. -/
theorem req_eq_of_selectors {r r' : CtrlReq} (hdir : r'.dir = r.dir) (htyp : r'.typ = r.typ)
    (hrcpt : r'.rcpt = r.rcpt) (hcode : r'.code = r.code) (hindex : r'.index = r.index) :
    r' = { r with value := r'.value, length := r'.length } := by
  rw [← hdir, ← htyp, ← hrcpt, ← hcode, ← hindex]

/-- Settles O40: both words are classified by the selectors they share, so the second runs the operation that
`Dispatched.servedAlike` gives. -/
theorem unexaminedFieldsIgnored : Obligations.UnexaminedFieldsIgnored := by
  intro w w' s hpending hphase hp hdir htyp hrcpt hcode hindex hv
  have serving := serving_of_phase hpending hphase
  have hw' := req_eq_of_selectors hdir htyp hrcpt hcode hindex
  obtain ⟨i', hi', alike⟩ :=
    (dispatched_classify s.params (unpackReq w)).servedAlike serving (unpackReq w').length hp hv
  rw [← hw'] at hi' alike
  rw [← hi'.classify_eq hp] at alike
  exact alike

end Sys2Proof.Machine
end

section
/-! PROOFS. The stimuli of a step (60_exceptions.md): the timer's changes nothing (O47), one that is not enabled is
refused by name (O60), and one that is enabled completes, so that the RESET a commit owes is taken (O59). -/

namespace Sys2Proof.Machine

open Sys2Proof

/-! ## What each stimulus runs (R69, R148) -/

/-- The operation the foreground takes in a phase (R69). -/
def Phase.instr : Phase → Instr
  | .boot => .boot
  | .s1 => .pollS1
  | .s2 => .pollS2
  | .s2l => .pollS2l
  | .s3 => .pollS3
  | .s4 => .pollS4
  | .halt => .haltWait

theorem decodeSeq_phaseCode (p : Phase) : decodeSeq (phaseCode p) = .ok p.instr := by
  cases p <;> rfl

theorem runStimulus_fg (s : State) : runStimulus .fg s = exec s.fgPc.instr s :=
  runStimulus_of_decode rfl (decodeSeq_phaseCode s.fgPc)

theorem runStimulus_timer {s : State} (hs : s.fgPc ≠ .boot) : runStimulus .timer s = .next s := if_neg hs

/-- Settles O47. -/
theorem timerChangesNothing : Obligations.TimerChangesNothing := fun _ _ hl hs =>
  (step_of_listed hl).trans (runStimulus_timer hs)

/-! ## A stimulus that is not enabled (R153, R169) -/

/-- The foreground in `HALT`, an interrupt in `BOOT`, and a request while the block does not serve. -/
theorem runStimulus_of_disabled {s : State} {c : Stimulus} (hdisabled : s.enables c = false)
    (hforeign : ∀ a w, c ≠ .fcmd a w) :
    runStimulus c s = .refused (if c = .fg then .stuckInHalt else .notEnabled) := by
  cases c with
  | fg =>
    have hhalt : s.fgPc = .halt := by simpa [State.enables] using hdisabled
    rw [runStimulus_fg, hhalt]
    exact if_pos hhalt
  | uartRx b =>
    have hboot : s.fgPc = .boot := by simpa [State.enables] using hdisabled
    exact congrArg Ret.finish (if_pos hboot)
  | timer =>
    have hboot : s.fgPc = .boot := by simpa [State.enables] using hdisabled
    exact if_pos hboot
  | setup w => exact exec_classify_of_not_serving hdisabled s.params (unpackReq w)
  | reset => cases hdisabled
  | fcmd a w => exact absurd rfl (hforeign a w)

/-- Settles O60: the stimulus listed first is the one that runs. -/
theorem disabledStepsRefused : Obligations.DisabledStepsRefused := by
  intro s c _ hhead hdisabled hforeign
  obtain ⟨rest, hl⟩ := List.head?_eq_some_iff.1 hhead
  exact (step_of_listed hl).trans (runStimulus_of_disabled hdisabled hforeign)

/-! ## A stimulus that is enabled (R106, R153) -/

section
variable {s : State}

/-- Outside `BOOT` each buffer is initialised, and its registers address cells that exist (R34, R42). -/
theorem initialised_of_ne_boot (hs : s.Inv) (hphase : s.fgPc ≠ .boot) (f : BufId) :
    (s.buf f).inited = true ∧ (s.buf f).head < s.params.cap f ∧ (s.buf f).tail < s.params.cap f :=
  have hi := hs.inited hphase f
  ⟨hi, (hs.bufs f).head_lt hi, tail_lt (hs.bufs f) hi⟩

theorem uartRx_completes (hs : s.Inv) (hphase : s.fgPc ≠ .boot) (b : Byte) : ∃ t, exec (.uartRx b) s = .next t := by
  obtain ⟨hi, -, ht⟩ := initialised_of_ne_boot hs hphase .d2h
  exact ⟨_, uartRxResult b s hphase hi ht⟩

theorem boot_completes (hown : s.OwnInv) (hphase : s.fgPc = .boot) : ∃ t, exec .boot s = .next t := by
  have hfresh := hown.boot hphase
  exact ⟨_, exec_boot.2 ⟨hphase, hfresh .h2d, hfresh .d2h, rfl⟩⟩

theorem pollS1_completes (hs : s.Inv) (hphase : s.fgPc = .s1) : ∃ t, exec .pollS1 s = .next t := by
  obtain ⟨hi, -, ht⟩ := initialised_of_ne_boot hs (by simp [hphase]) .h2d
  obtain ⟨full, room⟩ := pollS1Result s hphase hi ht
  by_cases hfull : s.h2d.count = s.params.capH2D
  · exact ⟨_, full hfull⟩
  · exact ⟨_, room hfull _ _ (drawUsbRead_eq s)⟩

theorem pollS2_completes (hs : s.Inv) (hphase : s.fgPc = .s2) : ∃ t, exec .pollS2 s = .next t := by
  obtain ⟨hi, -, -⟩ := initialised_of_ne_boot hs (by simp [hphase]) .d2h
  obtain ⟨empty, nonempty⟩ := pollS2Result s hphase hi
  by_cases hempty : s.d2h.count = 0
  · exact ⟨_, empty hempty⟩
  · exact ⟨_, nonempty hempty _ _ (drawUsbReady_eq s)⟩

/-- A burst has a byte left to send, and the buffer holds it (R23, R102). -/
theorem pollS2l_completes (hs : s.Inv) (hown : s.OwnInv) (hphase : s.fgPc = .s2l) :
    ∃ t, exec .pollS2l s = .next t := by
  obtain ⟨hi, hh, -⟩ := initialised_of_ne_boot hs (by simp [hphase]) .d2h
  obtain ⟨hleft, hcount, -⟩ := hown.burst hphase
  exact ⟨_, pollS2lResult s hphase hi hleft (hleft.trans hcount) hh _ _ (drawUsbSend_eq s)⟩

theorem pollS3_completes (hs : s.Inv) (hphase : s.fgPc = .s3) : ∃ t, exec .pollS3 s = .next t := by
  obtain ⟨hi, hh, -⟩ := initialised_of_ne_boot hs (by simp [hphase]) .h2d
  exact ⟨_, pollS3Result s hphase hi hh _ _ (drawUartReady_eq s)⟩

theorem foreground_completes (hs : s.Inv) (hown : s.OwnInv) (hphase : s.fgPc ≠ .halt) :
    ∃ t, exec s.fgPc.instr s = .next t := by
  cases h : s.fgPc with
  | boot => exact boot_completes hown h
  | s1 => exact pollS1_completes hs h
  | s2 => exact pollS2_completes hs h
  | s2l => exact pollS2l_completes hs hown h
  | s3 => exact pollS3_completes hs h
  | s4 => exact ⟨_, pollS4Result s h⟩
  | halt => exact absurd h hphase

/-- While the block serves, every flow concludes, SET_ALT_ENUM in each of its three branches. -/
theorem Dispatched.completes {p : Params} {r : CtrlReq} {i : Instr} (h : Dispatched p r i)
    (serving : s.serving = true) : ∃ t, exec i s = .next t := by
  obtain ⟨hpending, -, -⟩ := serving_iff.1 serving
  have hphase := phase_of_serving serving
  cases h with
  | cdcDelegateStandard => exact ⟨_, exec_cdcDelegateStandard.2 ⟨serving, rfl⟩⟩
  | cdcDelegateClass => exact ⟨_, exec_cdcDelegateClass.2 ⟨serving, rfl⟩⟩
  | cdcDelegateReserved => exact ⟨_, exec_cdcDelegateReserved.2 ⟨serving, rfl⟩⟩
  | getUrl => exact ⟨_, exec_getUrl.2 ⟨serving, rfl⟩⟩
  | getMsosDesc => exact ⟨_, exec_getMsosDesc.2 ⟨serving, rfl⟩⟩
  | setAltEnum v l =>
    obtain ⟨other, matching, drawn⟩ := setAltEnumResult v l s hpending hphase
    by_cases code : v.extractLsb' 8 8 = s.params.altEnumCode
    · cases fallthrough : s.params.altEnumFallthrough with
      | false => exact ⟨_, matching code fallthrough⟩
      | true => exact ⟨_, drawn code fallthrough _ _ (drawAltEnumAck_eq s)⟩
    · exact ⟨_, other code⟩
  | setWebusbEnable v l => exact ⟨_, setWebusbEnableResult v l s hpending hphase⟩
  | vendorStall => exact ⟨_, exec_vendorStall.2 ⟨serving, rfl⟩⟩

theorem runStimulus_completes {c : Stimulus} (hs : s.Inv) (hown : s.OwnInv) (henabled : s.enables c = true) :
    ∃ t, runStimulus c s = .next t := by
  cases c with
  | fg =>
    rw [runStimulus_fg]
    exact foreground_completes hs hown (by simpa [State.enables] using henabled)
  | uartRx b => exact uartRx_completes hs (by simpa [State.enables] using henabled) b
  | timer => exact ⟨s, runStimulus_timer (by simpa [State.enables] using henabled)⟩
  | setup w => exact (dispatched_classify s.params (unpackReq w)).completes henabled
  | reset => exact ⟨_, exec_reset.2 rfl⟩
  | fcmd => cases henabled

/-- Taking the stimulus out of the model's lists enables and disables nothing. -/
theorem enables_nextStimulus_snd (s : State) (c : Stimulus) : (nextStimulus s).2.enables c = s.enables c := by
  obtain ⟨_, _, _, h⟩ := nextStimulus_snd s
  rw [h]
  rfl

theorem step_completes (hs : s.Inv) (hown : s.OwnInv) (henabled : s.enables (nextStimulus s).1 = true) :
    ∃ t, step s = .next t :=
  runStimulus_completes (inv_nextStimulus hs) (ownInv_nextStimulus hown)
    ((enables_nextStimulus_snd s _).trans henabled)

/-! ## What comes next: the first stimulus listed, or a free choice (R10) -/

theorem nextStimulus_of_listed {c : Stimulus} {rest : List Stimulus} (h : s.stimuli = c :: rest) :
    nextStimulus s = (c, { s with stimuli := rest, agent := stimulusAgent c }) := by
  simp only [nextStimulus, h]

theorem nextStimulus_of_free (h : s.stimuli = []) :
    nextStimulus s = (freeStimulus s, { s with draws := s.draws + 1, agent := stimulusAgent (freeStimulus s) }) := by
  unfold nextStimulus
  split
  case h_1 c rest hl => exact absurd (h.symm.trans hl) nofun
  case h_2 => rfl

theorem nextStimulus_stimuli (s : State) : (nextStimulus s).2.stimuli = s.stimuli.tail := by
  cases hl : s.stimuli with
  | nil => rw [nextStimulus_of_free hl]; exact hl
  | cons c rest => rw [nextStimulus_of_listed hl]; rfl

/-- A free choice is enabled, so the next stimulus is as soon as the listed ones are. -/
theorem enables_nextStimulus_fst (hlisted : ∀ c ∈ s.stimuli, s.enables c = true) :
    s.enables (nextStimulus s).1 = true := by
  cases hl : s.stimuli with
  | nil => rw [nextStimulus_of_free hl]; exact enables_freeStimulus s
  | cons c rest => rw [nextStimulus_of_listed hl]; exact hlisted c (by simp [hl])

/-! ## The RESET that a commit owes (R118 (c), R184) -/

/-- How many steps may come before the RESET in flight: those listed, then free choices until it is due (log 29). -/
def State.stepsToReset (s : State) : Nat := s.stimuli.length + (Config.resetDueBy s.resets - s.draws)

/-- A step before the RESET uses up a listed stimulus, or it is a free choice made before the RESET was due. -/
theorem stepsToReset_nextStimulus_lt (hpending : s.resetPending = true) (hnext : ¬s.ResetIsNext) :
    (nextStimulus s).2.stepsToReset < s.stepsToReset := by
  unfold State.ResetIsNext at hnext
  unfold State.stepsToReset
  cases hl : s.stimuli with
  | nil =>
    rw [nextStimulus_of_free hl] at hnext ⊢
    have hnotDue : s.draws < Config.resetDueBy s.resets := by
      by_contra hge
      exact hnext (freeStimulus_of_resetDue (resetDue_iff.2 ⟨hpending, not_lt.1 hge⟩))
    simp only [hl, List.length_nil]
    omega
  | cons c rest =>
    rw [nextStimulus_of_listed hl]
    simp only [List.length_cons]
    omega

/-- In `HALT` only the interrupts run before the RESET; they touch `D2H` and the record. -/
theorem runStimulus_of_halt {c : Stimulus} (hs : s.Inv) (hhalt : s.fgPc = .halt) (henabled : s.enables c = true)
    (hc : c ≠ .reset) : ∃ b l, runStimulus c s = .next { s with d2h := b, log := l } := by
  have notBoot : s.fgPc ≠ .boot := by simp [hhalt]
  cases c with
  | fg => simp [State.enables, hhalt] at henabled
  | uartRx b =>
    obtain ⟨t, h⟩ := uartRx_completes hs notBoot b
    obtain ⟨-, -, ⟨-, rfl⟩ | ⟨-, -, rfl⟩⟩ := exec_uartRx.1 h
    · exact ⟨_, _, h⟩
    · exact ⟨_, _, h⟩
  | timer => exact ⟨_, _, runStimulus_timer notBoot⟩
  | setup w =>
    obtain ⟨-, -, notHalt⟩ := serving_iff.1 henabled
    exact absurd hhalt notHalt
  | reset => exact absurd rfl hc
  | fcmd => cases henabled

/-- A reset is in flight, and the stimuli listed before it are enabled ones. -/
structure State.AwaitsReset (s : State) : Prop where
  inv : s.Inv
  pending : s.resetPending = true
  listed : ∀ c ∈ s.stimuli, s.enables c = true

/-- Any step but the RESET completes, leaves the reset in flight and brings it nearer. -/
theorem State.AwaitsReset.nearer (h : s.AwaitsReset) (hnext : ¬s.ResetIsNext) :
    ∃ t, step s = .next t ∧ t.AwaitsReset ∧ t.stepsToReset < s.stepsToReset := by
  have hinv := inv_nextStimulus h.inv
  have hpending : (nextStimulus s).2.resetPending = true := by
    obtain ⟨_, _, _, hsnd⟩ := nextStimulus_snd s
    rw [hsnd]
    exact h.pending
  obtain ⟨b, l, hstep⟩ := runStimulus_of_halt hinv (hinv.halted.1 hpending)
    ((enables_nextStimulus_snd s _).trans (enables_nextStimulus_fst h.listed)) hnext
  refine ⟨_, hstep, ⟨stepKeepsInvariant s _ h.inv hstep, hpending, fun c hc => ?_⟩,
    stepsToReset_nextStimulus_lt h.pending hnext⟩
  have hc' : c ∈ s.stimuli.tail := nextStimulus_stimuli s ▸ hc
  exact (enables_nextStimulus_snd s c).trans (h.listed c (List.mem_of_mem_tail hc'))

/-- After finitely many steps, each of which completes with the reset in flight, the RESET is taken (R118 (c)). -/
def State.ResetComes (s : State) : Prop :=
  ∃ n u t, (∀ k ≤ n, ∃ v, s.after k = some v ∧ v.resetPending = true) ∧ s.after n = some u ∧ u.ResetIsNext ∧
    step u = .next t ∧ t.fgPc = .boot ∧ t.resetPending = false

theorem after_succ_of_step {t : State} (h : step s = .next t) (n : Nat) : s.after (n + 1) = t.after n := by
  simp only [State.after, h]

theorem resetComes_of_resetIsNext (hpending : s.resetPending = true) (hnext : s.ResetIsNext) : s.ResetComes := by
  have hstep : step s = .next (resetMachine (nextStimulus s).2) := by
    rw [step, show (nextStimulus s).1 = .reset from hnext]
    rfl
  refine ⟨0, s, _, fun k hk => ?_, rfl, hnext, hstep, rfl, rfl⟩
  obtain rfl := Nat.le_zero.1 hk
  exact ⟨s, rfl, hpending⟩

theorem resetComes_of_step {t : State} (hpending : s.resetPending = true) (hstep : step s = .next t)
    (ht : t.ResetComes) : s.ResetComes := by
  obtain ⟨n, u, v, hwait, hu, hreset⟩ := ht
  refine ⟨n + 1, u, v, fun k hk => ?_, (after_succ_of_step hstep n).trans hu, hreset⟩
  cases k with
  | zero => exact ⟨s, rfl, hpending⟩
  | succ k =>
    rw [after_succ_of_step hstep]
    exact hwait k (Nat.le_of_succ_le_succ hk)

theorem State.AwaitsReset.resetComes {s : State} (h : s.AwaitsReset) : s.ResetComes := by
  by_cases hnext : s.ResetIsNext
  · exact resetComes_of_resetIsNext h.pending hnext
  · obtain ⟨t, hstep, ht, hlt⟩ := h.nearer hnext
    exact resetComes_of_step h.pending hstep ht.resetComes
termination_by s.stepsToReset

end

/-- Settles O59: a listed stimulus by assumption and a free one by its choice is enabled, and so completes; the steps
before the owed RESET are bounded by `stepsToReset`. -/
theorem enabledStepsComplete : Obligations.EnabledStepsComplete := by
  intro s hs hown
  refine ⟨fun c hhead henabled => ?listed, fun hfree => ?free, fun hpending hlisted => ?reset⟩
  case listed =>
    obtain ⟨rest, hl⟩ := List.head?_eq_some_iff.1 hhead
    refine step_completes hs hown ?_
    rw [nextStimulus_of_listed hl]
    exact henabled
  case free => exact step_completes hs hown (enables_nextStimulus_fst (by simp [hfree]))
  case reset => exact State.AwaitsReset.resetComes ⟨hs, hpending, hlisted⟩

end Sys2Proof.Machine
end

section
/-! PROOFS. The encodings (30_encoding.md): sample words (O43), and that decoder and encoder are inverse to each other
(O44, O45). Each format is treated once: FCMD by its three fields, SEQ by its codes, CTRL by the requests that stand for
each operation. -/

namespace Sys2Proof.Machine

open Sys2Proof

/-! ## Sample words -/

/-- Settles O43: all but the last word are closed and evaluate; the last is a GET_URL where `code` and `index` are those
the parameters give it. -/
theorem decodedSampleWords : Obligations.DecodedSampleWords := by
  refine fun p => ⟨rfl, rfl, rfl, rfl, rfl, rfl, rfl, fun code index => ?_⟩
  simp [decode, classify, unpackReq, code, index]

/-! ## Format FCMD (R59, R65) -/

/-- A word with these fields is the word that the encoder packs from them. -/
theorem fcmdWord_eq_of_fields {w : BitVec 12} {op : BitVec 3} {d : Byte} (hop : fcmdOp w = op) (hd : fcmdData w = d) :
    fcmdWord (fcmdBuf w) op d = w := by
  subst hop hd
  exact fcmdWord_fields w

/-- Every operation of the format fixes `op`, and all but TRY_INSERT fix `data`, to what the decoder has tested. -/
theorem encode_of_decodeFcmd {p : Params} {w : BitVec 12} {i : Instr} (h : decodeFcmd w = .ok i) :
    encode p i = .fcmd w := by
  unfold decodeFcmd at h
  split_ifs at h with hop hdata <;> cases h
  case pos => exact congrArg OpWord.fcmd (fcmdWord_eq_of_fields hop rfl)
  all_goals exact congrArg OpWord.fcmd (fcmdWord_eq_of_fields ‹fcmdOp w = _› (not_not.1 hdata))

/-! ## Format SEQ (R69) -/

theorem encode_of_decodeSeq {p : Params} {c : BitVec 3} {i : Instr} (h : decodeSeq c = .ok i) :
    encode p i = .seq c := by
  unfold decodeSeq at h
  split_ifs at h <;> cases h <;> exact congrArg OpWord.seq (Eq.symm ‹c = _›)

/-! ## Format CTRL (R71, R73) -/

/-- The encoder packs the request that stands for the operation. -/
theorem Dispatched.encode_eq {p : Params} {r : CtrlReq} {i : Instr} (h : Dispatched p r i) :
    encode p i = .ctrl (packReq r) := by
  cases h <;> rfl

/-- A control operation is read back from its word, where the parameters tell the flows apart (R8). -/
theorem Dispatched.decode_encode {p : Params} {r : CtrlReq} {i : Instr} (hp : p.Valid) (h : Dispatched p r i) :
    decode p (encode p i) = .ok i := by
  rw [h.encode_eq, decode, unpackReq_packReq, h.classify_eq hp]

/-! ## Both directions -/

/-- Settles O44: an FCMD word gives back its three fields, the codes of SEQ and the selectors are closed words, and a
control operation is dispatched to by the request it is packed from. -/
theorem decodeEncode : Obligations.DecodeEncode := by
  intro p i hp hi
  cases i with
  | init | tryInsert | tryRemove | peek | count | isFull | isEmpty => simp [encode, decode, decodeFcmd]
  | uartRx | boot | pollS1 | pollS2 | pollS2l | pollS3 | pollS4 | load | setAndCommit | haltWait | reset => rfl
  | getUrl v l => exact (Dispatched.getUrl v l).decode_encode hp
  | getMsosDesc v l => exact (Dispatched.getMsosDesc v l).decode_encode hp
  | setAltEnum v l => exact (Dispatched.setAltEnum v l).decode_encode hp
  | setWebusbEnable v l => exact (Dispatched.setWebusbEnable v l).decode_encode hp
  | cdcDelegateStandard b => exact (Dispatched.cdcDelegateStandard b).decode_encode hp
  | cdcDelegateClass b => exact (Dispatched.cdcDelegateClass b).decode_encode hp
  | cdcDelegateReserved b => exact (Dispatched.cdcDelegateReserved b).decode_encode hp
  | vendorStall b => exact (Dispatched.vendorStall b hi).decode_encode hp

/-- Settles O45: format by format, the encoder rebuilds the word from what the decoder has tested and kept. -/
theorem encodeDecode : Obligations.EncodeDecode := by
  refine fun p w i h => ⟨?_, wellFormed_of_decode h⟩
  cases w with
  | fcmd w => exact encode_of_decodeFcmd h
  | seq c => exact encode_of_decodeSeq h
  | ctrl w =>
    cases h
    rw [(dispatched_classify p (unpackReq w)).encode_eq, packReq_unpackReq]
  | evt | load | setAndCommit | reset => cases h; rfl

end Sys2Proof.Machine
end
